-- ==== Sys2Proof/Word.lean ====
section
/-! DEFINITION. The words of the machine: the byte, the 24-bit host command word (30_encoding.md R71), and the two places
an instruction of the opcode table can stand (R70): a command word of format H24, or a byte of a wire frame, format W8. -/

namespace Sys2Proof

/-- One byte: a wire byte, a table entry, an operand field. -/
abbrev Byte := BitVec 8

/-- The host command word, format `H24` (R71): `OP[23:16] B[15:8] A[7:0]`. -/
abbrev CmdWord := BitVec 24

/-- Where a byte stands in its wire frame: the first byte after a start condition, or a later one (R76, R88). -/
inductive FramePos where
  /-- The first byte of a frame: always a command byte. -/
  | first
  /-- A later byte of a frame: always data. -/
  | later
  deriving DecidableEq, Repr

/-- An encoded row of the opcode table (R70): a host command word, or a wire byte with its position in the frame.
The position is carried beside the byte because a wire byte is classified by it and not by its value (R88). -/
inductive Code where
  /-- A host command word, format `H24`. -/
  | cmd (w : CmdWord)
  /-- A wire byte, format `W8`, at a position of its frame. -/
  | wire (pos : FramePos) (b : Byte)
  deriving DecidableEq, Repr

end Sys2Proof
end

