-- ==== Sys2Proof/Config.lean ====
section
/-! DEFINITION. The configuration record `Cfg` and the fixed parameters of 00_scope.md R5, and the free values: constants with
no body, so that no proof can know what they are. -/

namespace Sys2Proof

/-- The configuration record of R5: the parameters whose values the source leaves out. Which configurations are well-formed is
`Sys2Proof.Machine.cfgOk`. -/
structure Cfg where
  /-- `SEG[0..7]`, the segment table (20_memory.md R51). -/
  seg : Vector Byte 8
  /-- `DATA_COMMAND` (30_encoding.md R78). -/
  dataCommand : Byte
  /-- `ADDRESS_COMMAND` (R79). -/
  addressCommand : Byte
  /-- `DISPLAY_CONTROL_COMMAND` (R80). -/
  displayControl : Byte
  /-- `BRIGHT_DEFAULT`, in 0..7 by its width (10_state.md R22). -/
  brightDefault : BitVec 3
  deriving DecidableEq, Repr

/-- The default configuration of R5. PRESUMED: the spec takes the segment table and the three command constants from general
knowledge of the TM1651 (93_implementation_defined.md G1 to G4) and chooses `BRIGHT_DEFAULT` (92_eei_decisions.md D6).
Assumption log 7: unsafe for a claim that names this configuration. -/
def Cfg.default : Cfg where
  seg := #v[0x00, 0x01, 0x03, 0x07, 0x0F, 0x1F, 0x3F, 0x7F]
  dataCommand := 0x40
  addressCommand := 0xC0
  displayControl := 0x88
  brightDefault := 2

/-- `PIN_MIN` (R5). -/
def pinMin : Int := 0
/-- `PIN_MAX` (R5). -/
def pinMax : Int := 27
/-- How many pin numbers there are, `PIN_MIN..PIN_MAX` (20_memory.md R50 (c)). -/
abbrev pinCount : Nat := 28
/-- `LEVEL_MAX` (R5). -/
def levelMax : Int := 7
/-- `BRIGHT_MAX` (R5). -/
def brightMax : Int := 7
/-- `BYTE_BITS` (R5). -/
abbrev byteBits : Nat := 8

/-- FREE VALUE (93_implementation_defined.md U1): `T_DELAY`, which the spec leaves OPEN and no rule uses. Assumption log 12. -/
opaque Config.tDelay : Nat

/-- FREE VALUE (U3; 60_exceptions.md R162): whether the `n`-th primitive call the environment answers freely fails.
Assumption log 5. -/
opaque Config.freeFails : Nat → Bool

/-- FREE VALUE (U2, U5): the level the environment answers the `n`-th free call with, where that call is a `PinRead`.
Assumption log 5. -/
opaque Config.freeLevel : Nat → Bool

/-- FREE VALUE (U11): the bit a host's `n`-th look at STATUS finds in the place of `LAST_ACK` before the first ack slot.
Assumption log 15. -/
opaque Config.unwrittenAck : Nat → Bool

/-- FREE VALUE (U11): what a host's `n`-th look at CONFIG finds in the place of `CLK_PIN` before INIT has written it.
Assumption log 15. -/
opaque Config.unwrittenClk : Nat → BitVec 5

/-- FREE VALUE (U11): what a host's `n`-th look at CONFIG finds in the place of `DIO_PIN` before INIT has written it.
Assumption log 15. -/
opaque Config.unwrittenDio : Nat → BitVec 5

end Sys2Proof
end

