-- ==== Sys2Proof/Syntax.lean ====
section
/-! DEFINITION. The instructions: one constructor per row of spec/opcode_table.json. -/

namespace Sys2Proof

/-- The seven host operations (30_encoding.md R73) and the four wire bytes (R78 to R81). The operands of INIT, SETB and SETL are
integers, as 41_driver.md takes them (R72); how a command word supplies them is `Sys2Proof.decode`.
Assumption log 18. -/
inductive Instr where
  /-- INIT `clk`, `dio`: construct the driver on two pins (R121). -/
  | init (clk dio : Int)
  /-- SETB `b`: store the brightness (R122). -/
  | setb (b : Int)
  /-- SETL `l`: update the display to a level (R123). -/
  | setl (l : Int)
  /-- RELEASE: the exit path (R127). -/
  | release
  /-- START: the start condition (R101). -/
  | start
  /-- STOP: the stop condition (R102). -/
  | stop
  /-- WRB `byte`: send one byte and sample the acknowledgment (R105). -/
  | wrb (byte : Byte)
  /-- W.DATA_COMMAND: the wire byte of frame 1 (R78). -/
  | wDataCommand
  /-- W.ADDRESS_COMMAND: the first wire byte of frame 2 (R79). -/
  | wAddressCommand
  /-- W.DISPLAY_CONTROL: the wire byte of frame 3, with its brightness field (R80). -/
  | wDisplayControl (brightness : BitVec 3)
  /-- W.SEGMENT_DATA: the second wire byte of frame 2 (R81). -/
  | wSegmentData (pattern : Byte)
  deriving DecidableEq, Repr

end Sys2Proof
end

