-- ==== Sys2Proof/WellFormed.lean ====
section
/-! DEFINITION. Which instructions a command word or a wire byte can carry (30_encoding.md R72). -/

namespace Sys2Proof

/-- An integer an 8-bit operand field read with `sext_8` can hold: −128..127 (R72). -/
def operandFits (x : Int) : Bool := decide (-128 ≤ x) && decide (x ≤ 127)

/-- Well-formed: every operand fits its field. The bit-vector operands fit by their width. A legal operand need not be in the range
an operation accepts: an operand that fits and is out of range raises ConfigurationError (R72, R121 to R123). -/
def Instr.wellFormed : Instr → Bool
  | .init clk dio => operandFits clk && operandFits dio
  | .setb b => operandFits b
  | .setl l => operandFits l
  | .release => true
  | .start => true
  | .stop => true
  | .wrb _ => true
  | .wDataCommand => true
  | .wAddressCommand => true
  | .wDisplayControl _ => true
  | .wSegmentData _ => true

/-- The seven host operations of R73, as against the four wire bytes, which the host does not issue. -/
def Instr.isHostOp : Instr → Bool
  | .init _ _ => true
  | .setb _ => true
  | .setl _ => true
  | .release => true
  | .start => true
  | .stop => true
  | .wrb _ => true
  | .wDataCommand => false
  | .wAddressCommand => false
  | .wDisplayControl _ => false
  | .wSegmentData _ => false

end Sys2Proof
end

