-- ==== Sys2Proof/Decode.lean ====
section
/-! DEFINITION. The decoder, total on every command word and every wire byte and rejecting by name, and the encoder, both written
from 30_encoding.md (R71 to R74, R78 to R81, R88) and spec/opcode_table.json. -/

namespace Sys2Proof

/-- Why a word or a byte encodes no instruction (R74, R88). -/
inductive DecodeError where
  /-- The command word's `OP` is not in the opcode map of R73. -/
  | unknownOpcode (op : Byte)
  /-- A "must be 0" field of the command word is not 0 (R74). -/
  | fieldNotZero (op : Byte)
  /-- The first byte of a frame is none of the command bytes the engine emits (R82, R88). -/
  | notACommandByte (b : Byte)
  deriving DecidableEq, Repr

/-- Field `OP`, bits 23:16 (R71). -/
def opField (w : CmdWord) : Byte := w.extractLsb' 16 8
/-- Field `B`, bits 15:8 (R71). -/
def bField (w : CmdWord) : Byte := w.extractLsb' 8 8
/-- Field `A`, bits 7:0 (R71). -/
def aField (w : CmdWord) : Byte := w.extractLsb' 0 8

/-- `sext_8`: an 8-bit field as a two's-complement integer (00_scope.md R6). -/
def sext8 (f : Byte) : Int := f.toInt

/-- `zext_8` on an 8-bit field: the field's bits as a byte 0..255 (R6). -/
def zext8 (f : Byte) : Byte := f

/-- Accept `i` when the "must be 0" test passed, else reject the word by its opcode (R74). -/
def ifZero (zero : Bool) (op : Byte) (i : Instr) : Except DecodeError Instr :=
  if zero then .ok i else .error (.fieldNotZero op)

/-- The instruction a host command word encodes: the opcode map of R73 with the operand assembly of R72. -/
def decodeCmd (w : CmdWord) : Except DecodeError Instr :=
  let op := opField w
  let a := aField w
  let b := bField w
  if op = 0x01 then .ok (.init (sext8 a) (sext8 b))
  else if op = 0x02 then ifZero (b == 0) op (.setb (sext8 a))
  else if op = 0x03 then ifZero (b == 0) op (.setl (sext8 a))
  else if op = 0x04 then ifZero (b == 0 && a == 0) op .release
  else if op = 0x10 then ifZero (b == 0 && a == 0) op .start
  else if op = 0x11 then ifZero (b == 0 && a == 0) op .stop
  else if op = 0x12 then ifZero (b == 0) op (.wrb (zext8 a))
  else .error (.unknownOpcode op)

/-- The mask of the row W.DISPLAY_CONTROL: bits 7:3 are its fixed pattern (R80). -/
def displayControlMask : Byte := 0xF8

/-- The instruction a wire byte stands for, by its position in the frame first and its value second (R88). The values are the
configuration's; spec/opcode_table.json shows those of the default configuration. R88 tells the three kinds of command byte apart for the
default configuration only. Where a well-formed configuration makes two of them equal, the order below decides: data command, then
address command, then display control. DESIGN CHOICE, assumption log 24. -/
def decodeWire (c : Cfg) (pos : FramePos) (b : Byte) : Except DecodeError Instr :=
  match pos with
  | .later => .ok (.wSegmentData b)
  | .first =>
    if b = c.dataCommand then .ok .wDataCommand
    else if b = c.addressCommand then .ok .wAddressCommand
    else if b &&& displayControlMask = c.displayControl then .ok (.wDisplayControl (b.extractLsb' 0 3))
    else .error (.notACommandByte b)

/-- The decoder: the instruction an encoded word or wire byte stands for, or why it stands for none. -/
def decode (c : Cfg) : Code → Except DecodeError Instr
  | .cmd w => decodeCmd w
  | .wire pos b => decodeWire c pos b

/-- A command word from its three fields: `OP << 16 | (B & 0xFF) << 8 | (A & 0xFF)` (R85). -/
def cmdWord (op b a : Byte) : CmdWord := op.setWidth 24 <<< 16 ||| b.setWidth 24 <<< 8 ||| a.setWidth 24

/-- The field of an integer operand: `x & 0xFF` (R85). -/
def operandField (x : Int) : Byte := BitVec.ofInt 8 x

/-- The display-control byte `CTRL(b) = DISPLAY_CONTROL_COMMAND | zext_8(b)` (R80, R10). -/
def ctrlByte (c : Cfg) (b : BitVec 3) : Byte := c.displayControl ||| b.setWidth 8

/-- The encoder: the command word of a host operation (R73, R85), the byte and position of a wire byte (R76, R78 to R81). -/
def encode (c : Cfg) : Instr → Code
  | .init clk dio => .cmd (cmdWord 0x01 (operandField dio) (operandField clk))
  | .setb b => .cmd (cmdWord 0x02 0 (operandField b))
  | .setl l => .cmd (cmdWord 0x03 0 (operandField l))
  | .release => .cmd (cmdWord 0x04 0 0)
  | .start => .cmd (cmdWord 0x10 0 0)
  | .stop => .cmd (cmdWord 0x11 0 0)
  | .wrb byte => .cmd (cmdWord 0x12 0 byte)
  | .wDataCommand => .wire .first c.dataCommand
  | .wAddressCommand => .wire .first c.addressCommand
  | .wDisplayControl b => .wire .first (ctrlByte c b)
  | .wSegmentData p => .wire .later p

/-- Where a byte given with no position is taken to stand: as a first byte if the engine emits it as one, else as a later byte.
DESIGN CHOICE, assumption log 4. -/
def presumedPos (c : Cfg) (b : Byte) : FramePos :=
  match decodeWire c .first b with
  | .ok _ => .first
  | .error _ => .later

/-- The code that the low `nbits` bits of `w` make: a wire byte for a row of 8 bits (format W8), a command word for any other
(format H24), every bit above `nbits` zero. -/
def codeOfBits (c : Cfg) (nbits w : Nat) : Code :=
  if nbits = 8 then
    .wire (presumedPos c (BitVec.ofNat 8 w)) (BitVec.ofNat 8 w)
  else .cmd (BitVec.ofNat 24 (w % 2 ^ nbits))

/-- The instruction the decoder reads from a word of `nbits` bits numbered as spec/opcode_table.json numbers them (bit 0 the least
significant), under the default configuration, whose values the table's rows show. -/
def decodeTableWord (nbits w : Nat) : Option Instr :=
  match decode Cfg.default (codeOfBits Cfg.default nbits w) with
  | .ok i => some i
  | .error _ => none

end Sys2Proof
end

