-- ==== Sys2Proof/Machine/State.lean ====
section
/-! DEFINITION. The state of the machine (10_state.md), the reasons a step can stop, and the state after hardware reset
(70_reset_and_hazards.md R191). Plain data throughout. -/

namespace Sys2Proof.Machine

/-- The two lines, by name (00_scope.md R7): `CLK` is the pin whose number is `CLK_PIN`, `DIO` the one whose number is
`DIO_PIN`. -/
inductive Line where
  | clk
  | dio
  deriving DecidableEq, Repr

/-- A pin's direction as `PinDir` sets it (R8). -/
inductive Dir where
  | out
  | in
  deriving DecidableEq, Repr

/-- A call of a GpioPort primitive (R8). A level is a `Bool`: `true` is 1 (high), `false` is 0 (low). -/
inductive Prim where
  /-- `PinDir(p, d)`. -/
  | dir (p : Line) (d : Dir)
  /-- `PinWrite(p, v)`. -/
  | wr (p : Line) (v : Bool)
  /-- `PinRead(p)`. -/
  | rd (p : Line)
  /-- `Delay()`. -/
  | dly
  deriving DecidableEq, Repr

/-- An event of `TRACE` (10_state.md R30): a primitive call and how it ended. -/
inductive Event where
  /-- `dir(p, d)`. -/
  | dir (p : Line) (d : Dir)
  /-- `wr(p, v)`. -/
  | wr (p : Line) (v : Bool)
  /-- `rd(p)=a`. -/
  | rd (p : Line) (a : Bool)
  /-- `dly`. -/
  | dly
  /-- `dir(p, d)!`: the call failed. -/
  | dirFailed (p : Line) (d : Dir)
  /-- `wr(p, v)!`: the call failed. -/
  | wrFailed (p : Line) (v : Bool)
  /-- `rd(p)!`: the call failed. -/
  | rdFailed (p : Line)
  deriving DecidableEq, Repr

/-- One entry of the trace: the event of R30 and the pin number the request carried (R37 `gp_pin`; 20_memory.md R53), none for
`Delay()`, which ignores it. DEDUCED, assumption log 9. -/
structure Entry where
  event : Event
  pin : Option (BitVec 5)
  deriving DecidableEq, Repr

/-- The environment's view of one pin (R31): its direction and its output latch, `none` for `unknown`. -/
structure PinState where
  dirn : Option Dir
  latch : Option Bool
  deriving DecidableEq, Repr

/-- Both unknown, as after hardware reset (R31). -/
def PinState.unknown : PinState := ⟨none, none⟩

/-- The level the engine drives on a pin (R31): a level, `Z`, or unknown. -/
inductive Driven where
  | level (v : Bool)
  | z
  | unknown
  deriving DecidableEq, Repr

/-- The environment's answer to one call of `PinDir`, `PinWrite` or `PinRead` (R162): whether it fails, and the level a
`PinRead` that succeeds returns. -/
structure Answer where
  fails : Bool
  level : Bool
  deriving DecidableEq, Repr

/-- What the host presents at its ports (10_state.md R34). -/
inductive HostInput where
  /-- `rst`: hardware reset (70_reset_and_hazards.md R190). -/
  | rst
  /-- Nothing at `rst` or `cmd_valid` for one step: the time that passes before what the host does next. -/
  | quiet
  /-- `cmd_valid` with a command word, or one of the opcode table's wire bytes given to the serializer on its own (log 3). -/
  | present (c : Code)
  deriving DecidableEq, Repr

/-- The sequencer position `SEQ` (R27). -/
inductive Seq where
  /-- No operation runs. -/
  | idle
  /-- `(op, k)`: `op` has been taken and `k` of its events have been performed. -/
  | running (op : Instr) (k : Nat)
  /-- Inside the recovery sequence of 60_exceptions.md R167, `k` of its events performed. -/
  | recovering (op : Instr) (k : Nat)
  deriving DecidableEq, Repr

/-- Everything the spec gives the machine (10_state.md), the host's and the environment's inputs, and the configuration. -/
structure State where
  /-- The configuration `Cfg` (00_scope.md R5): constants, no step changes them (log 7). -/
  cfg : Cfg
  /-- `BRIGHT` (R22). -/
  bright : BitVec 3
  /-- `CLK_PIN` (R23). -/
  clkPin : BitVec 5
  /-- `DIO_PIN` (R23). -/
  dioPin : BitVec 5
  /-- `CONSTRUCTED` (R24). -/
  constructed : Bool
  /-- `LAST_ACK` (R25). -/
  lastAck : Bool
  /-- `ERR_SEEN` (R26). -/
  errSeen : Bool
  /-- `LAST_ERR` (R26). -/
  lastErr : BitVec 2
  /-- `SEQ` (R27). -/
  seq : Seq
  /-- `TRACE` (R30), oldest first. -/
  trace : List Entry
  /-- `DIRN` and `LATCH` of each pin number 0..27 (R31; 20_memory.md R50 (c)). -/
  pins : Vector PinState pinCount
  /-- The response to each operation that has ended (30_encoding.md R75), oldest first; the last is on the port `rsp`. -/
  responses : List (BitVec 2)
  /-- The port `rsp_valid` (R34): true after a step that ended an operation. -/
  rspValid : Bool
  /-- What the host will present at the ports `rst`, `cmd_valid` and `cmd` (R34), oldest first (log 2). -/
  inbox : List HostInput
  /-- The MODEL's own: answers of the environment already fixed, oldest first; past them answers are free (log 5). -/
  answers : List Answer
  /-- The MODEL's own: the index of the next free answer (log 5). -/
  draws : Nat
  deriving DecidableEq, Repr

/-- The reasons the machine stops. The spec's two errors are not among them: each is recorded and the engine goes on (R169). -/
inductive Fault where
  /-- A primitive would be called on a pin number outside 0..27, which 20_memory.md R50 (c) and R53 say does not exist. Raised by
  `runOp`, and so by the step that takes an operation, and by the sequencer's step; no state reachable from reset raises it (R23). Safe. Assumption log 10. -/
  | pinOutsideSpace
  deriving DecidableEq, Repr

/-- The reasons an operation has no step (00_scope.md R11 "refuse"). -/
inductive Refusal where
  /-- An instruction with no meaning in the model. No arm raises it: every constructor has its meaning. Safe. -/
  | notModelled (mnemonic : String)
  /-- The word or byte encodes no operation (30_encoding.md R74). Raised by `step`. Safe: the spec gives it no step. -/
  | invalidWord (e : DecodeError)
  /-- An operation other than INIT while `CONSTRUCTED = 0` (41_driver.md R132). Raised by `gate`. Safe. -/
  | notConstructed
  /-- INIT while `CONSTRUCTED = 1` (R132). Raised by `gate`. Safe. -/
  | alreadyConstructed
  /-- The configuration is ill-formed, and the rules are stated for well-formed ones only (00_scope.md R5;
  93_implementation_defined.md U12). Raised by `gate`. Safe. Assumption log 8. -/
  | illFormedConfiguration
  deriving DecidableEq, Repr

/-- The state after hardware reset under a configuration (70_reset_and_hazards.md R191), nothing presented by the host and no answer
of the environment fixed. `CLK_PIN`, `DIO_PIN` and `LAST_ACK` are unspecified there: DESIGN CHOICE 0, assumption log 6. -/
def resetUnder (c : Cfg) : State where
  cfg := c
  bright := c.brightDefault
  clkPin := 0
  dioPin := 0
  constructed := false
  lastAck := false
  errSeen := false
  lastErr := 0
  seq := .idle
  trace := []
  pins := Vector.replicate pinCount PinState.unknown
  responses := []
  rspValid := false
  inbox := []
  answers := []
  draws := 0

/-- The machine right after hardware reset, in the default configuration. -/
def State.reset : State := resetUnder Cfg.default

end Sys2Proof.Machine
end

