-- ==== Sys2Proof/Machine/Operands.lean ====
section
/-! DEFINITION. Operand forms: the validation tests on ℤ (41_driver.md R121 to R123; 60_exceptions.md R161), the segment table and its
well-formedness (20_memory.md R51), the bits of a byte on the wire (R54), and the well-formed configuration (00_scope.md R5). -/

namespace Sys2Proof.Machine

/-- A pin number is legal when it is in `PIN_MIN..PIN_MAX` (20_memory.md R53). -/
def pinInRange (x : Int) : Bool := decide (pinMin ≤ x) && decide (x ≤ pinMax)

/-- INIT's validation (R121): both pins legal, and different. -/
def initValid (clk dio : Int) : Bool := pinInRange clk && pinInRange dio && clk != dio

/-- SETL's validation (R123): `0 ≤ level ≤ 7`. -/
def levelInRange (l : Int) : Bool := decide (0 ≤ l) && decide (l ≤ levelMax)

/-- SETB's validation (R122): `0 ≤ brightness ≤ 7`. -/
def brightInRange (b : Int) : Bool := decide (0 ≤ b) && decide (b ≤ brightMax)

/-- The operands pass the validation the instruction makes before its first event; every cause of ConfigurationError is a failure of it
(60_exceptions.md R161). -/
def operandsValid (i : Instr) : Bool :=
  match i with
  | .init clk dio => initValid clk dio
  | .setb b => brightInRange b
  | .setl l => levelInRange l
  | _ => true

/-- A validated pin operand as a pin register holds it. -/
def pinReg (x : Int) : BitVec 5 := BitVec.ofInt 5 x

/-- A validated brightness operand as `BRIGHT` holds it. -/
def brightReg (x : Int) : BitVec 3 := BitVec.ofInt 3 x

/-- `SEG[l]` (20_memory.md R51) for a level that validation has passed; the index is never out of range after it (R56). -/
def segAt (c : Cfg) (l : Nat) : Byte := c.seg[l]?.getD 0

/-- Bit `i` of a byte, as bit cell `i` carries it (R54; 00_scope.md R10). -/
def bitOf (b : Byte) (i : Nat) : Bool := b.getLsbD i

/-- The bits of a byte in the order the wire carries them: least significant first (R54). -/
def wireBits (b : Byte) : List Bool := (List.range byteBits).map (bitOf b)

/-- `popcount(v)` on a byte (00_scope.md R6). -/
def popcount (b : Byte) : Nat := (wireBits b).countP id

/-- `v ⊆ w` on bytes: `v & w = v` (R6). -/
def subByte (v w : Byte) : Bool := v &&& w == v

/-- The table's requirements (R51, the first three lines; the fourth follows from the third). -/
def segOk (c : Cfg) : Bool :=
  segAt c 0 == 0 &&
  (List.range 7).all fun k => popcount (segAt c k) < popcount (segAt c (k + 1)) && subByte (segAt c k) (segAt c (k + 1))

/-- A well-formed configuration (00_scope.md R5): the table's requirements, and `DISPLAY_CONTROL_COMMAND[2:0] = 0`
(30_encoding.md R80). `BRIGHT_DEFAULT` is in 0..7 by its width. -/
def cfgOk (c : Cfg) : Bool := segOk c && c.displayControl.extractLsb' 0 3 == 0

end Sys2Proof.Machine
end

