-- ==== Sys2Proof/Machine/Events.lean ====
section
/-! DEFINITION. The event sequences: `Events(op)` of 40_transport.md R101 to R105 and 41_driver.md R123 to R127, `IDLE_SEQ` of R129.
They depend on the operand, on `BRIGHT` and on the configuration, never on what a `PinRead` returns (R100). -/

namespace Sys2Proof.Machine

/-- `Events(START)` (R101). -/
def startEvents : List Prim := [.wr .clk true, .wr .dio true, .wr .dio false, .wr .clk false]

/-- `Events(STOP)` (R102). -/
def stopEvents : List Prim := [.wr .clk false, .wr .dio false, .wr .clk true, .wr .dio true]

/-- `BIT(v)` (R103). -/
def bitCell (v : Bool) : List Prim := [.wr .dio v, .wr .clk true, .dly, .wr .clk false, .dly]

/-- `ACK` (R104). -/
def ackSlot : List Prim :=
  [.dir .dio .in, .wr .clk true, .dly, .rd .dio, .wr .clk false, .dly, .dir .dio .out, .wr .dio true]

/-- `Events(WRB byte)` (R105): eight bit cells, bit 0 first, then the ack slot. -/
def wrbEvents (b : Byte) : List Prim := (wireBits b).flatMap bitCell ++ ackSlot

/-- `IDLE_SEQ` (R129). -/
def idleSeq : List Prim := [.dir .clk .out, .dir .dio .out, .wr .clk true, .wr .dio true]

/-- Transaction 1, the data command (R124). -/
def txn1Events (c : Cfg) : List Prim := startEvents ++ wrbEvents c.dataCommand ++ stopEvents

/-- Transaction 2, the address command and the segment data (R125). -/
def txn2Events (c : Cfg) (l : Nat) : List Prim :=
  startEvents ++ wrbEvents c.addressCommand ++ wrbEvents (segAt c l) ++ stopEvents

/-- Transaction 3, display control (R126). -/
def txn3Events (c : Cfg) (b : BitVec 3) : List Prim := startEvents ++ wrbEvents (ctrlByte c b) ++ stopEvents

/-- `Events(SETL l)` (R123): the three transactions, nothing between them. -/
def setlEvents (c : Cfg) (bright : BitVec 3) (l : Nat) : List Prim := txn1Events c ++ txn2Events c l ++ txn3Events c bright

/-- `Events(op)` of an instruction whose validation has passed. A wire byte's events are those of the byte it is (log 3). -/
def eventsOf (c : Cfg) (bright : BitVec 3) : Instr → List Prim
  | .init _ _ => idleSeq
  | .setb _ => []
  | .setl l => setlEvents c bright l.toNat
  | .release => idleSeq
  | .start => startEvents
  | .stop => stopEvents
  | .wrb byte => wrbEvents byte
  | .wDataCommand => wrbEvents c.dataCommand
  | .wAddressCommand => wrbEvents c.addressCommand
  | .wDisplayControl b => wrbEvents (ctrlByte c b)
  | .wSegmentData p => wrbEvents p

end Sys2Proof.Machine
end

