-- ==== Sys2Proof/Machine/Flags.lean ====
section
/-! DEFINITION. The status flags `LAST_ACK`, `ERR_SEEN`, `LAST_ERR` (10_state.md R25, R26), the error kinds and their codes
(60_exceptions.md R160), and the two status words the host reads (10_state.md R28). -/

namespace Sys2Proof.Machine

/-- The error kinds the source lists (R160). The engine raises the first two; the third is the command line's (R163). -/
inductive ErrorKind where
  | configuration
  | hardwareAccess
  | argument
  deriving DecidableEq, Repr

/-- The code of an error kind, in the response and in `LAST_ERR` (R160). -/
def errorCode : ErrorKind → BitVec 2
  | .configuration => 1
  | .hardwareAccess => 2
  | .argument => 3

/-- Response code 0, completed (30_encoding.md R75). -/
def completedCode : BitVec 2 := 0

/-- `LAST_ACK <- a` (R25). -/
def State.setAck (s : State) (a : Bool) : State := { s with lastAck := a }

/-- `ERR_SEEN <- 1; LAST_ERR <- code` (R26). -/
def State.flagError (s : State) (k : ErrorKind) : State := { s with errSeen := true, lastErr := errorCode k }

/-- `BUSY`: 1 while `SEQ ≠ idle` (R28). -/
def busy (s : State) : Bool := s.seq != .idle

/-- An event that sampled the acknowledgment: a `PinRead` that succeeded. -/
def isSample (e : Event) : Bool :=
  match e with
  | .rd _ _ => true
  | _ => false

/-- `LAST_ACK` has been written since hardware reset: an ack slot has sampled (R25). -/
def ackWritten (s : State) : Bool := s.trace.any fun e => isSample e.event

/-- `CLK_PIN` and `DIO_PIN` have been written since hardware reset: only INIT is taken while they have not, it writes them as it is
taken, and the events it then performs stay in the trace (R23; 41_driver.md R121, R132). -/
def pinsWritten (s : State) : Bool := s.constructed || busy s || !s.trace.isEmpty

/-- `LAST_ACK` as the host's `k`-th look at STATUS finds it: a free value until it is first written (R28). -/
def ackSeen (k : Nat) (s : State) : Bool := if ackWritten s then s.lastAck else Config.unwrittenAck k

/-- `CLK_PIN` as the host's `k`-th look at CONFIG finds it. -/
def clkSeen (k : Nat) (s : State) : BitVec 5 := if pinsWritten s then s.clkPin else Config.unwrittenClk k

/-- `DIO_PIN` as the host's `k`-th look at CONFIG finds it. -/
def dioSeen (k : Nat) (s : State) : BitVec 5 := if pinsWritten s then s.dioPin else Config.unwrittenDio k

/-- S0 `STATUS` (R28), as the host's `k`-th look finds it: bits 7:6 reserved 0, 5:4 `LAST_ERR`, 3 `ERR_SEEN`, 2 `LAST_ACK`,
1 `BUSY`, 0 `CONSTRUCTED`. -/
def statusWord (k : Nat) (s : State) : BitVec 8 :=
  (0 : BitVec 2) ++ s.lastErr ++ BitVec.ofBool s.errSeen ++ BitVec.ofBool (ackSeen k s) ++ BitVec.ofBool (busy s) ++
    BitVec.ofBool s.constructed

/-- S1 `CONFIG` (R28), as the host's `k`-th look finds it: bits 15:13 reserved 0, 12:8 `DIO_PIN`, 7:3 `CLK_PIN`, 2:0 `BRIGHT`. -/
def configWord (k : Nat) (s : State) : BitVec 16 :=
  (0 : BitVec 3) ++ dioSeen k s ++ clkSeen k s ++ s.bright

end Sys2Proof.Machine
end

