-- ==== Sys2Proof/Machine/Ops.lean ====
section
/-! DEFINITION. The named operations over the state: pins and levels (10_state.md R31), the environment's answers (60_exceptions.md R162),
performing one primitive and a sequence of them (40_transport.md R100), the two errors with recovery (60_exceptions.md R166, R167), the
end of an operation, and the tests before it (41_driver.md R132). -/

namespace Sys2Proof.Machine

/-! ### Field updates -/

/-- `BRIGHT <- b`. -/
def State.setBright (s : State) (b : BitVec 3) : State := { s with bright := b }

/-- `CLK_PIN <- c; DIO_PIN <- d`. -/
def State.setPinRegs (s : State) (c d : BitVec 5) : State := { s with clkPin := c, dioPin := d }

/-- `CONSTRUCTED <- v`. -/
def State.setConstructed (s : State) (v : Bool) : State := { s with constructed := v }

/-- `SEQ <- q`, the port `rsp_valid` low. -/
def State.goto (s : State) (q : Seq) : State := { s with seq := q, rspValid := false }

/-- The host's inputs become `l`. -/
def State.setInbox (s : State) (l : List HostInput) : State := { s with inbox := l }

/-- Append an entry to `TRACE` (R30). -/
def State.record (s : State) (e : Entry) : State := { s with trace := s.trace ++ [e] }

/-- `respond c` (R11, R27): the response goes out, `SEQ <- idle`. -/
def State.respond (s : State) (c : BitVec 2) : State :=
  { s with responses := s.responses ++ [c], rspValid := true, seq := .idle }

/-! ### Pins -/

/-- The pin number of a line (R7). -/
def State.pinOf (s : State) : Line → BitVec 5
  | .clk => s.clkPin
  | .dio => s.dioPin

/-- `DIRN` and `LATCH` of the pin with number `n` (R31). -/
def State.pinAt (s : State) (n : Nat) : PinState := s.pins[n]?.getD PinState.unknown

/-- Replace `DIRN` and `LATCH` of the pin with number `n`. -/
def State.setPin (s : State) (n : Nat) (q : PinState) : State := { s with pins := s.pins.setIfInBounds n q }

/-- `DIRN` and `LATCH` of a line. -/
def State.lineAt (s : State) (p : Line) : PinState := s.pinAt (s.pinOf p).toNat

/-- `DIRN[p] <- d` (R31). -/
def State.setDirn (s : State) (p : Line) (d : Dir) : State :=
  s.setPin (s.pinOf p).toNat ⟨some d, (s.lineAt p).latch⟩

/-- `LATCH[p] <- v`, whatever the direction (R31). -/
def State.setLatch (s : State) (p : Line) (v : Bool) : State :=
  s.setPin (s.pinOf p).toNat ⟨(s.lineAt p).dirn, some v⟩

/-- `Driven(p)` (R31). -/
def driven (s : State) (p : Line) : Driven :=
  match (s.lineAt p).dirn, (s.lineAt p).latch with
  | some .out, some v => .level v
  | some .out, none => .unknown
  | some .in, _ => .z
  | none, _ => .unknown

/-- Both pin registers hold numbers of the pin space (20_memory.md R53). -/
def pinsInSpace (s : State) : Bool := decide (s.clkPin.toNat < pinCount) && decide (s.dioPin.toNat < pinCount)

/-! ### The environment's answers -/

/-- The answer to the next call: the first one fixed, or a free value (R162). -/
def nextAnswer (s : State) : Answer :=
  match s.answers with
  | a :: _ => a
  | [] => ⟨Config.freeFails s.draws, Config.freeLevel s.draws⟩

/-- The next answer is used up. -/
def State.dropAnswer (s : State) : State :=
  { s with
    answers := s.answers.tail
    draws := if s.answers.isEmpty then s.draws + 1 else s.draws }

/-- The answer to the call after `k` more calls. -/
def answerAt (s : State) (k : Nat) : Answer :=
  match s.answers[k]? with
  | some a => a
  | none => ⟨Config.freeFails (s.draws + (k - s.answers.length)), Config.freeLevel (s.draws + (k - s.answers.length))⟩

/-! ### Performing primitives -/

/-- The event of a call the environment answered with `a`. -/
def eventOf (p : Prim) (a : Answer) : Event :=
  match p, a.fails with
  | .dly, _ => .dly
  | .dir l d, false => .dir l d
  | .dir l d, true => .dirFailed l d
  | .wr l v, false => .wr l v
  | .wr l v, true => .wrFailed l v
  | .rd l, false => .rd l a.level
  | .rd l, true => .rdFailed l

/-- The pin number a request carries (R37): none for `Delay()`. -/
def requestPin (s : State) : Prim → Option (BitVec 5)
  | .dir l _ => some (s.pinOf l)
  | .wr l _ => some (s.pinOf l)
  | .rd l => some (s.pinOf l)
  | .dly => none

/-- The effect of a call that succeeded with answer `a` (10_state.md R31; 40_transport.md R104, R105: `LAST_ACK <- a` at the `rd`). -/
def effect (p : Prim) (a : Answer) (s : State) : State :=
  match p with
  | .dir l d => s.setDirn l d
  | .wr l v => s.setLatch l v
  | .rd _ => s.setAck a.level
  | .dly => s

/-- `Delay()` never fails and the environment answers nothing to it (R162). -/
def isDelay (p : Prim) : Bool := p == .dly

/-- The call fails on the next answer. -/
def failsNow (p : Prim) (s : State) : Bool := !isDelay p && (nextAnswer s).fails

/-- Perform one primitive (40_transport.md R100): append its event, and where it succeeded have its effect. A failed call has no other
effect (60_exceptions.md R168). The state after it; whether it failed is `failsNow`. -/
def perform (p : Prim) (s : State) : State :=
  if isDelay p then s.record ⟨.dly, none⟩
  else
    let a := nextAnswer s
    let t := (if a.fails then s else effect p a s).dropAnswer
    t.record ⟨eventOf p a, requestPin s p⟩

/-- Perform a sequence up to and including its first call that fails (R100, R109). True when none failed. -/
def runEvents : List Prim → State → Bool × State
  | [], s => (true, s)
  | p :: ps, s => if failsNow p s then (false, perform p s) else runEvents ps (perform p s)

/-- Perform a sequence in full, failures recorded and passed over, as recovery does (60_exceptions.md R167). -/
def performAll (ps : List Prim) (s : State) : State := ps.foldl (fun t p => perform p t) s

/-! ### Errors: the one place each is raised -/

/-- `raise ConfigurationError` (60_exceptions.md R166): the two flags, response 1, nothing else. -/
def configurationError (s : State) : State := (s.flagError .configuration).respond (errorCode .configuration)

/-- The recovery sequence: `IDLE_SEQ`, attempted in full (R167). -/
def recover (s : State) : State := performAll idleSeq s

/-- What recovery leaves of `CONSTRUCTED`: RELEASE discards the driver even when it fails; INIT has not set it (R167). -/
def discardOnError (i : Instr) (s : State) : State :=
  match i with
  | .release => s.setConstructed false
  | _ => s

/-- The end of an operation whose recovery is done (R167): the two flags, `CONSTRUCTED`, response 2. -/
def abandon (i : Instr) (s : State) : State :=
  (discardOnError i (s.flagError .hardwareAccess)).respond (errorCode .hardwareAccess)

/-- `raise HardwareAccessError` in `i`, its failed call just recorded (R167): recovery, then the end. -/
def hardwareAccessError (i : Instr) (s : State) : State := abandon i (recover s)

/-! ### The course of an operation -/

/-- INIT's register writes before its events (41_driver.md R121): `CLK_PIN`, `DIO_PIN`, `BRIGHT <- BRIGHT_DEFAULT`. -/
def loadInit (clk dio : Int) (s : State) : State :=
  (s.setPinRegs (pinReg clk) (pinReg dio)).setBright s.cfg.brightDefault

/-- The final register writes of an operation that completed (R121, R122, R127). -/
def finalWrites (i : Instr) (s : State) : State :=
  match i with
  | .init _ _ => s.setConstructed true
  | .setb b => s.setBright (brightReg b)
  | .release => s.setConstructed false
  | _ => s

/-- The end of an operation whose events all succeeded (40_transport.md R100): final register writes, response 0. -/
def complete (i : Instr) (s : State) : State := (finalWrites i s).respond completedCode

/-- Perform the events of an operation and end it (R100). A pin number outside the pin space stops the machine (log 10). -/
def runOp (i : Instr) (s : State) : Host.Outcome State Fault Refusal :=
  if pinsInSpace s then
    .next (
      let r := runEvents (eventsOf s.cfg s.bright i) s
      if r.1 then complete i r.2 else hardwareAccessError i r.2)
  else .fault .pinOutsideSpace

/-- The tests before an operation (60_exceptions.md R165): the configuration is well-formed (00_scope.md R5; U12), and `CONSTRUCTED` is
what the operation needs (41_driver.md R132). `k` is the operation itself. -/
def gate (needs : Bool) (s : State) (k : Host.Outcome State Fault Refusal) : Host.Outcome State Fault Refusal :=
  if cfgOk s.cfg then
    if s.constructed = needs then k
    else if needs then .refused .notConstructed else .refused .alreadyConstructed
  else .refused .illFormedConfiguration

/-- An operation that needs the driver and has no operand to validate: the transport operations, RELEASE, a wire byte. -/
def transportOp (i : Instr) (s : State) : Host.Outcome State Fault Refusal := gate true s (runOp i s)

/-- Hardware reset (70_reset_and_hazards.md R190, R191): from any state, no event, no recovery, no response. What lies outside the
engine, the configuration, the host's inputs and the environment's answers, stays (log 11). -/
def hardReset (s : State) : State :=
  { resetUnder s.cfg with inbox := s.inbox, answers := s.answers, draws := s.draws }

end Sys2Proof.Machine
end

