-- ==== Sys2Proof/Machine/Driver.lean ====
section
/-! DEFINITION. The driver family (41_driver.md): INIT, SETB, SETL, RELEASE. -/

namespace Sys2Proof.Machine

/-- INIT `clk`, `dio` (R121): refused when constructed; ConfigurationError before any event; else the pin registers, `BRIGHT`,
`IDLE_SEQ`, and `CONSTRUCTED` when no call failed. -/
def execInit (clk dio : Int) (s : State) : Host.Outcome State Fault Refusal :=
  gate false s (
    if initValid clk dio then runOp (.init clk dio) (loadInit clk dio s)
    else .next (configurationError s))

/-- SETB `b` (R122): ConfigurationError leaves `BRIGHT`; else `BRIGHT <- b`, response 0. No event in any case. -/
def execSetb (b : Int) (s : State) : Host.Outcome State Fault Refusal :=
  gate true s (
    if brightInRange b then .next (complete (.setb b) s)
    else .next (configurationError s))

/-- SETL `l` (R123): ConfigurationError before any event; else the three transactions. -/
def execSetl (l : Int) (s : State) : Host.Outcome State Fault Refusal :=
  gate true s (
    if levelInRange l then runOp (.setl l) s
    else .next (configurationError s))

/-- RELEASE (R127): `IDLE_SEQ`, then `CONSTRUCTED <- 0`, on failure too. -/
def execRelease (s : State) : Host.Outcome State Fault Refusal := transportOp .release s

end Sys2Proof.Machine
end

