-- ==== Sys2Proof/Machine/Transport.lean ====
section
/-! DEFINITION. The transport family (40_transport.md): START, STOP, WRB. None validates anything (R100). -/

namespace Sys2Proof.Machine

/-- START (R101). -/
def execStart (s : State) : Host.Outcome State Fault Refusal := transportOp .start s

/-- STOP (R102). -/
def execStop (s : State) : Host.Outcome State Fault Refusal := transportOp .stop s

/-- WRB `byte` (R105). -/
def execWrb (byte : Byte) (s : State) : Host.Outcome State Fault Refusal := transportOp (.wrb byte) s

end Sys2Proof.Machine
end

