-- ==== Sys2Proof/Machine/Wire.lean ====
section
/-! DEFINITION. The four wire bytes of the opcode table (30_encoding.md R78 to R81). The engine's part in each is to send it: the 48 events
of `WRB` on that byte (41_driver.md R124 to R126; 30_encoding.md R86), the acknowledgment sampled, ended as WRB ends. What the chip does with
it is outside every rule (00_scope.md R4). DEDUCED, assumption log 3. -/

namespace Sys2Proof.Machine

/-- W.DATA_COMMAND (R78): the payload of frame 1. -/
def execWDataCommand (s : State) : Host.Outcome State Fault Refusal := transportOp .wDataCommand s

/-- W.ADDRESS_COMMAND (R79): the first byte of frame 2. -/
def execWAddressCommand (s : State) : Host.Outcome State Fault Refusal := transportOp .wAddressCommand s

/-- W.DISPLAY_CONTROL (R80): the payload of frame 3, `CTRL(brightness)`. -/
def execWDisplayControl (brightness : BitVec 3) (s : State) : Host.Outcome State Fault Refusal :=
  transportOp (.wDisplayControl brightness) s

/-- W.SEGMENT_DATA (R81): the second byte of frame 2. -/
def execWSegmentData (pattern : Byte) (s : State) : Host.Outcome State Fault Refusal :=
  transportOp (.wSegmentData pattern) s

end Sys2Proof.Machine
end

