-- ==== Sys2Proof/Machine/Dispatch.lean ====
section
/-! DEFINITION. The dispatch: one arm per constructor of `Instr`, each a direct call of that instruction's meaning. -/

namespace Sys2Proof.Machine

/-- The meaning of an instruction in a state where no operation runs (assumption log 23). -/
def exec (i : Instr) (s : State) : Host.Outcome State Fault Refusal :=
  match i with
  | .init clk dio => Sys2Proof.Machine.execInit clk dio s
  | .setb b => Sys2Proof.Machine.execSetb b s
  | .setl l => Sys2Proof.Machine.execSetl l s
  | .release => Sys2Proof.Machine.execRelease s
  | .start => Sys2Proof.Machine.execStart s
  | .stop => Sys2Proof.Machine.execStop s
  | .wrb byte => Sys2Proof.Machine.execWrb byte s
  | .wDataCommand => Sys2Proof.Machine.execWDataCommand s
  | .wAddressCommand => Sys2Proof.Machine.execWAddressCommand s
  | .wDisplayControl brightness => Sys2Proof.Machine.execWDisplayControl brightness s
  | .wSegmentData pattern => Sys2Proof.Machine.execWSegmentData pattern s

end Sys2Proof.Machine
end

