-- ==== Sys2Proof/Machine/Fetch.lean ====
section
/-! DEFINITION. What a step finds to do: the host's inputs at the ports `rst` and `cmd` (10_state.md R34), in the order the host
presents them. Assumption logs 2, 11 and 22. -/

namespace Sys2Proof.Machine

/-- What a step has to do. -/
inductive Task where
  /-- Hardware reset; the host's inputs after it. -/
  | reset (rest : List HostInput)
  /-- The sequencer's next step: an operation runs; the host's inputs after it. -/
  | sequence (rest : List HostInput)
  /-- Nothing is presented and no operation runs; the host's inputs after it. -/
  | wait (rest : List HostInput)
  /-- The instruction presented; the host's inputs after it. -/
  | run (i : Instr) (rest : List HostInput)
  /-- The word or byte presented encodes no instruction. -/
  | invalid (e : DecodeError)
  deriving DecidableEq, Repr

/-- What the host's presented word is to a machine that is ready to take it (30_encoding.md R74). -/
def taskOfCode (cfg : Cfg) (c : Code) (rest : List HostInput) : Task :=
  match decode cfg c with
  | .ok i => .run i rest
  | .error e => .invalid e

/-- What the next step has to do. Reset acts whatever `SEQ` is (70_reset_and_hazards.md R190); a command waits while `SEQ ≠ idle`
(10_state.md R34); a quiet moment of the host passes with the step. -/
def fetch (s : State) : Task :=
  match s.inbox with
  | .rst :: rest => .reset rest
  | .quiet :: rest => if busy s then .sequence rest else .wait rest
  | .present c :: rest => if busy s then .sequence s.inbox else taskOfCode s.cfg c rest
  | [] => if busy s then .sequence [] else .wait []

/-- The state with `c` presented as the host's next input and the machine ready to take it. -/
def presentNext (c : Code) (s : State) : State :=
  { s with inbox := .present c :: s.inbox, seq := .idle }

/-- Nothing to do: the engine waits for a command (70_reset_and_hazards.md R190); the port `rsp_valid` falls (10_state.md R34). -/
def waitStep (s : State) : State := s.goto .idle

end Sys2Proof.Machine
end

