-- ==== Sys2Proof/Machine/Sequencer.lean ====
section
/-! DEFINITION. The sequencer at the grain of 10_state.md R20 and R27: an operation is taken, and from then on one step is one primitive
call, or the register writes and the response that end it. `exec` says what a whole operation comes to, as the host sees it (R34); the
sequencer brings the machine there event by event. Assumption log 1. -/

namespace Sys2Proof.Machine

/-- The register writes made before an operation's first event, when it is taken: INIT's (41_driver.md R121). -/
def loadOperands (i : Instr) (s : State) : State :=
  match i with
  | .init clk dio => loadInit clk dio s
  | _ => s

/-- An operation whose tests have passed is taken: `SEQ <- (op, 0)` (R27). -/
def accept (i : Instr) (s : State) : State := (loadOperands i s).goto (.running i 0)

/-- The step that finds the operation `i` presented and the engine idle (R34). An operation that is refused, or whose operands are invalid
(60_exceptions.md R161, R166), is over in this step, as its meaning says; any other is taken. -/
def takeStep (i : Instr) (s : State) : Host.Outcome State Fault Refusal :=
  match exec i s with
  | .next t => .next (if operandsValid i then accept i s else t)
  | .fault f => .fault f
  | .refused r => .refused r

/-- The call the sequencer makes next, where it makes one. -/
def pendingPrim (s : State) : Option Prim :=
  match s.seq with
  | .idle => none
  | .running i k => (eventsOf s.cfg s.bright i)[k]?
  | .recovering _ k => idleSeq[k]?

/-- One step of the sequencer (R27; 60_exceptions.md R167). A successful event advances `k`; a failed one sends it to recovery; past the
last event the operation ends. -/
def seqStep (s : State) : State :=
  match s.seq with
  | .idle => s
  | .running i k =>
    match (eventsOf s.cfg s.bright i)[k]? with
    | some p => (perform p s).goto (if failsNow p s then .recovering i 0 else .running i (k + 1))
    | none => complete i s
  | .recovering i k =>
    match idleSeq[k]? with
    | some p => (perform p s).goto (.recovering i (k + 1))
    | none => abandon i s

/-- A step of a state where an operation runs; a call on a pin number outside the pin space stops the machine (log 10). -/
def busyStep (s : State) : Host.Outcome State Fault Refusal :=
  if pinsInSpace s || (pendingPrim s).isNone then .next (seqStep s) else .fault .pinOutsideSpace

/-- A GpioPort request (10_state.md R37; 30_encoding.md R83): `gp_kind`, `gp_pin`, `gp_val`, `none` where the request ignores the field. -/
structure GpioRequest where
  kind : BitVec 2
  pin : Option (BitVec 5)
  val : Option Bool
  deriving DecidableEq, Repr

/-- The encoding of a primitive call at the GpioPort port (R83). -/
def gpioRequest (s : State) (p : Prim) : GpioRequest :=
  match p with
  | .dir _ d => ⟨0, requestPin s p, some (d == .out)⟩
  | .wr _ v => ⟨1, requestPin s p, some v⟩
  | .rd _ => ⟨2, requestPin s p, none⟩
  | .dly => ⟨3, none, none⟩

/-- The GpioPort port: the request the engine makes, none while `gp_req` is 0 (R37). -/
def gpioPort (s : State) : Option GpioRequest := (pendingPrim s).map (gpioRequest s)

/-- The port `cmd_ready`: 1 exactly when `SEQ = idle` (R34). -/
def cmdReady (s : State) : Bool := !busy s

/-- The ports `rsp_valid` and `rsp`: the response of the operation the last step ended, none while `rsp_valid` is 0 (R34). -/
def rspPort (s : State) : Option (BitVec 2) := if s.rspValid then s.responses.getLast? else none

end Sys2Proof.Machine
end

