-- ==== Sys2Proof/Machine/Step.lean ====
section
/-! DEFINITION. One step of the machine: hardware reset, taking the operation the host presents, the sequencer's next step, or waiting. -/

namespace Sys2Proof.Machine

/-- One step (10_state.md R20, R27, R34; 70_reset_and_hazards.md R190). -/
def step (s : State) : Host.Outcome State Fault Refusal :=
  match fetch s with
  | .reset rest => .next (hardReset (s.setInbox rest))
  | .sequence rest => busyStep (s.setInbox rest)
  | .wait rest => .next (waitStep (s.setInbox rest))
  | .run i rest => takeStep i (s.setInbox rest)
  | .invalid e => .refused (.invalidWord e)

/-- The state with the instruction of `nbits` bits `w` presented, so that the next step takes it. -/
def State.withFetchWord (s : State) (nbits w : Nat) : State := presentNext (codeOfBits s.cfg nbits w) s

end Sys2Proof.Machine
end

