-- ==== Sys2Proof/Machine/LevelSource.lean ====
section
/-! DEFINITION. The companion LevelSource (42_level_source.md R150 to R154), outside the hardware block: pure functions. -/

namespace Sys2Proof.Machine

/-- LVLX, explicit mode (R151): the identity. -/
def lvlx (l : Int) : Int := l

/-- `clamp(x, lo, hi)` (R152). -/
def clampInt (x lo hi : Int) : Int := if x < lo then lo else if x > hi then hi else x

/-- LVLP, CPU mode (R152): `clamp(floor(p / 12.5), 0, 7)`, on exact rationals (92_eei_decisions.md D25). Outside `[0,100]` the clamp
result is the spec's reading (R154; assumption log 21). -/
def lvlp (p : ℚ) : Int := clampInt (p / (25 / 2)).floor 0 7

/-- The integer form for `p = n / d`, `n ≥ 0`, `d > 0` (R153): `min(7, (2n) div (25d))`. -/
def lvlpRatio (n d : Nat) : Nat := min 7 ((2 * n) / (25 * d))

end Sys2Proof.Machine
end

