-- ==== Sys2Proof/Machine/Pseudo.lean ====
section
/-! DEFINITION. Sequences of operations, and the pseudo-operations of 30_encoding.md R86. -/

namespace Sys2Proof.Machine

/-- Issue a sequence of operations one after another (10_state.md R34), stopping at the first that has no next state. -/
def runInstrs : List Instr → State → Host.Outcome State Fault Refusal
  | [], s => .next s
  | i :: is, s =>
    match exec i s with
    | .next t => runInstrs is t
    | .fault f => .fault f
    | .refused r => .refused r

/-- `TXN1` (R86). -/
def txn1 (c : Cfg) : List Instr := [.start, .wrb c.dataCommand, .stop]

/-- `TXN2 l`, `l` in 0..7 (R86). -/
def txn2 (c : Cfg) (l : Nat) : List Instr := [.start, .wrb c.addressCommand, .wrb (segAt c l), .stop]

/-- `TXN3 b`, `b` in 0..7 (R86). -/
def txn3 (c : Cfg) (b : BitVec 3) : List Instr := [.start, .wrb (ctrlByte c b), .stop]

/-- `UPDATE l, b` (R86). -/
def update (l b : Int) : List Instr := [.setb b, .setl l]

/-- `RUN c, d, b, l` (R86): one whole process run of the source. -/
def runProcess (c d b l : Int) : List Instr := [.init c d, .setb b, .setl l, .release]

end Sys2Proof.Machine
end

