-- ==== Sys2Proof/Machine/Receiver.lean ====
section
/-! DEFINITION. The receiver's view `Frames` (40_transport.md R107): a function of a trace, not part of the engine. -/

namespace Sys2Proof.Machine

/-- What the receiver tracks while it scans a trace (R107). -/
structure Receiver where
  /-- `clk`: the last level written to CLK. -/
  clk : Bool
  /-- `dio`: the level on the data line, `none` for `Z`. -/
  dio : Option Bool
  /-- `LATCH[DIO]`. -/
  latch : Bool
  /-- `open`: inside a frame. -/
  inFrame : Bool
  /-- `n`: clock pulses of the byte so far. -/
  n : Nat
  /-- `acc`: the byte so far. -/
  acc : Byte
  /-- `cur`: the bytes of the open frame. -/
  cur : List Byte
  /-- The frames emitted. -/
  frames : List (List Byte)
  deriving DecidableEq, Repr

/-- The receiver before the first event (R107). -/
def Receiver.start : Receiver := ⟨true, some true, true, false, 0, 0, [], []⟩

/-- A write to the data line while it is an output and the clock is high: the start condition, the stop condition, or neither. -/
def dataWhileHigh (r : Receiver) (v : Bool) : Receiver :=
  if r.dio = some true ∧ v = false then { r with inFrame := true, cur := [], n := 0, acc := 0, dio := some v }
  else if r.dio = some false ∧ v = true ∧ r.inFrame then { r with frames := r.frames ++ [r.cur], inFrame := false, dio := some v }
  else { r with dio := some v }

/-- A write to the data line; the latch takes it whatever the direction. -/
def dataWrite (r : Receiver) (v : Bool) : Receiver :=
  let t := { r with latch := v }
  match r.dio with
  | none => t
  | some _ => if r.clk then dataWhileHigh t v else { t with dio := some v }

/-- Bit `n - 1` of the byte, `acc | (dio << (n - 1))`. -/
def takeBit (acc : Byte) (n : Nat) (v : Bool) : Byte := acc ||| ((BitVec.ofBool v).setWidth 8 <<< (n - 1))

/-- The clock rises inside a frame: pulse `n + 1`. In a data pulse the rule says the data line is 0 or 1; where it is `Z` the rule gives
no byte (`none`). Assumption log 17. -/
def clockRise (r : Receiver) : Option Receiver :=
  let n := r.n + 1
  if n ≤ byteBits then
    match r.dio with
    | none => none
    | some v =>
      let acc := takeBit r.acc n v
      some { r with n := n, acc := acc, cur := if n = byteBits then r.cur ++ [acc] else r.cur, clk := true }
  else if n = 9 then some { r with n := 0, acc := 0, clk := true }
  else some { r with n := n, clk := true }

/-- A write to the clock line. -/
def clockWrite (r : Receiver) (v : Bool) : Option Receiver :=
  if v = true ∧ r.clk = false ∧ r.inFrame then clockRise r else some { r with clk := v }

/-- One event of the trace. R107 reads successful events; a failed one puts nothing on the wire (60_exceptions.md R168). -/
def receive (r : Receiver) (e : Event) : Option Receiver :=
  match e with
  | .wr .dio v => some (dataWrite r v)
  | .wr .clk v => clockWrite r v
  | .dir .dio .in => some { r with dio := none }
  | .dir .dio .out => some { r with dio := some r.latch }
  | .dir .clk _ => some r
  | .rd _ _ => some r
  | .dly => some r
  | .dirFailed _ _ => some r
  | .wrFailed _ _ => some r
  | .rdFailed _ => some r

/-- The receiver after a list of events. -/
def receiveAll (r : Receiver) (t : List Event) : Option Receiver := t.foldlM receive r

/-- `Frames(t)` (R107): the byte lists the receiver of the line protocol sees. -/
def framesOf (t : List Event) : Option (List (List Byte)) := (receiveAll Receiver.start t).map (·.frames)

/-- The events of a sequence whose calls all succeed and whose reads all return `a`. -/
def successEvents (a : Bool) (ps : List Prim) : List Event :=
  ps.map fun p =>
    match p with
    | .dir l d => .dir l d
    | .wr l v => .wr l v
    | .rd l => .rd l a
    | .dly => .dly

end Sys2Proof.Machine
end

