-- ==== Sys2Proof/Safety.lean ====
section
/-! DEFINITION. The terms statements about the machine are made in: idle lines, failure-free environments, the invariants of a run, what an
operation leaves alone, and clean runs. -/

namespace Sys2Proof.Machine

/-- The pin registers hold two different numbers of the pin space (10_state.md R23). -/
def pinsLegal (s : State) : Bool := pinsInSpace s && s.clkPin != s.dioPin

/-- The state admits every operation but INIT (41_driver.md R132): a well-formed configuration, `CONSTRUCTED = 1`, and, as then always
(10_state.md R23), legal pins. -/
def operational (s : State) : Bool := cfgOk s.cfg && s.constructed && pinsLegal s

/-- The state admits INIT (R132). -/
def constructible (s : State) : Bool := cfgOk s.cfg && !s.constructed

/-- Output at high level. -/
def PinState.idle : PinState := ⟨some .out, some true⟩

/-- The lines are idle (10_state.md R35). -/
def linesIdle (s : State) : Bool := s.lineAt .clk == PinState.idle && s.lineAt .dio == PinState.idle

/-- None of the environment's next `n` answers is a failure: the named premise of 60_exceptions.md R162. -/
abbrev NoFailure (s : State) (n : Nat) : Prop := ∀ k < n, (answerAt s k).fails = false

/-- How many calls of a sequence the environment answers: all but `Delay()` (R162). -/
def callsIn (ps : List Prim) : Nat := ps.countP fun p => !isDelay p

/-- The events of a sequence whose every call is performed, the environment's answers being `ans k`, `ans (k + 1)`, … -/
def expectedEvents (ans : Nat → Answer) : Nat → List Prim → List Event
  | _, [] => []
  | k, p :: ps => eventOf p (ans k) :: expectedEvents ans (if isDelay p then k else k + 1) ps

/-- `LAST_ACK` after a sequence whose every call succeeds, from `a`: the answer to its last read, if any (10_state.md R25). -/
def ackAfter (ans : Nat → Answer) : Nat → List Prim → Bool → Bool
  | _, [], a => a
  | k, .rd _ :: ps, _ => ackAfter ans (k + 1) ps (ans k).level
  | k, p :: ps, a => ackAfter ans (if isDelay p then k else k + 1) ps a

/-- `TRACE` as 10_state.md R30 has it: the events, without the pin numbers. -/
def eventsSeen (s : State) : List Event := s.trace.map (·.event)

/-- An event of a call that failed. -/
def isFailure (e : Event) : Bool :=
  match e with
  | .dirFailed _ _ => true
  | .wrFailed _ _ => true
  | .rdFailed _ => true
  | _ => false

/-- An event without the level a read returned. -/
def eraseLevel (e : Event) : Event :=
  match e with
  | .rd p _ => .rd p false
  | e => e

/-- The pin state of all pins that a trace leaves: the fold of 10_state.md R31 over its events (20_memory.md R60 (a)). -/
def replayEntry (pins : Vector PinState pinCount) (e : Entry) : Vector PinState pinCount :=
  match e.event, e.pin with
  | .dir _ d, some n => pins.setIfInBounds n.toNat ⟨some d, (pins[n.toNat]?.getD PinState.unknown).latch⟩
  | .wr _ v, some n => pins.setIfInBounds n.toNat ⟨(pins[n.toNat]?.getD PinState.unknown).dirn, some v⟩
  | _, _ => pins

/-- The pins after a whole trace, from hardware reset. -/
def replay (t : List Entry) : Vector PinState pinCount := t.foldl replayEntry (Vector.replicate pinCount PinState.unknown)

/-- Inside the recovery sequence. -/
def inRecovery (s : State) : Bool :=
  match s.seq with
  | .recovering _ _ => true
  | _ => false

/-- 10_state.md R23: while the driver is constructed, and while any operation runs, the pin registers are legal. -/
def PinsInv (s : State) : Prop := s.constructed = true ∨ s.seq ≠ .idle → pinsLegal s = true

/-- 20_memory.md R60 (a): the pin state is what the trace makes of the state after reset. -/
def ReplayInv (s : State) : Prop := s.pins = replay s.trace

/-- 10_state.md R26, 60_exceptions.md R163, R169: what the error flags say of the run so far. -/
def FlagsInv (s : State) : Prop :=
  (∀ r ∈ s.responses, r ≠ errorCode .argument) ∧
  (s.errSeen = true → s.lastErr = errorCode .configuration ∨ s.lastErr = errorCode .hardwareAccess) ∧
  (s.errSeen = false → s.lastErr = 0 ∧ ∀ r ∈ s.responses, r = completedCode) ∧
  (s.errSeen = false → inRecovery s = false → ∀ e ∈ s.trace, isFailure e.event = false)

/-- The invariant of every run: a well-formed configuration (00_scope.md R5) and the three invariants above. -/
def RunInv (s : State) : Prop := cfgOk s.cfg = true ∧ PinsInv s ∧ ReplayInv s ∧ FlagsInv s

/-- The pins that are neither of the engine's two are as they were (20_memory.md R53). -/
def OtherPinsKept (s t : State) : Prop := ∀ n, n ≠ s.clkPin.toNat → n ≠ s.dioPin.toNat → t.pinAt n = s.pinAt n

/-- What no operation changes: the configuration with its segment table, the host's inputs still to come (20_memory.md R51, R63). -/
def ConstantsKept (s t : State) : Prop := t.cfg = s.cfg ∧ t.inbox = s.inbox

/-- The trace has grown by zero or more entries (10_state.md R30). -/
def TraceGrown (s t : State) : Prop := ∃ new, t.trace = s.trace ++ new

/-- The operation ended with one response (30_encoding.md R75) and the sequencer is idle (10_state.md R27). -/
def Responded (s t : State) (c : BitVec 2) : Prop :=
  t.responses = s.responses ++ [c] ∧ t.rspValid = true ∧ t.seq = .idle

/-- The error flags are as they were (10_state.md R26: a successful operation leaves both unchanged). -/
def FlagsKept (s t : State) : Prop := t.errSeen = s.errSeen ∧ t.lastErr = s.lastErr

/-- The error flags say `k` (R26). -/
def Flagged (t : State) (k : ErrorKind) : Prop := t.errSeen = true ∧ t.lastErr = errorCode k

/-- `BRIGHT`, `CLK_PIN`, `DIO_PIN` are as they were. -/
def OperandRegsKept (s t : State) : Prop := t.bright = s.bright ∧ t.clkPin = s.clkPin ∧ t.dioPin = s.dioPin

/-- Nothing outside the engine moved: no event, no pin, no answer used, no acknowledgment sampled. -/
def WorldKept (s t : State) : Prop :=
  t.trace = s.trace ∧ t.pins = s.pins ∧ t.lastAck = s.lastAck ∧ t.answers = s.answers ∧ t.draws = s.draws

/-- A clean end of a run (70_reset_and_hazards.md R193): no error, no operation refused (the run reached `s`), the lines idle, `SEQ = idle`. -/
def cleanEnd (s : State) : Bool := !s.errSeen && linesIdle s && !busy s

/-- The operation is INIT. -/
def isInit (i : Instr) : Bool :=
  match i with
  | .init _ _ => true
  | _ => false

/-- The tests before an operation pass (60_exceptions.md R165): the configuration, `CONSTRUCTED`, and the operands' ranges. -/
def testsPass (i : Instr) (s : State) : Bool := cfgOk s.cfg && s.constructed == !isInit i && operandsValid i

/-- The byte an instruction makes the serializer send, where it sends exactly one: WRB and the four wire bytes (30_encoding.md R78 to R81;
40_transport.md R105). -/
def byteSent (c : Cfg) : Instr → Option Byte
  | .wrb b => some b
  | .wDataCommand => some c.dataCommand
  | .wAddressCommand => some c.addressCommand
  | .wDisplayControl b => some (ctrlByte c b)
  | .wSegmentData p => some p
  | _ => none

/-- Both lines are outputs. -/
def bothOut (s : State) : Bool := (s.lineAt .clk).dirn == some .out && (s.lineAt .dio).dirn == some .out

/-- The state that differs from `s` only in the levels the environment's fixed answers carry, `l` in place of them. -/
def withLevels (s : State) (l : List Bool) : State :=
  { s with answers := s.answers.zipWith (fun a v => ⟨a.fails, v⟩) l }

/-- Kinds of calls, for counting (R108). -/
def isWrite (p : Prim) : Bool :=
  match p with
  | .wr _ _ => true
  | _ => false

/-- A `PinDir`. -/
def isDir (p : Prim) : Bool :=
  match p with
  | .dir _ _ => true
  | _ => false

/-- A `PinRead`. -/
def isRead (p : Prim) : Bool :=
  match p with
  | .rd _ => true
  | _ => false

/-- Whether a sequence of operations keeps to well-formed frames (70_reset_and_hazards.md R195; 40_transport.md R106): where it stands
is `none` outside a frame, `some n` with `n` bytes sent inside one. -/
def framed : Option Nat → List Instr → Bool
  | q, [] => q.isNone
  | none, .start :: is => framed (some 0) is
  | none, .stop :: _ => false
  | none, i :: is => i.isHostOp && (match i with | .wrb _ => false | _ => true) && framed none is
  | some n, .wrb _ :: is => framed (some (n + 1)) is
  | some n, .stop :: is => decide (0 < n) && framed none is
  | some _, _ :: _ => false

/-- The host's inputs after `n` steps of a running operation: a quiet moment passes with each, a presented command waits, and so does
whatever stands behind it (10_state.md R34). -/
def afterSteps : Nat → List HostInput → List HostInput
  | n + 1, .quiet :: rest => afterSteps n rest
  | _, l => l

/-- A frame of raw transport operations: `START ; WRB b1 ; … ; WRB bn ; STOP` (R106). -/
def frameOps (bs : List Byte) : List Instr := .start :: bs.map .wrb ++ [.stop]

/-- The events of a frame. -/
def frameEvents (bs : List Byte) : List Prim := startEvents ++ bs.flatMap wrbEvents ++ stopEvents

end Sys2Proof.Machine
end

