-- ==== Sys2Proof/Certificates/Slice0/Obligations.lean ====
section
/-! DEFINITION. The statements for the provers, each about the machine and not about a program. A docstring names the rule of spec/ its
statement formalises; where a statement rests on a choice of the model's own it names the log entry. -/

open Sys2Proof Sys2Proof.Machine

/-! ### Encodings -/

/-- 30_encoding.md R73, R78 to R81, R85: sample words, written out from the encodings, decode to the instructions they stand for. -/
def Obligations.SampleWordsDecode : Prop :=
  decode Cfg.default (.cmd 0b000000010001011100011000#24) = .ok (.init 24 23) ∧
  decode Cfg.default (.cmd 0b000000100000000000000010#24) = .ok (.setb 2) ∧
  decode Cfg.default (.cmd 0b000000110000000011111111#24) = .ok (.setl (-1)) ∧
  decode Cfg.default (.cmd 0b000001000000000000000000#24) = .ok .release ∧
  decode Cfg.default (.cmd 0b000100000000000000000000#24) = .ok .start ∧
  decode Cfg.default (.cmd 0b000100010000000000000000#24) = .ok .stop ∧
  decode Cfg.default (.cmd 0b000100100000000010001010#24) = .ok (.wrb 0x8A) ∧
  decode Cfg.default (.wire .first 0b01000000#8) = .ok .wDataCommand ∧
  decode Cfg.default (.wire .first 0b11000000#8) = .ok .wAddressCommand ∧
  decode Cfg.default (.wire .first 0b10001101#8) = .ok (.wDisplayControl 5) ∧
  decode Cfg.default (.wire .later 0b00000111#8) = .ok (.wSegmentData 0x07)

/-- R71 to R73, R78 to R81: decoding the encoding of a well-formed instruction gives it back, every operand at every value its field
admits; the host operations under every configuration, the wire bytes under the default one, whose command bytes differ (R88). -/
def Obligations.DecodeOfEncodeIsTheInstruction : Prop :=
  (∀ (c : Cfg) (i : Instr), i.wellFormed = true → i.isHostOp = true → decode c (encode c i) = .ok i) ∧
  (∀ i : Instr, i.wellFormed = true → decode Cfg.default (encode Cfg.default i) = .ok i)

/-- R71 to R74, R78 to R81: a word or byte that decodes is the encoding of what it decodes to, and that is well-formed, so no two words
mean the same instruction. -/
def Obligations.EncodeOfDecodeIsTheWord : Prop :=
  ∀ (c : Cfg) (k : Code) (i : Instr), decode c k = .ok i → encode c i = k ∧ i.wellFormed = true

/-- R74: a command word is invalid exactly when its `OP` is not in the opcode map or a "must be 0" field is not 0, and the step that finds
one presented refuses it. -/
def Obligations.InvalidWordsAreRefused : Prop :=
  ∀ (c : Cfg) (w : CmdWord),
    ((∃ e, decode c (.cmd w) = .error e) ↔
      (opField w ≠ 0x01 ∧ opField w ≠ 0x02 ∧ opField w ≠ 0x03 ∧ opField w ≠ 0x04 ∧ opField w ≠ 0x10 ∧ opField w ≠ 0x11 ∧
        opField w ≠ 0x12) ∨
      ((opField w = 0x02 ∨ opField w = 0x03 ∨ opField w = 0x12) ∧ bField w ≠ 0) ∨
      ((opField w = 0x04 ∨ opField w = 0x10 ∨ opField w = 0x11) ∧ (bField w ≠ 0 ∨ aField w ≠ 0))) ∧
    ∀ (s : State) (rest : List HostInput) (e : DecodeError), s.cfg = c → s.seq = .idle → s.inbox = .present (.cmd w) :: rest →
      decode c (.cmd w) = .error e → step s = .refused (.invalidWord e)

/-- R88: a later byte of a frame is data whatever its value; a first byte is the command it matches, and with the default configuration
the three are told apart by bits 7:6 (`01`, `11`, `10`). -/
def Obligations.WireBytesAreClassifiedByPosition : Prop :=
  (∀ (c : Cfg) (b : Byte), decode c (.wire .later b) = .ok (.wSegmentData b)) ∧
  (∀ (b : Byte) (i : Instr), decode Cfg.default (.wire .first b) = .ok i →
    (i = .wDataCommand ∧ b = 0x40 ∧ b.extractLsb' 6 2 = 0b01#2) ∨
    (i = .wAddressCommand ∧ b = 0xC0 ∧ b.extractLsb' 6 2 = 0b11#2) ∨
    (i = .wDisplayControl (b.extractLsb' 0 3) ∧ b &&& 0xF8 = 0x88 ∧ b.extractLsb' 6 2 = 0b10#2)) ∧
  (∀ b : Byte, b = 0x40 ∨ b = 0xC0 ∨ b &&& 0xF8 = 0x88 → ∃ i, decode Cfg.default (.wire .first b) = .ok i)

/-! ### Steps -/

/-- 10_state.md R20, R27, R34: what a step of an idle engine does with the operation whose word is presented. Where the operation's meaning
stops, the step stops so; where its operands are invalid, the step is the whole operation, which has no event; any other operation is taken:
`SEQ <- (op, 0)`, nothing performed and nothing answered, INIT's operands in the registers. What the sequencer then comes to is
`SequencerStepsAmountToTheOperation`. -/
def Obligations.StepRunsTheDecodedInstruction : Prop :=
  ∀ (s : State) (c : Code) (rest : List HostInput) (i : Instr),
    s.seq = .idle → s.inbox = .present c :: rest → decode s.cfg c = .ok i →
    (∀ r, exec i (s.setInbox rest) = .refused r → step s = .refused r) ∧
    (∀ f, exec i (s.setInbox rest) = .fault f → step s = .fault f) ∧
    (∀ t, exec i (s.setInbox rest) = .next t → operandsValid i = false → step s = .next t) ∧
    (∀ t, exec i (s.setInbox rest) = .next t → operandsValid i = true →
      ∃ u, step s = .next u ∧ u = accept i (s.setInbox rest) ∧ u.seq = .running i 0 ∧ u.trace = s.trace ∧ u.responses = s.responses ∧
        u.pins = s.pins ∧ u.inbox = rest ∧ (isInit i = false → OperandRegsKept s u))

/-- 70_reset_and_hazards.md R190: with nothing presented and no operation running the engine waits: nothing changes but that the port
`rsp_valid` is low (10_state.md R34) and that a quiet moment of the host has passed (log 2). -/
def Obligations.EngineWaitsForACommand : Prop :=
  ∀ s : State, s.seq = .idle →
    (s.inbox = [] → step s = .next { s with rspValid := false }) ∧
    (∀ rest, s.inbox = .quiet :: rest → step s = .next { s with rspValid := false, inbox := rest })

/-- 70_reset_and_hazards.md R191: what hardware reset leaves, in every configuration. -/
def Obligations.ResetLeavesTheSpecifiedValues : Prop :=
  State.reset = resetUnder Cfg.default ∧
  ∀ c : Cfg,
    (resetUnder c).bright = c.brightDefault ∧ (resetUnder c).constructed = false ∧ (resetUnder c).errSeen = false ∧
    (resetUnder c).lastErr = 0 ∧ (resetUnder c).seq = .idle ∧ busy (resetUnder c) = false ∧ (resetUnder c).trace = [] ∧
    ∀ n, (resetUnder c).pinAt n = PinState.unknown

/-- 70_reset_and_hazards.md R190, R191: hardware reset is taken whatever `SEQ` is, ends the operation in progress without recovery, and
installs the reset values. The host's later inputs, the answers and the configuration stay (log 11). -/
def Obligations.HardwareResetArrivesAtAnyTime : Prop :=
  ∀ (s : State) (rest : List HostInput), s.inbox = .rst :: rest →
    ∃ t, step s = .next t ∧ t.bright = s.cfg.brightDefault ∧ t.constructed = false ∧ t.errSeen = false ∧ t.lastErr = 0 ∧
      t.seq = .idle ∧ t.trace = [] ∧ (∀ n, t.pinAt n = PinState.unknown) ∧ t.rspValid = false ∧
      t.cfg = s.cfg ∧ t.inbox = rest ∧ t.answers = s.answers ∧ t.draws = s.draws

/-- 10_state.md R34: a command presented while an operation runs waits: the sequencer makes its own next step and the command is still
presented after it. -/
def Obligations.CommandWaitsWhileBusy : Prop :=
  ∀ (s : State) (c : Code) (rest : List HostInput), s.seq ≠ .idle → pinsLegal s = true → s.inbox = .present c :: rest →
    cmdReady s = false ∧ step s = .next (seqStep s) ∧ (seqStep s).inbox = s.inbox

/-- 10_state.md R27: at `(op, k)` the next event is element `k` of `Events(op)`; success advances `k` by 1, failure sends the sequencer to
recovery, and neither touches an operand register, `CONSTRUCTED` or an error flag; at `k = |Events(op)|` the operation performs its final
register writes (41_driver.md R121, R122, R127) and no other, responds and `SEQ <- idle`. -/
def Obligations.SequencerPerformsOneEventAStep : Prop :=
  ∀ (s : State) (i : Instr) (k : Nat), s.seq = .running i k → pinsLegal s = true → s.inbox.head? ≠ some .rst →
    (∀ p, (eventsOf s.cfg s.bright i)[k]? = some p →
      ∃ t, step s = .next t ∧ t.trace = s.trace ++ [⟨eventOf p (answerAt s 0), requestPin s p⟩] ∧
        t.responses = s.responses ∧ OperandRegsKept s t ∧ t.constructed = s.constructed ∧ FlagsKept s t ∧
        t.seq = (if isDelay p = false ∧ (answerAt s 0).fails = true then .recovering i 0 else .running i (k + 1))) ∧
    ((eventsOf s.cfg s.bright i).length ≤ k →
      ∃ t, step s = .next t ∧ t.trace = s.trace ∧ t.pins = s.pins ∧ Responded s t completedCode ∧ FlagsKept s t ∧
        t.clkPin = s.clkPin ∧ t.dioPin = s.dioPin ∧ t.lastAck = s.lastAck ∧
        t.bright = (match i with
          | .setb b => brightReg b
          | _ => s.bright) ∧
        t.constructed = (isInit i || s.constructed && !(i == .release)))

/-- 60_exceptions.md R167: in recovery a step attempts the next call of `IDLE_SEQ`, whether it fails or not; after the fourth the flags are
set, RELEASE discards the driver, and the response is 2. -/
def Obligations.RecoveryPerformsOneCallAStep : Prop :=
  ∀ (s : State) (i : Instr) (k : Nat), s.seq = .recovering i k → pinsLegal s = true → s.inbox.head? ≠ some .rst →
    (∀ p, idleSeq[k]? = some p →
      ∃ t, step s = .next t ∧ t.trace = s.trace ++ [⟨eventOf p (answerAt s 0), requestPin s p⟩] ∧
        t.responses = s.responses ∧ FlagsKept s t ∧ t.constructed = s.constructed ∧ t.seq = .recovering i (k + 1)) ∧
    (4 ≤ k →
      ∃ t, step s = .next t ∧ t.trace = s.trace ∧ t.pins = s.pins ∧ Responded s t (errorCode .hardwareAccess) ∧
        Flagged t .hardwareAccess ∧ OperandRegsKept s t ∧ t.constructed = (s.constructed && !(i == .release)))

/-- 10_state.md R20, R27, R34; 40_transport.md R100; log 1: an operation presented to an idle engine is taken and run event by event, and
comes, after finitely many steps, to exactly the state that its meaning gives for the whole operation, unless hardware reset comes first. On
the way the engine is busy and has answered nothing; the host's quiet moments pass and a command it presents waits. -/
def Obligations.SequencerStepsAmountToTheOperation : Prop :=
  ∀ (i : Instr) (s t : State), exec i s = .next t → operandsValid i = true → s.seq = .idle →
    ∃ n, ∀ (c : Code) (rest : List HostInput), decode s.cfg c = .ok i → (∀ k < n, (afterSteps k rest).head? ≠ some .rst) →
      Sys2Proof.core.run (n + 1) (s.setInbox (.present c :: rest)) = .next (t.setInbox (afterSteps n rest)) ∧
      ∀ m < n, ∃ u, Sys2Proof.core.run (m + 1) (s.setInbox (.present c :: rest)) = .next u ∧ cmdReady u = false ∧
        u.responses = s.responses

/-- 10_state.md R27, R28, R34; 70_reset_and_hazards.md R190, R191: `k` steps after an operation is taken, none of its first `k` events
having failed, `SEQ = (op, k)`, `BUSY` is 1 and exactly those events have happened; and hardware reset, arriving there, ends the operation with
no response and no event and installs the values of R191. The model's own in it: that taking is a step of its own, so that position `k` comes
after `k + 1` steps, is log 1; that the host's ports are a list of inputs with quiet moments in it is log 2; that reset keeps the later inputs
is log 11. -/
def Obligations.OperationStandsAtEachEvent : Prop :=
  ∀ (i : Instr) (s t : State) (c : Code) (rest : List HostInput) (k : Nat), exec i s = .next t → operandsValid i = true →
    s.seq = .idle → decode s.cfg c = .ok i → k ≤ (eventsOf s.cfg s.bright i).length →
    NoFailure s (callsIn ((eventsOf s.cfg s.bright i).take k)) →
    ∃ u, Sys2Proof.core.run (k + 1) (s.setInbox (.present c :: (List.replicate k .quiet ++ .rst :: rest))) = .next u ∧
      u.seq = .running i k ∧ (∀ j, (statusWord j u).getLsbD 1 = true) ∧ u.responses = s.responses ∧
      eventsSeen u = eventsSeen s ++ expectedEvents (answerAt s) 0 ((eventsOf s.cfg s.bright i).take k) ∧
      ∃ v, step u = .next v ∧ v.seq = .idle ∧ v.trace = [] ∧ v.constructed = false ∧ v.bright = s.cfg.brightDefault ∧
        v.errSeen = false ∧ v.lastErr = 0 ∧ rspPort v = none ∧ (∀ n, v.pinAt n = PinState.unknown) ∧ v.inbox = rest

/-! ### Which operations run -/

/-- 41_driver.md R132: with `CONSTRUCTED = 0` INIT is admitted and every other operation refused, with `CONSTRUCTED = 1` INIT is refused and
every other admitted. The pin numbers of a constructed driver are legal (R23). That the four wire bytes are gated as the engine's other
operations are is the model's reading, log 3. -/
def Obligations.OperationsAreGatedByConstructed : Prop :=
  ∀ s : State, cfgOk s.cfg = true →
    (s.constructed = false →
      (∀ clk dio, ∃ t, exec (.init clk dio) s = .next t) ∧
      (∀ i, isInit i = false → exec i s = .refused .notConstructed)) ∧
    (s.constructed = true →
      (∀ clk dio, exec (.init clk dio) s = .refused .alreadyConstructed) ∧
      (pinsLegal s = true → ∀ i, isInit i = false → ∃ t, exec i s = .next t))

/-- 00_scope.md R5, 93_implementation_defined.md U12, log 8: the rules give nothing for an ill-formed configuration; every operation is
refused. -/
def Obligations.IllFormedConfigurationIsRefused : Prop :=
  ∀ (i : Instr) (s : State), cfgOk s.cfg = false → exec i s = .refused .illFormedConfiguration

/-- 10_state.md R23, R26; 20_memory.md R60 (a): every step keeps the invariant: legal pin registers, flags that tell the truth of the run, and
pins that are what the trace makes of them. -/
def Obligations.EveryStepKeepsTheInvariant : Prop :=
  ∀ s t : State, RunInv s → step s = .next t → RunInv t

/-- The invariant of `EveryStepKeepsTheInvariant` across a whole operation (10_state.md R34). -/
def Obligations.EveryOperationKeepsTheInvariant : Prop :=
  ∀ (i : Instr) (s t : State), RunInv s → s.seq = .idle → exec i s = .next t → RunInv t

/-- The invariant holds after hardware reset in every well-formed configuration. -/
def Obligations.InvariantHoldsAtReset : Prop :=
  RunInv State.reset ∧ ∀ c : Cfg, cfgOk c = true → RunInv (resetUnder c)

/-- 00_scope.md R11, 41_driver.md R132, 30_encoding.md R74: in a state of a run no step faults, and a step is refused only where the host
presents an invalid word, or an operation that `CONSTRUCTED` does not allow, to an idle engine. -/
def Obligations.RunsStopOnlyAtRefusedCommands : Prop :=
  ∀ s : State, RunInv s →
    (∃ t, step s = .next t) ∨
    (s.seq = .idle ∧ ∃ c rest, s.inbox = .present c :: rest ∧
      ((∃ e, decode s.cfg c = .error e ∧ step s = .refused (.invalidWord e)) ∨
       (∃ i, decode s.cfg c = .ok i ∧ isInit i = false ∧ s.constructed = false ∧ step s = .refused .notConstructed) ∨
       (∃ i, decode s.cfg c = .ok i ∧ isInit i = true ∧ s.constructed = true ∧ step s = .refused .alreadyConstructed)))

/-! ### Flags, responses and errors -/

/-- 10_state.md R26: an operation ends with one response; one that completes leaves both flags, one that raises an error sets `ERR_SEEN` and
gives `LAST_ERR` its code; no step but hardware reset clears `ERR_SEEN`, and hardware reset does. -/
def Obligations.ErrorFlagsFollowTheResponses : Prop :=
  (∀ (i : Instr) (s t : State), exec i s = .next t →
    (Responded s t completedCode ∧ FlagsKept s t) ∨
    (Responded s t (errorCode .configuration) ∧ Flagged t .configuration) ∨
    (Responded s t (errorCode .hardwareAccess) ∧ Flagged t .hardwareAccess)) ∧
  (∀ s t : State, step s = .next t → s.inbox.head? ≠ some .rst → s.errSeen = true → t.errSeen = true) ∧
  (∀ s t : State, step s = .next t → s.inbox.head? = some .rst → t.errSeen = false)

/-- 60_exceptions.md R163: no command word, operand or state makes the engine respond 3, and an invalid command word is refused, not
answered. -/
def Obligations.ArgumentErrorIsNeverAnswered : Prop :=
  (∀ s t : State, (∀ r ∈ s.responses, r ≠ errorCode .argument) → step s = .next t → ∀ r ∈ t.responses, r ≠ errorCode .argument) ∧
  (∀ (s : State) (w : CmdWord) (rest : List HostInput) (e : DecodeError), s.seq = .idle → s.inbox = .present (.cmd w) :: rest →
    decode s.cfg (.cmd w) = .error e → step s = .refused (.invalidWord e))

/-- 60_exceptions.md R161: the causes of ConfigurationError, exhaustively; and where it is raised there is no event. -/
def Obligations.ConfigurationErrorHasTheseCauses : Prop :=
  ∀ (i : Instr) (s t : State), exec i s = .next t →
    (Responded s t (errorCode .configuration) ↔
      (∃ clk dio, i = .init clk dio ∧ (clk < 0 ∨ 27 < clk ∨ dio < 0 ∨ 27 < dio ∨ clk = dio)) ∨
      (∃ b, i = .setb b ∧ (b < 0 ∨ 7 < b)) ∨
      (∃ l, i = .setl l ∧ (l < 0 ∨ 7 < l))) ∧
    (Responded s t (errorCode .configuration) → t.trace = s.trace)

/-- 60_exceptions.md R166: ConfigurationError writes the two flags and the response, whatever the environment would answer (R165); no event, no
pin, no other register. -/
def Obligations.ConfigurationErrorWritesOnlyTheFlags : Prop :=
  ∀ (i : Instr) (s : State), cfgOk s.cfg = true → s.constructed = !isInit i →
    ((∃ clk dio, i = .init clk dio ∧ (clk < 0 ∨ 27 < clk ∨ dio < 0 ∨ 27 < dio ∨ clk = dio)) ∨
      (∃ b, i = .setb b ∧ (b < 0 ∨ 7 < b)) ∨ (∃ l, i = .setl l ∧ (l < 0 ∨ 7 < l))) →
    exec i s = .next { s with
      errSeen := true, lastErr := 1, responses := s.responses ++ [1], rspValid := true, seq := .idle }

/-- 40_transport.md R109, 60_exceptions.md R167: when the call after `pre` fails, the events before it stand, it is recorded as failed, no later
event of the operation is performed, `IDLE_SEQ` is attempted in full, the flags say HardwareAccessError, `CONSTRUCTED` is 0 after INIT and
RELEASE and 1 otherwise, `LAST_ACK` is the sample of the last read before the failure (R179), and the response is 2; if recovery's own
calls succeed the lines are idle. -/
def Obligations.FailedCallEndsTheOperationInRecovery : Prop :=
  ∀ (i : Instr) (s : State) (pre post : List Prim) (p : Prim), testsPass i s = true → pinsLegal (loadOperands i s) = true →
    eventsOf s.cfg s.bright i = pre ++ p :: post → isDelay p = false → NoFailure s (callsIn pre) →
    (answerAt s (callsIn pre)).fails = true →
    ∃ t, exec i s = .next t ∧
      eventsSeen t = eventsSeen s ++ expectedEvents (answerAt s) 0 (pre ++ [p]) ++
        expectedEvents (answerAt s) (callsIn pre + 1) idleSeq ∧
      Flagged t .hardwareAccess ∧ Responded s t (errorCode .hardwareAccess) ∧
      t.constructed = (!isInit i && !(i == .release)) ∧ t.lastAck = ackAfter (answerAt s) 0 pre s.lastAck ∧
      ((∀ k < 4, (answerAt s (callsIn pre + 1 + k)).fails = false) → linesIdle t = true)

/-- 60_exceptions.md R168: a failed `PinDir` or `PinWrite` leaves `DIRN` and `LATCH` unchanged, a failed `PinRead` returns no bit and does
not write `LAST_ACK`; 10_state.md R31: a `PinDir` that succeeds sets the direction, a `PinWrite` the latch whatever the direction, a `PinRead` or a
`Delay()` changes no pin. -/
def Obligations.CallsMovePinsAsTheirEventsSay : Prop :=
  ∀ (s : State) (l : Line), pinsInSpace s = true →
    (∀ p, failsNow p s = true → (perform p s).pins = s.pins ∧ (perform p s).lastAck = s.lastAck) ∧
    (failsNow (.rd l) s = true → (perform (.rd l) s).trace = s.trace ++ [⟨.rdFailed l, some (s.pinOf l)⟩]) ∧
    (∀ d, failsNow (.dir l d) s = false → (perform (.dir l d) s).lineAt l = ⟨some d, (s.lineAt l).latch⟩) ∧
    (∀ v, failsNow (.wr l v) s = false → (perform (.wr l v) s).lineAt l = ⟨(s.lineAt l).dirn, some v⟩) ∧
    (perform (.rd l) s).pins = s.pins ∧ (perform .dly s).pins = s.pins ∧
    (failsNow (.rd l) s = false → (perform (.rd l) s).lastAck = (answerAt s 0).level)

/-- 60_exceptions.md R179: the registers after HardwareAccessError, operation by operation. -/
def Obligations.RegistersAfterHardwareAccessError : Prop :=
  ∀ (i : Instr) (s t : State), exec i s = .next t → Responded s t (errorCode .hardwareAccess) →
    Flagged t .hardwareAccess ∧
    (∀ clk dio, i = .init clk dio →
      t.bright = s.cfg.brightDefault ∧ (t.clkPin.toNat : Int) = clk ∧ (t.dioPin.toNat : Int) = dio ∧ t.constructed = false ∧
      t.lastAck = s.lastAck) ∧
    (isInit i = false → OperandRegsKept s t ∧ t.constructed = !(i == .release)) ∧
    (i = .release ∨ i = .start ∨ i = .stop → t.lastAck = s.lastAck)

/-! ### What an operation leaves alone -/

/-- 10_state.md R22, R23, R24, R25; 20_memory.md R51, R53; 41_driver.md R121 to R127: the frame of every instruction, on every next state:
the configuration with its segment table and the host's inputs never change; the trace only grows; `BRIGHT` changes only by INIT and SETB,
the pin registers only by INIT, `CONSTRUCTED` only by INIT and RELEASE, `LAST_ACK` only by SETL, WRB and the wire bytes; and no pin changes but
the two that the pin registers name. -/
def Obligations.OperationsLeaveTheRestAlone : Prop :=
  ∀ (i : Instr) (s t : State), exec i s = .next t →
    ConstantsKept s t ∧ TraceGrown s t ∧
    (∀ n, n ≠ t.clkPin.toNat → n ≠ t.dioPin.toNat → t.pinAt n = s.pinAt n) ∧
    (isInit i = false → (∀ b, i ≠ .setb b) → t.bright = s.bright) ∧
    (isInit i = false → t.clkPin = s.clkPin ∧ t.dioPin = s.dioPin) ∧
    (isInit i = false → i ≠ .release → t.constructed = s.constructed) ∧
    ((∀ l, i ≠ .setl l) → byteSent s.cfg i = none → t.lastAck = s.lastAck)

/-- 20_memory.md R51, R63: no step of any kind writes the segment table or any other constant of the configuration. -/
def Obligations.NoStepWritesTheConfiguration : Prop :=
  ∀ s t : State, step s = .next t → t.cfg = s.cfg

/-- 20_memory.md R53, 10_state.md R31, R37: every event of an operation is on `CLK_PIN` or `DIO_PIN`, by the line it names, a delay on none,
and the clock line is never set to input. -/
def Obligations.EventsAreOnTheTwoPinsOnly : Prop :=
  ∀ (i : Instr) (s t : State), exec i s = .next t →
    ∃ new, t.trace = s.trace ++ new ∧ ∀ e ∈ new,
      (∃ p, e.event = eventOf p ⟨false, false⟩ ∧ e.pin = requestPin t p ∧ p ≠ .dir .clk .in) ∨
      (∃ p, e.event = eventOf p ⟨false, true⟩ ∧ e.pin = requestPin t p ∧ p ≠ .dir .clk .in) ∨
      (∃ p, isDelay p = false ∧ e.event = eventOf p ⟨true, false⟩ ∧ e.pin = requestPin t p ∧ p ≠ .dir .clk .in)

/-- 10_state.md R25: nothing reads `LAST_ACK`: with another value in it an operation does the same in every other respect. -/
def Obligations.NothingReadsLastAck : Prop :=
  ∀ (i : Instr) (s : State) (a : Bool),
    match exec i s with
    | .next t => ∃ b, exec i (s.setAck a) = .next (t.setAck b)
    | .fault f => exec i (s.setAck a) = .fault f
    | .refused r => exec i (s.setAck a) = .refused r

/-- 40_transport.md R105, 60_exceptions.md R170, 41_driver.md R131: the levels the environment answers reads with change nothing but the `rd`
events' own values and `LAST_ACK`: not the other events, not a pin, not a response, not another register. -/
def Obligations.AcknowledgmentLevelsAreIgnored : Prop :=
  ∀ (i : Instr) (s t : State) (l : List Bool), l.length = s.answers.length → exec i s = .next t →
    ∃ u, exec i (withLevels s l) = .next u ∧ (eventsSeen u).map eraseLevel = (eventsSeen t).map eraseLevel ∧
      u.pins = t.pins ∧ u.responses = t.responses ∧ OperandRegsKept t u ∧ u.constructed = t.constructed ∧ FlagsKept t u ∧
      u.answers.length = t.answers.length ∧ u.draws = t.draws

/-! ### INIT, SETB, SETL, RELEASE -/

/-- 41_driver.md R121: INIT on two different pins in 0..27, no call failing. -/
def Obligations.InitConstructsTheDriver : Prop :=
  ∀ (clk dio : Int) (s : State), constructible s = true → 0 ≤ clk → clk ≤ 27 → 0 ≤ dio → dio ≤ 27 → clk ≠ dio → NoFailure s 4 →
    ∃ t, exec (.init clk dio) s = .next t ∧ (t.clkPin.toNat : Int) = clk ∧ (t.dioPin.toNat : Int) = dio ∧
      t.bright = s.cfg.brightDefault ∧ t.constructed = true ∧
      eventsSeen t = eventsSeen s ++ [.dir .clk .out, .dir .dio .out, .wr .clk true, .wr .dio true] ∧
      linesIdle t = true ∧ Responded s t completedCode ∧ FlagsKept s t ∧ t.lastAck = s.lastAck ∧ ConstantsKept s t

/-- 41_driver.md R122: SETB in every case that is admitted: in range it stores the brightness, out of range it raises ConfigurationError and
leaves it; nothing else is touched in either, and there is no event. -/
def Obligations.SetbStoresTheBrightness : Prop :=
  ∀ (b : Int) (s : State), cfgOk s.cfg = true → s.constructed = true →
    (0 ≤ b ∧ b ≤ 7 → ∃ v : BitVec 3, (v.toNat : Int) = b ∧ exec (.setb b) s = .next { s with
      bright := v, responses := s.responses ++ [0], rspValid := true, seq := .idle }) ∧
    (b < 0 ∨ 7 < b → exec (.setb b) s = .next { s with
      errSeen := true, lastErr := 1, responses := s.responses ++ [1], rspValid := true, seq := .idle })

/-- 41_driver.md R123 to R126: SETL in range, no call failing: the three transactions' events, `LAST_ACK` the sample of the control byte (the
137th of the 144 calls the environment answers), nothing else written; with both pins outputs before, the lines idle. -/
def Obligations.SetlPerformsTheThreeTransactions : Prop :=
  ∀ (l : Int) (s : State), operational s = true → 0 ≤ l → l ≤ 7 → NoFailure s 144 →
    ∃ t, exec (.setl l) s = .next t ∧
      eventsSeen t = eventsSeen s ++
        expectedEvents (answerAt s) 0 (txn1Events s.cfg ++ txn2Events s.cfg l.toNat ++ txn3Events s.cfg s.bright) ∧
      t.lastAck = (answerAt s 136).level ∧ (bothOut s = true → linesIdle t = true) ∧ Responded s t completedCode ∧
      FlagsKept s t ∧ OperandRegsKept s t ∧ t.constructed = true ∧ ConstantsKept s t ∧ OtherPinsKept s t

/-- 95_test_vectors.md SP1, 30_encoding.md R76, 41_driver.md R123: what a receiver of the line protocol sees of a SETL is exactly three frames,
`[DATA_COMMAND]`, `[ADDRESS_COMMAND, SEG[level]]`, `[DISPLAY_CONTROL_COMMAND | brightness]`. -/
def Obligations.SetlSendsExactlyThreeFrames : Prop :=
  ∀ (l : Int) (s : State), operational s = true → 0 ≤ l → l ≤ 7 → NoFailure s 144 →
    ∃ t new, exec (.setl l) s = .next t ∧ eventsSeen t = eventsSeen s ++ new ∧
      framesOf new = some [[s.cfg.dataCommand], [s.cfg.addressCommand, segAt s.cfg l.toNat], [s.cfg.displayControl ||| s.bright.setWidth 8]]

/-- 30_encoding.md R86, 95_test_vectors.md P3: SETL is nothing but its three transactions spelled with START, WRB and STOP: the two end in the same
state but for the number of responses. -/
def Obligations.SetlEqualsItsTransactionsSpelledOut : Prop :=
  ∀ (l : Int) (s : State), operational s = true → 0 ≤ l → l ≤ 7 → NoFailure s 144 →
    ∃ t, exec (.setl l) s = .next t ∧
      runInstrs (txn1 s.cfg ++ txn2 s.cfg l.toNat ++ txn3 s.cfg s.bright) s =
        .next { t with responses := s.responses ++ List.replicate 10 completedCode }

/-- 41_driver.md R127: RELEASE makes the lines idle and discards the driver; on a failed call it discards it too. -/
def Obligations.ReleaseDiscardsTheDriver : Prop :=
  ∀ s : State, operational s = true →
    (NoFailure s 4 → ∃ t, exec .release s = .next t ∧ t.constructed = false ∧ linesIdle t = true ∧
      eventsSeen t = eventsSeen s ++ [.dir .clk .out, .dir .dio .out, .wr .clk true, .wr .dio true] ∧
      Responded s t completedCode ∧ FlagsKept s t ∧ OperandRegsKept s t ∧ t.lastAck = s.lastAck ∧ ConstantsKept s t ∧
      OtherPinsKept s t) ∧
    ∃ t, exec .release s = .next t ∧ t.constructed = false

/-- 10_state.md R33: RELEASE followed by INIT leaves `BRIGHT = BRIGHT_DEFAULT` and the new pins; `ERR_SEEN`, `LAST_ERR` and `LAST_ACK`
survive. -/
def Obligations.OnlyFlagsSurviveReleaseAndInit : Prop :=
  ∀ (clk dio : Int) (s : State), operational s = true → 0 ≤ clk → clk ≤ 27 → 0 ≤ dio → dio ≤ 27 → clk ≠ dio → NoFailure s 8 →
    ∃ t, runInstrs [.release, .init clk dio] s = .next t ∧ t.bright = s.cfg.brightDefault ∧ (t.clkPin.toNat : Int) = clk ∧
      (t.dioPin.toNat : Int) = dio ∧ t.constructed = true ∧ FlagsKept s t ∧ t.lastAck = s.lastAck

/-- 20_memory.md R63, 30_encoding.md R86: a SETL sends the brightness of the SETB before it: `UPDATE l, b` sends `CTRL(b)`. -/
def Obligations.SetlSendsTheStoredBrightness : Prop :=
  ∀ (l : Int) (b : BitVec 3) (s : State), operational s = true → 0 ≤ l → l ≤ 7 → NoFailure s 144 →
    ∃ t new, runInstrs (update l b.toNat) s = .next t ∧ t.bright = b ∧ eventsSeen t = eventsSeen s ++ new ∧
      framesOf new = some [[s.cfg.dataCommand], [s.cfg.addressCommand, segAt s.cfg l.toNat], [s.cfg.displayControl ||| b.setWidth 8]]

/-- 41_driver.md R131, 95_test_vectors.md SP6: two SETL of one level with the brightness unchanged send the same events, but for the values the
environment answers the reads with. -/
def Obligations.RepeatedSetlSendsIdenticalEvents : Prop :=
  ∀ (l : Int) (s : State), operational s = true → 0 ≤ l → l ≤ 7 → NoFailure s 288 →
    ∃ t u e₁ e₂, exec (.setl l) s = .next t ∧ exec (.setl l) t = .next u ∧ eventsSeen t = eventsSeen s ++ e₁ ∧
      eventsSeen u = eventsSeen t ++ e₂ ∧ e₁.length = 216 ∧ e₁.map eraseLevel = e₂.map eraseLevel

/-- 41_driver.md R131: the level changes only the eight bit cells of the third byte, the brightness only those of bits 0 to 2 of the fourth. -/
def Obligations.LevelAndBrightnessAreIndependent : Prop :=
  ∀ (c : Cfg) (b b' : BitVec 3) (l l' k : Nat),
    ((∀ j < 8, k ≠ 108 + 5 * j) → (setlEvents c b l)[k]? = (setlEvents c b l')[k]?) ∧
    ((∀ j < 3, k ≠ 164 + 5 * j) → (setlEvents c b l)[k]? = (setlEvents c b' l)[k]?) ∧
    (∀ j < 8, (setlEvents c b l)[108 + 5 * j]? = some (.wr .dio (bitOf (segAt c l) j))) ∧
    (∀ j < 8, (setlEvents c b l)[164 + 5 * j]? = some (.wr .dio (bitOf (ctrlByte c b) j)))

/-- 10_state.md R36: if no primitive fails, the lines are idle after INIT, SETB, SETL, RELEASE and STOP that complete (SETB: if they were before;
SETL and STOP: both pins outputs before); SETB and a SETL that raises ConfigurationError leave the pins exactly as they were. -/
def Obligations.LinesAreIdleBetweenOperations : Prop :=
  ∀ (i : Instr) (s t : State), exec i s = .next t →
    ((isInit i = true ∨ i = .release ∨ ((∃ b, i = .setb b) ∧ linesIdle s = true) ∨
        ((i = .stop ∨ ∃ l, i = .setl l) ∧ bothOut s = true)) →
      pinsLegal t = true → NoFailure s (callsIn (eventsOf s.cfg s.bright i)) → Responded s t completedCode → linesIdle t = true) ∧
    ((∃ b, i = .setb b) ∨ (∃ l, i = .setl l) ∧ Responded s t (errorCode .configuration) → t.pins = s.pins)

/-! ### START, STOP, WRB and the wire bytes -/

/-- 40_transport.md R101: START, no call failing. -/
def Obligations.StartSendsTheStartCondition : Prop :=
  ∀ s : State, operational s = true → NoFailure s 4 →
    ∃ t, exec .start s = .next t ∧
      eventsSeen t = eventsSeen s ++ [.wr .clk true, .wr .dio true, .wr .dio false, .wr .clk false] ∧
      t.lineAt .clk = ⟨(s.lineAt .clk).dirn, some false⟩ ∧ t.lineAt .dio = ⟨(s.lineAt .dio).dirn, some false⟩ ∧
      Responded s t completedCode ∧ FlagsKept s t ∧ OperandRegsKept s t ∧ t.constructed = true ∧ t.lastAck = s.lastAck ∧
      ConstantsKept s t ∧ OtherPinsKept s t

/-- 40_transport.md R102: STOP, no call failing; with both pins outputs the lines are idle after it. -/
def Obligations.StopSendsTheStopCondition : Prop :=
  ∀ s : State, operational s = true → NoFailure s 4 →
    ∃ t, exec .stop s = .next t ∧
      eventsSeen t = eventsSeen s ++ [.wr .clk false, .wr .dio false, .wr .clk true, .wr .dio true] ∧
      t.lineAt .clk = ⟨(s.lineAt .clk).dirn, some true⟩ ∧ t.lineAt .dio = ⟨(s.lineAt .dio).dirn, some true⟩ ∧
      (bothOut s = true → linesIdle t = true) ∧
      Responded s t completedCode ∧ FlagsKept s t ∧ OperandRegsKept s t ∧ t.constructed = true ∧ t.lastAck = s.lastAck ∧
      ConstantsKept s t ∧ OtherPinsKept s t

/-- 40_transport.md R103 to R106: WRB, no call failing: eight bit cells, bit 0 first, the ack slot, `LAST_ACK` the environment's answer at the `rd`
event (the 27th of the 30 calls it answers), whatever that answer is. -/
def Obligations.WrbSendsTheByteAndSamplesTheAck : Prop :=
  ∀ (byte : Byte) (s : State), operational s = true → NoFailure s 30 →
    ∃ t, exec (.wrb byte) s = .next t ∧
      eventsSeen t = eventsSeen s ++ successEvents (answerAt s 26).level
        (bitCell (byte.getLsbD 0) ++ bitCell (byte.getLsbD 1) ++ bitCell (byte.getLsbD 2) ++ bitCell (byte.getLsbD 3) ++
         bitCell (byte.getLsbD 4) ++ bitCell (byte.getLsbD 5) ++ bitCell (byte.getLsbD 6) ++ bitCell (byte.getLsbD 7) ++ ackSlot) ∧
      t.lastAck = (answerAt s 26).level ∧
      t.lineAt .clk = ⟨(s.lineAt .clk).dirn, some false⟩ ∧ t.lineAt .dio = ⟨some .out, some true⟩ ∧
      Responded s t completedCode ∧ FlagsKept s t ∧ OperandRegsKept s t ∧ t.constructed = true ∧ ConstantsKept s t ∧ OtherPinsKept s t

/-- 30_encoding.md R78 to R81, 41_driver.md R124 to R126; log 3: each wire byte of the opcode table, no call failing, is sent as WRB sends that byte. -/
def Obligations.WireBytesAreSentAsTheirBytes : Prop :=
  ∀ s : State, operational s = true → NoFailure s 30 → ∀ (b3 : BitVec 3) (pat : Byte) (i : Instr) (byte : Byte),
    (i = .wDataCommand ∧ byte = s.cfg.dataCommand) ∨ (i = .wAddressCommand ∧ byte = s.cfg.addressCommand) ∨
    (i = .wDisplayControl b3 ∧ byte = s.cfg.displayControl ||| b3.setWidth 8) ∨ (i = .wSegmentData pat ∧ byte = pat) →
    ∃ t, exec i s = .next t ∧ exec (.wrb byte) s = .next t ∧
      eventsSeen t = eventsSeen s ++ successEvents (answerAt s 26).level (wrbEvents byte) ∧
      t.lastAck = (answerAt s 26).level ∧ Responded s t completedCode ∧ FlagsKept s t ∧ OperandRegsKept s t ∧
      t.constructed = true ∧ ConstantsKept s t ∧ OtherPinsKept s t

/-- 40_transport.md R107: what a receiver sees of START, any bytes, STOP is one frame of exactly those bytes. -/
def Obligations.FramesCarryTheirBytes : Prop :=
  ∀ (bs : List Byte) (ack : Bool), framesOf (successEvents ack (frameEvents bs)) = some [bs]

/-- 40_transport.md R106, R107; 70_reset_and_hazards.md R195: a well-formed frame issued with the raw operations, no call failing and both
pins outputs: a receiver sees exactly one frame of its bytes, each operation responds 0, the lines are idle after it. -/
def Obligations.RawFramesAreSentWhole : Prop :=
  ∀ (bs : List Byte) (s : State), operational s = true → bothOut s = true → NoFailure s (8 + 30 * bs.length) →
    ∃ t new, runInstrs (frameOps bs) s = .next t ∧ eventsSeen t = eventsSeen s ++ new ∧ framesOf new = some [bs] ∧
      linesIdle t = true ∧ FlagsKept s t ∧ OperandRegsKept s t ∧
      t.responses = s.responses ++ List.replicate (bs.length + 2) completedCode

/-- 70_reset_and_hazards.md R193; 30_encoding.md R86: `RUN c, d, b, l` with legal operands, from any state that admits INIT with no error
seen, no call failing, ends clean and with the driver discarded, has answered 0 four times, and has sent the three frames of its level
and brightness. -/
def Obligations.ProcessRunEndsClean : Prop :=
  ∀ (c d : Int) (b : BitVec 3) (l : Int) (s : State), constructible s = true → s.errSeen = false → 0 ≤ c → c ≤ 27 → 0 ≤ d → d ≤ 27 →
    c ≠ d → 0 ≤ l → l ≤ 7 → NoFailure s 152 →
    ∃ t new, runInstrs (runProcess c d b.toNat l) s = .next t ∧ cleanEnd t = true ∧ t.constructed = false ∧
      t.responses = s.responses ++ List.replicate 4 completedCode ∧ eventsSeen t = eventsSeen s ++ new ∧
      framesOf new = some [[s.cfg.dataCommand], [s.cfg.addressCommand, segAt s.cfg l.toNat], [s.cfg.displayControl ||| b.setWidth 8]]

/-- 20_memory.md R54: bit cell `i` of a byte carries bit `i`, bit 0 first. -/
def Obligations.BitsGoOutLeastSignificantFirst : Prop :=
  ∀ (b : Byte) (i : Nat), i < 8 → (wrbEvents b)[5 * i]? = some (.wr .dio (b.getLsbD i)) ∧ ((wrbEvents b).take (5 * i)).countP isRead = 0

/-- 40_transport.md R104, 20_memory.md R57, R60 (b): the one read of a byte is made while the engine drives the data line not at all. -/
def Obligations.AckIsReadFromTheReleasedLine : Prop :=
  ∀ (b : Byte) (s : State), pinsLegal s = true → NoFailure s 26 →
    (wrbEvents b)[43]? = some (.rd .dio) ∧ (wrbEvents b).countP isRead = 1 ∧
    driven (performAll ((wrbEvents b).take 43) s) .dio = .z ∧ driven (performAll ((wrbEvents b).take 43) s) .clk =
      (match (s.lineAt .clk).dirn with
       | some .out => .level true
       | some .in => .z
       | none => .unknown)

/-- 40_transport.md R108, 41_driver.md R122, R127 to R129, 70_reset_and_hazards.md R204: how many events of each kind each of the seven operations
performs, and a whole frame. -/
def Obligations.EventCounts : Prop :=
  (∀ (c : Cfg) (b : BitVec 3) (i : Instr), isInit i = true ∨ i = .release →
    (eventsOf c b i).length = 4 ∧ (eventsOf c b i).countP isDir = 2 ∧ (eventsOf c b i).countP isWrite = 2 ∧
    (eventsOf c b i).countP isRead = 0 ∧ (eventsOf c b i).countP isDelay = 0) ∧
  (∀ (c : Cfg) (b : BitVec 3) (x : Int), eventsOf c b (.setb x) = []) ∧
  (∀ (c : Cfg) (b : BitVec 3), (eventsOf c b .start).length = 4 ∧ (eventsOf c b .start).countP isWrite = 4 ∧
    (eventsOf c b .stop).length = 4 ∧ (eventsOf c b .stop).countP isWrite = 4) ∧
  (∀ (c : Cfg) (b : BitVec 3) (byte : Byte), eventsOf c b (.wrb byte) = wrbEvents byte) ∧
  (∀ byte : Byte, (wrbEvents byte).length = 48 ∧ (wrbEvents byte).countP isWrite = 27 ∧ (wrbEvents byte).countP isDir = 2 ∧
    (wrbEvents byte).countP isRead = 1 ∧ (wrbEvents byte).countP isDelay = 18) ∧
  (∀ bs : List Byte, (frameEvents bs).length = 8 + 48 * bs.length ∧ (frameEvents bs).countP isDelay = 18 * bs.length) ∧
  (∀ (c : Cfg) (b : BitVec 3) (l : Int), (eventsOf c b (.setl l)).length = 216 ∧ (eventsOf c b (.setl l)).countP isWrite = 132 ∧
    (eventsOf c b (.setl l)).countP isDir = 8 ∧ (eventsOf c b (.setl l)).countP isRead = 4 ∧
    (eventsOf c b (.setl l)).countP isDelay = 72)

/-! ### Ports -/

/-- 10_state.md R37, 30_encoding.md R83: the GpioPort request while an operation is at `(op, k)` is the encoding of element `k` of `Events(op)`, in
recovery that of element `k` of `IDLE_SEQ`; with no call left, or no operation, there is no request. -/
def Obligations.GpioPortRequestsTheNextCall : Prop :=
  ∀ (s : State) (call : Option Prim),
    ((s.seq = .idle ∧ call = none) ∨ (∃ i k, s.seq = .running i k ∧ call = (eventsOf s.cfg s.bright i)[k]?) ∨
      (∃ i k, s.seq = .recovering i k ∧ call = idleSeq[k]?)) →
    (call = none → gpioPort s = none) ∧
    (∀ l d, call = some (.dir l d) → gpioPort s = some ⟨0, some (s.pinOf l), some (d == .out)⟩) ∧
    (∀ l v, call = some (.wr l v) → gpioPort s = some ⟨1, some (s.pinOf l), some v⟩) ∧
    (∀ l, call = some (.rd l) → gpioPort s = some ⟨2, some (s.pinOf l), none⟩) ∧
    (call = some .dly → gpioPort s = some ⟨3, none, none⟩)

/-- 10_state.md R34, 30_encoding.md R75: right after an operation, and right after the step that ends one, the response port carries its code
and `cmd_ready` is 1; after a step that ends no operation `rsp_valid` is 0. -/
def Obligations.ResponsePortPulses : Prop :=
  (∀ (i : Instr) (s t : State), exec i s = .next t →
    ∃ c, t.responses = s.responses ++ [c] ∧ rspPort t = some c ∧ cmdReady t = true) ∧
  (∀ s t : State, step s = .next t →
    (t.responses.length ≤ s.responses.length → rspPort t = none) ∧
    (s.responses.length < t.responses.length → ∃ c, t.responses = s.responses ++ [c] ∧ rspPort t = some c ∧ cmdReady t = true))

/-! ### Status words, table, control byte -/

/-- 10_state.md R28: the fields of STATUS and CONFIG; a field that is unspecified before its first write is stated from then on only. -/
def Obligations.StatusWordsShowTheRegisters : Prop :=
  ∀ (k : Nat) (s : State),
    (statusWord k s).getLsbD 0 = s.constructed ∧ (statusWord k s).getLsbD 1 = busy s ∧
    (ackWritten s = true → (statusWord k s).getLsbD 2 = s.lastAck) ∧ (statusWord k s).getLsbD 3 = s.errSeen ∧
    (statusWord k s).extractLsb' 4 2 = s.lastErr ∧ (statusWord k s).extractLsb' 6 2 = 0 ∧
    (configWord k s).extractLsb' 0 3 = s.bright ∧
    (s.constructed = true → (configWord k s).extractLsb' 3 5 = s.clkPin ∧ (configWord k s).extractLsb' 8 5 = s.dioPin) ∧
    (configWord k s).extractLsb' 13 3 = 0

/-- 20_memory.md R51: in a well-formed configuration `popcount(SEG[l]) ≥ l`, `SEG[7]` is the OR of all eight entries and has 7 or 8 bits set; the
default configuration is well-formed. -/
def Obligations.SegmentTableGrows : Prop :=
  cfgOk Cfg.default = true ∧
  ∀ c : Cfg, cfgOk c = true →
    segAt c 0 = 0 ∧ (∀ l ≤ 7, l ≤ popcount (segAt c l)) ∧ (∀ l l', l ≤ l' → l' ≤ 7 → segAt c l &&& segAt c l' = segAt c l) ∧
    (List.range 8).foldl (fun v l => v ||| segAt c l) 0 = segAt c 7 ∧ (popcount (segAt c 7) = 7 ∨ popcount (segAt c 7) = 8)

/-- 30_encoding.md R80, 00_scope.md R10: the control byte carries the brightness in bits 2:0 and the fixed pattern in bits 7:3, and the OR equals
the sum. -/
def Obligations.ControlByteCarriesTheBrightness : Prop :=
  ∀ (c : Cfg) (b : BitVec 3), cfgOk c = true →
    (ctrlByte c b).extractLsb' 0 3 = b ∧ (ctrlByte c b).extractLsb' 3 5 = c.displayControl.extractLsb' 3 5 ∧
    ctrlByte c b = c.displayControl + b.setWidth 8

/-! ### LevelSource -/

/-- 42_level_source.md R152: the eight buckets of LVLP on `[0,100]`. -/
def Obligations.LevelBucketsAreOfEqualWidth : Prop :=
  ∀ p : ℚ, 0 ≤ p → p ≤ 100 →
    (∀ k : Nat, k ≤ 6 → (lvlp p = k ↔ 25 / 2 * (k : ℚ) ≤ p ∧ p < 25 / 2 * (k + 1))) ∧ (lvlp p = 7 ↔ 175 / 2 ≤ p)

/-- 42_level_source.md R153: the integer form of LVLP for `p = n / d`. -/
def Obligations.LevelHasAnIntegerForm : Prop :=
  ∀ n d : Nat, 0 < d → lvlp ((n : ℚ) / (d : ℚ)) = (lvlpRatio n d : Int)
end

