-- ==== Sys2Proof/Laws/State.lean ====
section
/-! SUPPORT. One lemma per field per named update of the state, true by `rfl`, so that no later proof unfolds a record update. -/

namespace Sys2Proof.Machine

variable (s : State)

/-! ### `State.setAck`: `LAST_ACK <- a` -/

@[simp] theorem setAck_cfg (a : Bool) : (s.setAck a).cfg = s.cfg := rfl
@[simp] theorem setAck_bright (a : Bool) : (s.setAck a).bright = s.bright := rfl
@[simp] theorem setAck_clkPin (a : Bool) : (s.setAck a).clkPin = s.clkPin := rfl
@[simp] theorem setAck_dioPin (a : Bool) : (s.setAck a).dioPin = s.dioPin := rfl
@[simp] theorem setAck_constructed (a : Bool) : (s.setAck a).constructed = s.constructed := rfl
@[simp] theorem setAck_lastAck (a : Bool) : (s.setAck a).lastAck = a := rfl
@[simp] theorem setAck_errSeen (a : Bool) : (s.setAck a).errSeen = s.errSeen := rfl
@[simp] theorem setAck_lastErr (a : Bool) : (s.setAck a).lastErr = s.lastErr := rfl
@[simp] theorem setAck_seq (a : Bool) : (s.setAck a).seq = s.seq := rfl
@[simp] theorem setAck_trace (a : Bool) : (s.setAck a).trace = s.trace := rfl
@[simp] theorem setAck_pins (a : Bool) : (s.setAck a).pins = s.pins := rfl
@[simp] theorem setAck_responses (a : Bool) : (s.setAck a).responses = s.responses := rfl
@[simp] theorem setAck_rspValid (a : Bool) : (s.setAck a).rspValid = s.rspValid := rfl
@[simp] theorem setAck_inbox (a : Bool) : (s.setAck a).inbox = s.inbox := rfl
@[simp] theorem setAck_answers (a : Bool) : (s.setAck a).answers = s.answers := rfl
@[simp] theorem setAck_draws (a : Bool) : (s.setAck a).draws = s.draws := rfl

/-! ### `State.flagError`: the error flags -/

@[simp] theorem flagError_cfg (k : ErrorKind) : (s.flagError k).cfg = s.cfg := rfl
@[simp] theorem flagError_bright (k : ErrorKind) : (s.flagError k).bright = s.bright := rfl
@[simp] theorem flagError_clkPin (k : ErrorKind) : (s.flagError k).clkPin = s.clkPin := rfl
@[simp] theorem flagError_dioPin (k : ErrorKind) : (s.flagError k).dioPin = s.dioPin := rfl
@[simp] theorem flagError_constructed (k : ErrorKind) : (s.flagError k).constructed = s.constructed := rfl
@[simp] theorem flagError_lastAck (k : ErrorKind) : (s.flagError k).lastAck = s.lastAck := rfl
@[simp] theorem flagError_errSeen (k : ErrorKind) : (s.flagError k).errSeen = true := rfl
@[simp] theorem flagError_lastErr (k : ErrorKind) : (s.flagError k).lastErr = errorCode k := rfl
@[simp] theorem flagError_seq (k : ErrorKind) : (s.flagError k).seq = s.seq := rfl
@[simp] theorem flagError_trace (k : ErrorKind) : (s.flagError k).trace = s.trace := rfl
@[simp] theorem flagError_pins (k : ErrorKind) : (s.flagError k).pins = s.pins := rfl
@[simp] theorem flagError_responses (k : ErrorKind) : (s.flagError k).responses = s.responses := rfl
@[simp] theorem flagError_rspValid (k : ErrorKind) : (s.flagError k).rspValid = s.rspValid := rfl
@[simp] theorem flagError_inbox (k : ErrorKind) : (s.flagError k).inbox = s.inbox := rfl
@[simp] theorem flagError_answers (k : ErrorKind) : (s.flagError k).answers = s.answers := rfl
@[simp] theorem flagError_draws (k : ErrorKind) : (s.flagError k).draws = s.draws := rfl

/-! ### `State.setBright`: `BRIGHT <- b` -/

@[simp] theorem setBright_cfg (b : BitVec 3) : (s.setBright b).cfg = s.cfg := rfl
@[simp] theorem setBright_bright (b : BitVec 3) : (s.setBright b).bright = b := rfl
@[simp] theorem setBright_clkPin (b : BitVec 3) : (s.setBright b).clkPin = s.clkPin := rfl
@[simp] theorem setBright_dioPin (b : BitVec 3) : (s.setBright b).dioPin = s.dioPin := rfl
@[simp] theorem setBright_constructed (b : BitVec 3) : (s.setBright b).constructed = s.constructed := rfl
@[simp] theorem setBright_lastAck (b : BitVec 3) : (s.setBright b).lastAck = s.lastAck := rfl
@[simp] theorem setBright_errSeen (b : BitVec 3) : (s.setBright b).errSeen = s.errSeen := rfl
@[simp] theorem setBright_lastErr (b : BitVec 3) : (s.setBright b).lastErr = s.lastErr := rfl
@[simp] theorem setBright_seq (b : BitVec 3) : (s.setBright b).seq = s.seq := rfl
@[simp] theorem setBright_trace (b : BitVec 3) : (s.setBright b).trace = s.trace := rfl
@[simp] theorem setBright_pins (b : BitVec 3) : (s.setBright b).pins = s.pins := rfl
@[simp] theorem setBright_responses (b : BitVec 3) : (s.setBright b).responses = s.responses := rfl
@[simp] theorem setBright_rspValid (b : BitVec 3) : (s.setBright b).rspValid = s.rspValid := rfl
@[simp] theorem setBright_inbox (b : BitVec 3) : (s.setBright b).inbox = s.inbox := rfl
@[simp] theorem setBright_answers (b : BitVec 3) : (s.setBright b).answers = s.answers := rfl
@[simp] theorem setBright_draws (b : BitVec 3) : (s.setBright b).draws = s.draws := rfl

/-! ### `State.setPinRegs`: the pin registers -/

@[simp] theorem setPinRegs_cfg (c d : BitVec 5) : (s.setPinRegs c d).cfg = s.cfg := rfl
@[simp] theorem setPinRegs_bright (c d : BitVec 5) : (s.setPinRegs c d).bright = s.bright := rfl
@[simp] theorem setPinRegs_clkPin (c d : BitVec 5) : (s.setPinRegs c d).clkPin = c := rfl
@[simp] theorem setPinRegs_dioPin (c d : BitVec 5) : (s.setPinRegs c d).dioPin = d := rfl
@[simp] theorem setPinRegs_constructed (c d : BitVec 5) : (s.setPinRegs c d).constructed = s.constructed := rfl
@[simp] theorem setPinRegs_lastAck (c d : BitVec 5) : (s.setPinRegs c d).lastAck = s.lastAck := rfl
@[simp] theorem setPinRegs_errSeen (c d : BitVec 5) : (s.setPinRegs c d).errSeen = s.errSeen := rfl
@[simp] theorem setPinRegs_lastErr (c d : BitVec 5) : (s.setPinRegs c d).lastErr = s.lastErr := rfl
@[simp] theorem setPinRegs_seq (c d : BitVec 5) : (s.setPinRegs c d).seq = s.seq := rfl
@[simp] theorem setPinRegs_trace (c d : BitVec 5) : (s.setPinRegs c d).trace = s.trace := rfl
@[simp] theorem setPinRegs_pins (c d : BitVec 5) : (s.setPinRegs c d).pins = s.pins := rfl
@[simp] theorem setPinRegs_responses (c d : BitVec 5) : (s.setPinRegs c d).responses = s.responses := rfl
@[simp] theorem setPinRegs_rspValid (c d : BitVec 5) : (s.setPinRegs c d).rspValid = s.rspValid := rfl
@[simp] theorem setPinRegs_inbox (c d : BitVec 5) : (s.setPinRegs c d).inbox = s.inbox := rfl
@[simp] theorem setPinRegs_answers (c d : BitVec 5) : (s.setPinRegs c d).answers = s.answers := rfl
@[simp] theorem setPinRegs_draws (c d : BitVec 5) : (s.setPinRegs c d).draws = s.draws := rfl

/-! ### `State.setConstructed`: `CONSTRUCTED <- v` -/

@[simp] theorem setConstructed_cfg (v : Bool) : (s.setConstructed v).cfg = s.cfg := rfl
@[simp] theorem setConstructed_bright (v : Bool) : (s.setConstructed v).bright = s.bright := rfl
@[simp] theorem setConstructed_clkPin (v : Bool) : (s.setConstructed v).clkPin = s.clkPin := rfl
@[simp] theorem setConstructed_dioPin (v : Bool) : (s.setConstructed v).dioPin = s.dioPin := rfl
@[simp] theorem setConstructed_constructed (v : Bool) : (s.setConstructed v).constructed = v := rfl
@[simp] theorem setConstructed_lastAck (v : Bool) : (s.setConstructed v).lastAck = s.lastAck := rfl
@[simp] theorem setConstructed_errSeen (v : Bool) : (s.setConstructed v).errSeen = s.errSeen := rfl
@[simp] theorem setConstructed_lastErr (v : Bool) : (s.setConstructed v).lastErr = s.lastErr := rfl
@[simp] theorem setConstructed_seq (v : Bool) : (s.setConstructed v).seq = s.seq := rfl
@[simp] theorem setConstructed_trace (v : Bool) : (s.setConstructed v).trace = s.trace := rfl
@[simp] theorem setConstructed_pins (v : Bool) : (s.setConstructed v).pins = s.pins := rfl
@[simp] theorem setConstructed_responses (v : Bool) : (s.setConstructed v).responses = s.responses := rfl
@[simp] theorem setConstructed_rspValid (v : Bool) : (s.setConstructed v).rspValid = s.rspValid := rfl
@[simp] theorem setConstructed_inbox (v : Bool) : (s.setConstructed v).inbox = s.inbox := rfl
@[simp] theorem setConstructed_answers (v : Bool) : (s.setConstructed v).answers = s.answers := rfl
@[simp] theorem setConstructed_draws (v : Bool) : (s.setConstructed v).draws = s.draws := rfl

/-! ### `State.goto`: `SEQ <- q` -/

@[simp] theorem goto_cfg (q : Seq) : (s.goto q).cfg = s.cfg := rfl
@[simp] theorem goto_bright (q : Seq) : (s.goto q).bright = s.bright := rfl
@[simp] theorem goto_clkPin (q : Seq) : (s.goto q).clkPin = s.clkPin := rfl
@[simp] theorem goto_dioPin (q : Seq) : (s.goto q).dioPin = s.dioPin := rfl
@[simp] theorem goto_constructed (q : Seq) : (s.goto q).constructed = s.constructed := rfl
@[simp] theorem goto_lastAck (q : Seq) : (s.goto q).lastAck = s.lastAck := rfl
@[simp] theorem goto_errSeen (q : Seq) : (s.goto q).errSeen = s.errSeen := rfl
@[simp] theorem goto_lastErr (q : Seq) : (s.goto q).lastErr = s.lastErr := rfl
@[simp] theorem goto_seq (q : Seq) : (s.goto q).seq = q := rfl
@[simp] theorem goto_trace (q : Seq) : (s.goto q).trace = s.trace := rfl
@[simp] theorem goto_pins (q : Seq) : (s.goto q).pins = s.pins := rfl
@[simp] theorem goto_responses (q : Seq) : (s.goto q).responses = s.responses := rfl
@[simp] theorem goto_rspValid (q : Seq) : (s.goto q).rspValid = false := rfl
@[simp] theorem goto_inbox (q : Seq) : (s.goto q).inbox = s.inbox := rfl
@[simp] theorem goto_answers (q : Seq) : (s.goto q).answers = s.answers := rfl
@[simp] theorem goto_draws (q : Seq) : (s.goto q).draws = s.draws := rfl

/-! ### `State.setInbox`: the host's inputs -/

@[simp] theorem setInbox_cfg (l : List HostInput) : (s.setInbox l).cfg = s.cfg := rfl
@[simp] theorem setInbox_bright (l : List HostInput) : (s.setInbox l).bright = s.bright := rfl
@[simp] theorem setInbox_clkPin (l : List HostInput) : (s.setInbox l).clkPin = s.clkPin := rfl
@[simp] theorem setInbox_dioPin (l : List HostInput) : (s.setInbox l).dioPin = s.dioPin := rfl
@[simp] theorem setInbox_constructed (l : List HostInput) : (s.setInbox l).constructed = s.constructed := rfl
@[simp] theorem setInbox_lastAck (l : List HostInput) : (s.setInbox l).lastAck = s.lastAck := rfl
@[simp] theorem setInbox_errSeen (l : List HostInput) : (s.setInbox l).errSeen = s.errSeen := rfl
@[simp] theorem setInbox_lastErr (l : List HostInput) : (s.setInbox l).lastErr = s.lastErr := rfl
@[simp] theorem setInbox_seq (l : List HostInput) : (s.setInbox l).seq = s.seq := rfl
@[simp] theorem setInbox_trace (l : List HostInput) : (s.setInbox l).trace = s.trace := rfl
@[simp] theorem setInbox_pins (l : List HostInput) : (s.setInbox l).pins = s.pins := rfl
@[simp] theorem setInbox_responses (l : List HostInput) : (s.setInbox l).responses = s.responses := rfl
@[simp] theorem setInbox_rspValid (l : List HostInput) : (s.setInbox l).rspValid = s.rspValid := rfl
@[simp] theorem setInbox_inbox (l : List HostInput) : (s.setInbox l).inbox = l := rfl
@[simp] theorem setInbox_answers (l : List HostInput) : (s.setInbox l).answers = s.answers := rfl
@[simp] theorem setInbox_draws (l : List HostInput) : (s.setInbox l).draws = s.draws := rfl

/-! ### `State.record`: an entry of the trace -/

@[simp] theorem record_cfg (e : Entry) : (s.record e).cfg = s.cfg := rfl
@[simp] theorem record_bright (e : Entry) : (s.record e).bright = s.bright := rfl
@[simp] theorem record_clkPin (e : Entry) : (s.record e).clkPin = s.clkPin := rfl
@[simp] theorem record_dioPin (e : Entry) : (s.record e).dioPin = s.dioPin := rfl
@[simp] theorem record_constructed (e : Entry) : (s.record e).constructed = s.constructed := rfl
@[simp] theorem record_lastAck (e : Entry) : (s.record e).lastAck = s.lastAck := rfl
@[simp] theorem record_errSeen (e : Entry) : (s.record e).errSeen = s.errSeen := rfl
@[simp] theorem record_lastErr (e : Entry) : (s.record e).lastErr = s.lastErr := rfl
@[simp] theorem record_seq (e : Entry) : (s.record e).seq = s.seq := rfl
@[simp] theorem record_trace (e : Entry) : (s.record e).trace = s.trace ++ [e] := rfl
@[simp] theorem record_pins (e : Entry) : (s.record e).pins = s.pins := rfl
@[simp] theorem record_responses (e : Entry) : (s.record e).responses = s.responses := rfl
@[simp] theorem record_rspValid (e : Entry) : (s.record e).rspValid = s.rspValid := rfl
@[simp] theorem record_inbox (e : Entry) : (s.record e).inbox = s.inbox := rfl
@[simp] theorem record_answers (e : Entry) : (s.record e).answers = s.answers := rfl
@[simp] theorem record_draws (e : Entry) : (s.record e).draws = s.draws := rfl

/-! ### `State.respond`: the response -/

@[simp] theorem respond_cfg (c : BitVec 2) : (s.respond c).cfg = s.cfg := rfl
@[simp] theorem respond_bright (c : BitVec 2) : (s.respond c).bright = s.bright := rfl
@[simp] theorem respond_clkPin (c : BitVec 2) : (s.respond c).clkPin = s.clkPin := rfl
@[simp] theorem respond_dioPin (c : BitVec 2) : (s.respond c).dioPin = s.dioPin := rfl
@[simp] theorem respond_constructed (c : BitVec 2) : (s.respond c).constructed = s.constructed := rfl
@[simp] theorem respond_lastAck (c : BitVec 2) : (s.respond c).lastAck = s.lastAck := rfl
@[simp] theorem respond_errSeen (c : BitVec 2) : (s.respond c).errSeen = s.errSeen := rfl
@[simp] theorem respond_lastErr (c : BitVec 2) : (s.respond c).lastErr = s.lastErr := rfl
@[simp] theorem respond_seq (c : BitVec 2) : (s.respond c).seq = .idle := rfl
@[simp] theorem respond_trace (c : BitVec 2) : (s.respond c).trace = s.trace := rfl
@[simp] theorem respond_pins (c : BitVec 2) : (s.respond c).pins = s.pins := rfl
@[simp] theorem respond_responses (c : BitVec 2) : (s.respond c).responses = s.responses ++ [c] := rfl
@[simp] theorem respond_rspValid (c : BitVec 2) : (s.respond c).rspValid = true := rfl
@[simp] theorem respond_inbox (c : BitVec 2) : (s.respond c).inbox = s.inbox := rfl
@[simp] theorem respond_answers (c : BitVec 2) : (s.respond c).answers = s.answers := rfl
@[simp] theorem respond_draws (c : BitVec 2) : (s.respond c).draws = s.draws := rfl

/-! ### `State.setPin`: one pin -/

@[simp] theorem setPin_cfg (n : Nat) (q : PinState) : (s.setPin n q).cfg = s.cfg := rfl
@[simp] theorem setPin_bright (n : Nat) (q : PinState) : (s.setPin n q).bright = s.bright := rfl
@[simp] theorem setPin_clkPin (n : Nat) (q : PinState) : (s.setPin n q).clkPin = s.clkPin := rfl
@[simp] theorem setPin_dioPin (n : Nat) (q : PinState) : (s.setPin n q).dioPin = s.dioPin := rfl
@[simp] theorem setPin_constructed (n : Nat) (q : PinState) : (s.setPin n q).constructed = s.constructed := rfl
@[simp] theorem setPin_lastAck (n : Nat) (q : PinState) : (s.setPin n q).lastAck = s.lastAck := rfl
@[simp] theorem setPin_errSeen (n : Nat) (q : PinState) : (s.setPin n q).errSeen = s.errSeen := rfl
@[simp] theorem setPin_lastErr (n : Nat) (q : PinState) : (s.setPin n q).lastErr = s.lastErr := rfl
@[simp] theorem setPin_seq (n : Nat) (q : PinState) : (s.setPin n q).seq = s.seq := rfl
@[simp] theorem setPin_trace (n : Nat) (q : PinState) : (s.setPin n q).trace = s.trace := rfl
@[simp] theorem setPin_pins (n : Nat) (q : PinState) : (s.setPin n q).pins = s.pins.setIfInBounds n q := rfl
@[simp] theorem setPin_responses (n : Nat) (q : PinState) : (s.setPin n q).responses = s.responses := rfl
@[simp] theorem setPin_rspValid (n : Nat) (q : PinState) : (s.setPin n q).rspValid = s.rspValid := rfl
@[simp] theorem setPin_inbox (n : Nat) (q : PinState) : (s.setPin n q).inbox = s.inbox := rfl
@[simp] theorem setPin_answers (n : Nat) (q : PinState) : (s.setPin n q).answers = s.answers := rfl
@[simp] theorem setPin_draws (n : Nat) (q : PinState) : (s.setPin n q).draws = s.draws := rfl

/-! ### `State.setDirn`: a direction -/

@[simp] theorem setDirn_cfg (p : Line) (d : Dir) : (s.setDirn p d).cfg = s.cfg := rfl
@[simp] theorem setDirn_bright (p : Line) (d : Dir) : (s.setDirn p d).bright = s.bright := rfl
@[simp] theorem setDirn_clkPin (p : Line) (d : Dir) : (s.setDirn p d).clkPin = s.clkPin := rfl
@[simp] theorem setDirn_dioPin (p : Line) (d : Dir) : (s.setDirn p d).dioPin = s.dioPin := rfl
@[simp] theorem setDirn_constructed (p : Line) (d : Dir) : (s.setDirn p d).constructed = s.constructed := rfl
@[simp] theorem setDirn_lastAck (p : Line) (d : Dir) : (s.setDirn p d).lastAck = s.lastAck := rfl
@[simp] theorem setDirn_errSeen (p : Line) (d : Dir) : (s.setDirn p d).errSeen = s.errSeen := rfl
@[simp] theorem setDirn_lastErr (p : Line) (d : Dir) : (s.setDirn p d).lastErr = s.lastErr := rfl
@[simp] theorem setDirn_seq (p : Line) (d : Dir) : (s.setDirn p d).seq = s.seq := rfl
@[simp] theorem setDirn_trace (p : Line) (d : Dir) : (s.setDirn p d).trace = s.trace := rfl
@[simp] theorem setDirn_pins (p : Line) (d : Dir) : (s.setDirn p d).pins = s.pins.setIfInBounds (s.pinOf p).toNat ⟨some d, (s.lineAt p).latch⟩ := rfl
@[simp] theorem setDirn_responses (p : Line) (d : Dir) : (s.setDirn p d).responses = s.responses := rfl
@[simp] theorem setDirn_rspValid (p : Line) (d : Dir) : (s.setDirn p d).rspValid = s.rspValid := rfl
@[simp] theorem setDirn_inbox (p : Line) (d : Dir) : (s.setDirn p d).inbox = s.inbox := rfl
@[simp] theorem setDirn_answers (p : Line) (d : Dir) : (s.setDirn p d).answers = s.answers := rfl
@[simp] theorem setDirn_draws (p : Line) (d : Dir) : (s.setDirn p d).draws = s.draws := rfl

/-! ### `State.setLatch`: a latch -/

@[simp] theorem setLatch_cfg (p : Line) (v : Bool) : (s.setLatch p v).cfg = s.cfg := rfl
@[simp] theorem setLatch_bright (p : Line) (v : Bool) : (s.setLatch p v).bright = s.bright := rfl
@[simp] theorem setLatch_clkPin (p : Line) (v : Bool) : (s.setLatch p v).clkPin = s.clkPin := rfl
@[simp] theorem setLatch_dioPin (p : Line) (v : Bool) : (s.setLatch p v).dioPin = s.dioPin := rfl
@[simp] theorem setLatch_constructed (p : Line) (v : Bool) : (s.setLatch p v).constructed = s.constructed := rfl
@[simp] theorem setLatch_lastAck (p : Line) (v : Bool) : (s.setLatch p v).lastAck = s.lastAck := rfl
@[simp] theorem setLatch_errSeen (p : Line) (v : Bool) : (s.setLatch p v).errSeen = s.errSeen := rfl
@[simp] theorem setLatch_lastErr (p : Line) (v : Bool) : (s.setLatch p v).lastErr = s.lastErr := rfl
@[simp] theorem setLatch_seq (p : Line) (v : Bool) : (s.setLatch p v).seq = s.seq := rfl
@[simp] theorem setLatch_trace (p : Line) (v : Bool) : (s.setLatch p v).trace = s.trace := rfl
@[simp] theorem setLatch_pins (p : Line) (v : Bool) : (s.setLatch p v).pins = s.pins.setIfInBounds (s.pinOf p).toNat ⟨(s.lineAt p).dirn, some v⟩ := rfl
@[simp] theorem setLatch_responses (p : Line) (v : Bool) : (s.setLatch p v).responses = s.responses := rfl
@[simp] theorem setLatch_rspValid (p : Line) (v : Bool) : (s.setLatch p v).rspValid = s.rspValid := rfl
@[simp] theorem setLatch_inbox (p : Line) (v : Bool) : (s.setLatch p v).inbox = s.inbox := rfl
@[simp] theorem setLatch_answers (p : Line) (v : Bool) : (s.setLatch p v).answers = s.answers := rfl
@[simp] theorem setLatch_draws (p : Line) (v : Bool) : (s.setLatch p v).draws = s.draws := rfl

/-! ### `State.dropAnswer`: an answer used -/

@[simp] theorem dropAnswer_cfg : s.dropAnswer.cfg = s.cfg := rfl
@[simp] theorem dropAnswer_bright : s.dropAnswer.bright = s.bright := rfl
@[simp] theorem dropAnswer_clkPin : s.dropAnswer.clkPin = s.clkPin := rfl
@[simp] theorem dropAnswer_dioPin : s.dropAnswer.dioPin = s.dioPin := rfl
@[simp] theorem dropAnswer_constructed : s.dropAnswer.constructed = s.constructed := rfl
@[simp] theorem dropAnswer_lastAck : s.dropAnswer.lastAck = s.lastAck := rfl
@[simp] theorem dropAnswer_errSeen : s.dropAnswer.errSeen = s.errSeen := rfl
@[simp] theorem dropAnswer_lastErr : s.dropAnswer.lastErr = s.lastErr := rfl
@[simp] theorem dropAnswer_seq : s.dropAnswer.seq = s.seq := rfl
@[simp] theorem dropAnswer_trace : s.dropAnswer.trace = s.trace := rfl
@[simp] theorem dropAnswer_pins : s.dropAnswer.pins = s.pins := rfl
@[simp] theorem dropAnswer_responses : s.dropAnswer.responses = s.responses := rfl
@[simp] theorem dropAnswer_rspValid : s.dropAnswer.rspValid = s.rspValid := rfl
@[simp] theorem dropAnswer_inbox : s.dropAnswer.inbox = s.inbox := rfl
@[simp] theorem dropAnswer_answers : s.dropAnswer.answers = s.answers.tail := rfl
@[simp] theorem dropAnswer_draws : s.dropAnswer.draws = if s.answers.isEmpty then s.draws + 1 else s.draws := rfl

end Sys2Proof.Machine
end

