-- ==== Sys2Proof/Laws/Ops.lean ====
section
/-! SUPPORT. What each shared operation can do, said once: performing one call, a sequence of calls, recovery, and the end of an
operation. -/

namespace Sys2Proof.Machine

/-! ### Pins under updates -/

@[simp] theorem pinOf_of_regs {s t : State} (hc : t.clkPin = s.clkPin) (hd : t.dioPin = s.dioPin) (p : Line) :
    t.pinOf p = s.pinOf p := by cases p <;> simp [State.pinOf, hc, hd]

theorem pinAt_congr {s t : State} (h : t.pins = s.pins) (n : Nat) : t.pinAt n = s.pinAt n := by
  simp [State.pinAt, h]

/-- Reading the pin just set gives what was set, for a number of the pin space. -/
theorem pinAt_setPin_self (s : State) {n : Nat} (q : PinState) (h : n < pinCount) : (s.setPin n q).pinAt n = q := by
  simp [State.pinAt, h]

/-- Setting one pin leaves every other alone. -/
theorem pinAt_setPin_ne (s : State) {n m : Nat} (q : PinState) (h : n ≠ m) : (s.setPin n q).pinAt m = s.pinAt m := by
  simp [State.pinAt, h]

/-! ### What performing leaves alone -/

/-- The fields that no primitive call touches. -/
structure EngineKept (s t : State) : Prop where
  cfg : t.cfg = s.cfg
  bright : t.bright = s.bright
  clkPin : t.clkPin = s.clkPin
  dioPin : t.dioPin = s.dioPin
  constructed : t.constructed = s.constructed
  errSeen : t.errSeen = s.errSeen
  lastErr : t.lastErr = s.lastErr
  seq : t.seq = s.seq
  responses : t.responses = s.responses
  rspValid : t.rspValid = s.rspValid
  inbox : t.inbox = s.inbox

theorem EngineKept.rfl' (s : State) : EngineKept s s := by constructor <;> rfl

theorem EngineKept.trans {s t u : State} (h : EngineKept s t) (k : EngineKept t u) : EngineKept s u := by
  constructor
  · rw [k.cfg, h.cfg]
  · rw [k.bright, h.bright]
  · rw [k.clkPin, h.clkPin]
  · rw [k.dioPin, h.dioPin]
  · rw [k.constructed, h.constructed]
  · rw [k.errSeen, h.errSeen]
  · rw [k.lastErr, h.lastErr]
  · rw [k.seq, h.seq]
  · rw [k.responses, h.responses]
  · rw [k.rspValid, h.rspValid]
  · rw [k.inbox, h.inbox]

/-- An effect touches the pins and `LAST_ACK` only. -/
theorem effect_engineKept (p : Prim) (a : Answer) (s : State) : EngineKept s (effect p a s) := by
  cases p <;> constructor <;> rfl

theorem effect_trace (p : Prim) (a : Answer) (s : State) : (effect p a s).trace = s.trace := by cases p <;> rfl

theorem effect_answers (p : Prim) (a : Answer) (s : State) : (effect p a s).answers = s.answers := by cases p <;> rfl

theorem effect_draws (p : Prim) (a : Answer) (s : State) : (effect p a s).draws = s.draws := by cases p <;> rfl

/-- One call touches the trace, the pins, `LAST_ACK` and the answers only. -/
theorem perform_engineKept (p : Prim) (s : State) : EngineKept s (perform p s) := by
  have h := effect_engineKept p (nextAnswer s) s
  unfold perform
  split
  · constructor <;> rfl
  · dsimp only
    split
    · constructor <;> rfl
    · exact ⟨h.1, h.2, h.3, h.4, h.5, h.6, h.7, h.8, h.9, h.10, h.11⟩

theorem performAll_nil (s : State) : performAll [] s = s := rfl

theorem performAll_cons (p : Prim) (ps : List Prim) (s : State) :
    performAll (p :: ps) s = performAll ps (perform p s) := rfl

theorem performAll_append (ps qs : List Prim) (s : State) :
    performAll (ps ++ qs) s = performAll qs (performAll ps s) := by simp [performAll]

theorem performAll_engineKept (ps : List Prim) (s : State) : EngineKept s (performAll ps s) := by
  induction ps generalizing s with
  | nil => exact .rfl' s
  | cons p ps ih => exact (perform_engineKept p s).trans (ih _)

theorem recover_engineKept (s : State) : EngineKept s (recover s) := performAll_engineKept idleSeq s

/-- A sequence, performed up to its first failure, is a prefix of it performed in full. -/
theorem runEvents_prefix (ps : List Prim) (s : State) :
    ∃ k, (runEvents ps s).2 = performAll (ps.take k) s := by
  induction ps generalizing s with
  | nil => exact ⟨0, rfl⟩
  | cons p ps ih =>
    unfold runEvents
    split
    · exact ⟨1, rfl⟩
    · obtain ⟨k, hk⟩ := ih (perform p s)
      exact ⟨k + 1, hk⟩

theorem runEvents_engineKept (ps : List Prim) (s : State) : EngineKept s (runEvents ps s).2 := by
  obtain ⟨k, hk⟩ := runEvents_prefix ps s
  exact hk ▸ performAll_engineKept _ s

/-! ### The trace -/

/-- One call appends one entry: its event and the pin number of its request. -/
theorem perform_trace (p : Prim) (s : State) :
    (perform p s).trace = s.trace ++ [⟨eventOf p (nextAnswer s), requestPin s p⟩] := by
  unfold perform
  split
  · next h => cases p <;> simp_all [isDelay, eventOf, requestPin]
  · dsimp only
    split <;> simp [effect_trace]

theorem performAll_traceGrown (ps : List Prim) (s : State) : TraceGrown s (performAll ps s) := by
  induction ps generalizing s with
  | nil => exact ⟨[], by simp [performAll]⟩
  | cons p ps ih =>
    obtain ⟨new, h⟩ := ih (perform p s)
    exact ⟨_, by rw [performAll_cons, h, perform_trace, List.append_assoc]⟩

/-! ### The answers -/

theorem nextAnswer_eq (s : State) : nextAnswer s = answerAt s 0 := by
  unfold nextAnswer answerAt
  cases s.answers <;> simp

/-- Using one answer up shifts the later ones forward. -/
theorem answerAt_of_drop {s t : State} (ha : t.answers = s.answers.tail)
    (hd : t.draws = if s.answers.isEmpty then s.draws + 1 else s.draws) (k : Nat) : answerAt t k = answerAt s (k + 1) := by
  unfold answerAt
  cases h : s.answers with
  | nil =>
    have hd' : t.draws = s.draws + 1 := by rw [hd, h]; rfl
    have hn : s.draws + 1 + k = s.draws + (k + 1) := by omega
    simp [ha, h, hd', hn]
  | cons a as =>
    have hd' : t.draws = s.draws := by rw [hd, h]; rfl
    simp [ha, h, hd']

theorem answerAt_congr {s t : State} (ha : t.answers = s.answers) (hd : t.draws = s.draws) (k : Nat) :
    answerAt t k = answerAt s k := by simp [answerAt, ha, hd]

/-- The answers after one call: one fewer, unless the call is `Delay()`. -/
theorem answerAt_perform (p : Prim) (s : State) (k : Nat) :
    answerAt (perform p s) k = answerAt s (if isDelay p then k else k + 1) := by
  unfold perform
  split
  · exact answerAt_congr rfl rfl k
  · refine answerAt_of_drop ?_ ?_ k <;> dsimp only <;> split <;> simp [effect_answers, effect_draws]

theorem callsIn_cons (p : Prim) (ps : List Prim) :
    callsIn (p :: ps) = callsIn ps + (if isDelay p then 0 else 1) := by
  cases h : isDelay p <;> simp [callsIn, h]

/-- Where no answer is a failure, the first call does not fail and the rest meet the same premise. -/
theorem NoFailure.cons {p : Prim} {ps : List Prim} {s : State} (h : NoFailure s (callsIn (p :: ps))) :
    failsNow p s = false ∧ NoFailure (perform p s) (callsIn ps) := by
  rw [callsIn_cons] at h
  refine ⟨?_, fun k hk => ?_⟩
  · unfold failsNow
    cases hp : isDelay p
    · simpa [nextAnswer_eq] using h 0 (by simp [hp])
    · rfl
  · rw [answerAt_perform]
    cases hp : isDelay p
    · exact h (k + 1) (by simp [hp]; omega)
    · exact h k (by simp [hp]; omega)

/-- With no failure among the answers, the whole sequence is performed. -/
theorem runEvents_of_noFailure {ps : List Prim} {s : State} (h : NoFailure s (callsIn ps)) :
    runEvents ps s = (true, performAll ps s) := by
  induction ps generalizing s with
  | nil => rfl
  | cons p ps ih =>
    obtain ⟨hp, hs⟩ := h.cons
    simp [runEvents, hp, ih hs, performAll_cons]

/-- The events a sequence performed in full appends, by the environment's answers. -/
theorem performAll_events (ps : List Prim) (s : State) :
    eventsSeen (performAll ps s) = eventsSeen s ++ expectedEvents (answerAt s) 0 ps := by
  suffices h : ∀ (ans : Nat → Answer) (j : Nat) (s : State), (∀ k, answerAt s k = ans (j + k)) →
      eventsSeen (performAll ps s) = eventsSeen s ++ expectedEvents ans j ps from
    h (answerAt s) 0 s (by simp)
  induction ps with
  | nil => intro ans j s _; simp [performAll, expectedEvents]
  | cons p ps ih =>
    intro ans j s h
    rw [performAll_cons, ih ans (if isDelay p then j else j + 1)]
    · simp [eventsSeen, perform_trace, expectedEvents, nextAnswer_eq, h]
    · intro k
      rw [answerAt_perform, h]
      cases isDelay p <;> simp; congr 1; omega

/-! ### The pins -/

/-- One call changes the pins as R31 says its entry does. -/
theorem perform_pins (p : Prim) (s : State) :
    (perform p s).pins = replayEntry s.pins ⟨eventOf p (nextAnswer s), requestPin s p⟩ := by
  unfold perform
  cases p <;> simp only [isDelay, eventOf, requestPin]
  case dly => rfl
  all_goals
    cases h : (nextAnswer s).fails <;> rfl

/-- The pins stay what the trace says of them. -/
theorem perform_replay {p : Prim} {s : State} (h : ReplayInv s) : ReplayInv (perform p s) := by
  unfold ReplayInv at *
  rw [perform_pins, perform_trace, replay, List.foldl_append, ← replay, ← h]
  rfl

theorem performAll_replay {ps : List Prim} {s : State} (h : ReplayInv s) : ReplayInv (performAll ps s) := by
  induction ps generalizing s with
  | nil => exact h
  | cons p ps ih => exact ih (perform_replay h)

/-- One call leaves every pin but its own alone. -/
theorem perform_otherPins (p : Prim) (s : State) : OtherPinsKept s (perform p s) := by
  intro n hc hd
  have h := perform_pins p s
  rw [State.pinAt, h]
  cases p with
  | dly => rfl
  | _ l =>
    cases l <;> cases hf : (nextAnswer s).fails <;>
      simp [eventOf, requestPin, hf, replayEntry, State.pinAt, State.pinOf, hc.symm, hd.symm]

theorem OtherPinsKept.trans {s t u : State} (h : OtherPinsKept s t) (k : OtherPinsKept t u)
    (hc : t.clkPin = s.clkPin) (hd : t.dioPin = s.dioPin) : OtherPinsKept s u := by
  intro n h1 h2
  rw [k n (hc ▸ h1) (hd ▸ h2), h n h1 h2]

theorem performAll_otherPins (ps : List Prim) (s : State) : OtherPinsKept s (performAll ps s) := by
  induction ps generalizing s with
  | nil => exact fun _ _ _ => rfl
  | cons p ps ih =>
    exact (perform_otherPins p s).trans (ih _) (perform_engineKept p s).clkPin (perform_engineKept p s).dioPin

end Sys2Proof.Machine
end

