-- ==== Sys2Proof/Laws/Exec.lean ====
section
/-! SUPPORT. What the meaning of an instruction can do, said once: it is refused, it raises ConfigurationError, or it performs its events and
ends. -/

namespace Sys2Proof.Machine

/-! ### The tests before an operation -/

theorem initValid_iff (c d : Int) : initValid c d = true ↔ (0 ≤ c ∧ c ≤ 27) ∧ (0 ≤ d ∧ d ≤ 27) ∧ c ≠ d := by
  simp only [initValid, pinInRange, Bool.and_eq_true, decide_eq_true_eq, bne_iff_ne, ne_eq, and_assoc]
  simp only [pinMin, pinMax]

theorem levelInRange_iff (l : Int) : levelInRange l = true ↔ 0 ≤ l ∧ l ≤ 7 := by
  simp only [levelInRange, Bool.and_eq_true, decide_eq_true_eq]
  simp only [levelMax]

theorem brightInRange_iff (b : Int) : brightInRange b = true ↔ 0 ≤ b ∧ b ≤ 7 := by
  simp only [brightInRange, Bool.and_eq_true, decide_eq_true_eq]
  simp only [brightMax]

/-- A validated pin operand is what the pin register then holds. -/
theorem pinReg_toNat {x : Int} (h0 : 0 ≤ x) (h1 : x ≤ 27) : ((pinReg x).toNat : Int) = x := by
  simp [pinReg, BitVec.toNat_ofInt]; omega

/-- A validated brightness operand is what `BRIGHT` then holds. -/
theorem brightReg_toNat {x : Int} (h0 : 0 ≤ x) (h1 : x ≤ 7) : ((brightReg x).toNat : Int) = x := by
  simp [brightReg, BitVec.toNat_ofInt]; omega

theorem brightReg_ofNat (b : BitVec 3) : brightReg (b.toNat : Int) = b := by
  simp [brightReg]

theorem pinsInSpace_congr {s t : State} (hc : t.clkPin = s.clkPin) (hd : t.dioPin = s.dioPin) :
    pinsInSpace t = pinsInSpace s := by simp [pinsInSpace, hc, hd]

theorem pinsLegal_congr {s t : State} (hc : t.clkPin = s.clkPin) (hd : t.dioPin = s.dioPin) :
    pinsLegal t = pinsLegal s := by simp [pinsLegal, pinsInSpace_congr hc hd, hc, hd]

theorem pinsInSpace_of_legal {s : State} (h : pinsLegal s = true) : pinsInSpace s = true := by
  simp [pinsLegal] at h; exact h.1

/-- INIT's register writes give legal pins when validation has passed (10_state.md R23). -/
theorem loadInit_pinsLegal {c d : Int} (s : State) (h : initValid c d = true) : pinsLegal (loadInit c d s) = true := by
  obtain ⟨⟨hc0, hc1⟩, ⟨hd0, hd1⟩, hne⟩ := (initValid_iff c d).1 h
  have h1 := pinReg_toNat hc0 hc1
  have h2 := pinReg_toNat hd0 hd1
  simp only [pinsLegal, pinsInSpace, Bool.and_eq_true, decide_eq_true_eq, bne_iff_ne, ne_eq]
  simp only [loadInit, setBright_clkPin, setBright_dioPin, setPinRegs_clkPin, setPinRegs_dioPin, pinCount]
  refine ⟨⟨by omega, by omega⟩, fun he => hne ?_⟩
  rw [← h1, ← h2, he]

/-- The operand writes touch the operand registers only. -/
theorem loadOperands_answerAt (i : Instr) (s : State) (k : Nat) : answerAt (loadOperands i s) k = answerAt s k := by
  cases i <;> rfl

theorem loadOperands_events (i : Instr) (s : State) :
    eventsOf (loadOperands i s).cfg (loadOperands i s).bright i = eventsOf s.cfg s.bright i := by
  cases i <;> rfl

theorem loadOperands_eventsSeen (i : Instr) (s : State) : eventsSeen (loadOperands i s) = eventsSeen s := by
  cases i <;> rfl

/-! ### The end of an operation -/

theorem complete_responded (i : Instr) (s : State) : Responded s (complete i s) completedCode := by
  cases i <;> exact ⟨rfl, rfl, rfl⟩

theorem complete_flagsKept (i : Instr) (s : State) : FlagsKept s (complete i s) := by
  cases i <;> exact ⟨rfl, rfl⟩

theorem hardwareAccessError_responded (i : Instr) (s : State) :
    Responded s (hardwareAccessError i s) (errorCode .hardwareAccess) := by
  have h := (recover_engineKept s).responses
  cases i <;> exact ⟨by simp [hardwareAccessError, abandon, discardOnError, h], rfl, rfl⟩

theorem hardwareAccessError_flagged (i : Instr) (s : State) : Flagged (hardwareAccessError i s) .hardwareAccess := by
  cases i <;> exact ⟨rfl, rfl⟩

theorem configurationError_eq (s : State) : configurationError s = { s with
    errSeen := true, lastErr := 1, responses := s.responses ++ [1], rspValid := true, seq := .idle } := rfl

/-! ### Performing an operation -/

/-- With no failure among the answers, an operation performs all its events and completes. -/
theorem runOp_of_noFailure {i : Instr} {s : State} (hp : pinsInSpace s = true)
    (h : NoFailure s (callsIn (eventsOf s.cfg s.bright i))) :
    runOp i s = .next (complete i (performAll (eventsOf s.cfg s.bright i) s)) := by
  simp [runOp, hp, runEvents_of_noFailure h]

/-- What an operation that performs its events can come to. -/
theorem runOp_next {i : Instr} {s t : State} (h : runOp i s = .next t) :
    pinsInSpace s = true ∧ ∃ u, (runEvents (eventsOf s.cfg s.bright i) s).2 = u ∧
      (((runEvents (eventsOf s.cfg s.bright i) s).1 = true ∧ t = complete i u) ∨
       ((runEvents (eventsOf s.cfg s.bright i) s).1 = false ∧ t = hardwareAccessError i u)) := by
  unfold runOp at h
  split at h
  · next hp =>
    refine ⟨hp, _, rfl, ?_⟩
    injection h with h
    subst h
    cases hr : (runEvents (eventsOf s.cfg s.bright i) s).1 <;> simp [hr]
  · cases h

theorem runOp_total {i : Instr} {s : State} (hp : pinsInSpace s = true) : ∃ t, runOp i s = .next t := by
  simp [runOp, hp]

/-- SETB's stored brightness is what running it with no events comes to. -/
theorem runOp_setb {b : Int} {s : State} (hp : pinsInSpace s = true) : runOp (.setb b) s = .next (complete (.setb b) s) := by
  simp [runOp, hp, eventsOf, runEvents]

/-! ### The meaning of an instruction -/

theorem gate_next {needs : Bool} {s t : State} {k : Host.Outcome State Fault Refusal} (h : gate needs s k = .next t) :
    cfgOk s.cfg = true ∧ s.constructed = needs ∧ k = .next t := by
  unfold gate at h
  split at h
  · split at h
    · exact ⟨‹_›, ‹_›, h⟩
    · split at h <;> cases h
  · cases h

theorem gate_of_pass {needs : Bool} {s : State} {k : Host.Outcome State Fault Refusal} (hc : cfgOk s.cfg = true)
    (hn : s.constructed = needs) : gate needs s k = k := by simp [gate, hc, hn]

/-- The operation runs over its events: SETB, which has none, takes its course beside it. -/
def runsEvents (i : Instr) : Bool :=
  match i with
  | .setb _ => false
  | _ => true

/-- An operation whose tests pass performs its events from the state with its operands loaded; SETB stores and completes. -/
theorem exec_of_testsPass {i : Instr} {s : State} (h : testsPass i s = true) :
    exec i s = if runsEvents i then runOp i (loadOperands i s) else .next (complete i (loadOperands i s)) := by
  cases i <;> simp_all [testsPass, operandsValid, isInit, exec, execInit, execSetb, execSetl, execRelease, execStart, execStop, execWrb, execWDataCommand,
    execWAddressCommand, execWDisplayControl, execWSegmentData, transportOp, gate, runsEvents, loadOperands]

/-- What an instruction that has a next state has done: its configuration is well-formed and `CONSTRUCTED` as it needs; and either its
operands are invalid and it raised ConfigurationError, or its tests passed. -/
theorem exec_next {i : Instr} {s t : State} (h : exec i s = .next t) :
    cfgOk s.cfg = true ∧ s.constructed = !isInit i ∧
      ((t = configurationError s ∧
          ((∃ c d, i = .init c d ∧ initValid c d = false) ∨ (∃ b, i = .setb b ∧ brightInRange b = false) ∨
           (∃ l, i = .setl l ∧ levelInRange l = false))) ∨
       (testsPass i s = true ∧
          (if runsEvents i then runOp i (loadOperands i s) else .next (complete i (loadOperands i s))) = .next t)) := by
  cases i
  case init c d =>
    obtain ⟨hc, hn, hk⟩ := gate_next h
    refine ⟨hc, hn, ?_⟩
    cases hv : initValid c d
    · simp [hv] at hk; exact .inl ⟨hk.symm, .inl ⟨c, d, rfl, hv⟩⟩
    · exact .inr ⟨by simp [testsPass, operandsValid, isInit, hc, hn, hv], by simpa [hv, runsEvents, loadOperands] using hk⟩
  case setb b =>
    obtain ⟨hc, hn, hk⟩ := gate_next h
    refine ⟨hc, hn, ?_⟩
    cases hv : brightInRange b
    · simp [hv] at hk; exact .inl ⟨hk.symm, .inr (.inl ⟨b, rfl, hv⟩)⟩
    · exact .inr ⟨by simp [testsPass, operandsValid, isInit, hc, hn, hv], by simpa [hv, runsEvents, loadOperands] using hk⟩
  case setl l =>
    obtain ⟨hc, hn, hk⟩ := gate_next h
    refine ⟨hc, hn, ?_⟩
    cases hv : levelInRange l
    · simp [hv] at hk; exact .inl ⟨hk.symm, .inr (.inr ⟨l, rfl, hv⟩)⟩
    · exact .inr ⟨by simp [testsPass, operandsValid, isInit, hc, hn, hv], by simpa [hv, runsEvents, loadOperands] using hk⟩
  all_goals
    obtain ⟨hc, hn, hk⟩ := gate_next h
    exact ⟨hc, hn, .inr ⟨by simp [testsPass, operandsValid, isInit, hc, hn], hk⟩⟩

/-- The host's inputs are no part of what the sequencer looks at. -/
@[simp] theorem pinsInSpace_setInbox (s : State) (l : List HostInput) : pinsInSpace (s.setInbox l) = pinsInSpace s := rfl

@[simp] theorem pendingPrim_setInbox (s : State) (l : List HostInput) : pendingPrim (s.setInbox l) = pendingPrim s := rfl

/-- What a step that finds an operation presented can be: the operation is over at once, its operands invalid, or it is taken. -/
theorem takeStep_next {i : Instr} {s t : State} (h : takeStep i s = .next t) :
    ∃ u, exec i s = .next u ∧
      ((operandsValid i = true ∧ t = accept i s) ∨ (operandsValid i = false ∧ t = u ∧ u = configurationError s)) := by
  unfold takeStep at h
  split at h
  · next u hu =>
    refine ⟨u, hu, ?_⟩
    injection h with h
    cases hv : operandsValid i
    · obtain ⟨_, _, ⟨hc, _⟩ | ⟨hp, _⟩⟩ := exec_next hu
      · exact .inr ⟨rfl, by simp [hv] at h; exact h.symm, hc⟩
      · simp [testsPass, hv] at hp
    · exact .inl ⟨rfl, by simpa [hv] using h.symm⟩
  · cases h
  · cases h

/-- What a step can be. -/
theorem step_next {s t : State} (h : step s = .next t) :
    (∃ rest, s.inbox = .rst :: rest ∧ t = hardReset (s.setInbox rest)) ∨
    (s.seq ≠ .idle ∧ s.inbox.head? ≠ some .rst ∧ (pinsInSpace s = true ∨ pendingPrim s = none) ∧
      t = seqStep (s.setInbox (afterSteps 1 s.inbox))) ∨
    (s.seq = .idle ∧ s.inbox.head? ≠ some .rst ∧ t = waitStep (s.setInbox (afterSteps 1 s.inbox))) ∨
    (s.seq = .idle ∧ ∃ c rest i, s.inbox = .present c :: rest ∧ decode s.cfg c = .ok i ∧ takeStep i (s.setInbox rest) = .next t) := by
  have busyCase : ∀ l, busyStep (s.setInbox l) = .next t →
      (pinsInSpace s = true ∨ pendingPrim s = none) ∧ t = seqStep (s.setInbox l) := by
    intro l h
    unfold busyStep at h
    split at h
    · next hc => exact ⟨by simpa only [pinsInSpace_setInbox, pendingPrim_setInbox, Bool.or_eq_true, Option.isNone_iff_eq_none] using hc, by injection h with h; exact h.symm⟩
    · cases h
  unfold step at h
  by_cases hs : s.seq = .idle
  · have hb : busy s = false := by simp [busy, hs]
    rcases hi : s.inbox with _ | ⟨a | a | c, rest⟩ <;> simp only [fetch, hi, hb, Bool.false_eq_true, if_false] at h
    · exact .inr (.inr (.inl ⟨hs, by simp, by injection h with h; exact h.symm⟩))
    · exact .inl ⟨rest, rfl, by injection h with h; exact h.symm⟩
    · exact .inr (.inr (.inl ⟨hs, by simp, by injection h with h; exact h.symm⟩))
    · unfold taskOfCode at h
      cases hd : decode s.cfg c with
      | ok i => rw [hd] at h; exact .inr (.inr (.inr ⟨hs, c, rest, i, rfl, hd, h⟩))
      | error e => rw [hd] at h; cases h
  · have hb : busy s = true := by simp [busy, hs]
    rcases hi : s.inbox with _ | ⟨a | a | c, rest⟩ <;> simp only [fetch, hi, hb, if_true] at h
    · exact .inr (.inl ⟨hs, by simp, (busyCase _ h).1, (busyCase _ h).2⟩)
    · exact .inl ⟨rest, rfl, by injection h with h; exact h.symm⟩
    · exact .inr (.inl ⟨hs, by simp, (busyCase _ h).1, (busyCase _ h).2⟩)
    · exact .inr (.inl ⟨hs, by simp, (busyCase _ h).1, (busyCase _ h).2⟩)

end Sys2Proof.Machine
end

