-- ==== Sys2Proof/Laws/Lines.lean ====
section
/-! SUPPORT. What a sequence of calls that do not fail does to the two lines, to `LAST_ACK` and to the answers still to come. -/

namespace Sys2Proof.Machine

/-- What a call that succeeds does to one line (10_state.md R31). -/
def lineEffect (l : Line) (q : PinState) (p : Prim) : PinState :=
  match p with
  | .dir m d => if m = l then ⟨some d, q.latch⟩ else q
  | .wr m v => if m = l then ⟨q.dirn, some v⟩ else q
  | .rd _ => q
  | .dly => q

theorem pinOf_lt {s : State} (h : pinsLegal s = true) (l : Line) : (s.pinOf l).toNat < pinCount := by
  have h := pinsInSpace_of_legal h
  simp only [pinsInSpace, Bool.and_eq_true, decide_eq_true_eq] at h
  cases l
  · exact h.1
  · exact h.2

theorem pinOf_ne {s : State} (h : pinsLegal s = true) {l m : Line} (hlm : l ≠ m) : (s.pinOf l).toNat ≠ (s.pinOf m).toNat := by
  simp only [pinsLegal, Bool.and_eq_true, bne_iff_ne, ne_eq] at h
  intro he
  have he := BitVec.eq_of_toNat_eq he
  cases l <;> cases m <;> first | exact hlm rfl | exact h.2 he | exact h.2 he.symm

theorem pinOf_congr {s t : State} (h : EngineKept s t) (l : Line) : t.pinOf l = s.pinOf l :=
  pinOf_of_regs h.clkPin h.dioPin l

theorem pinsLegal_of_kept {s t : State} (h : EngineKept s t) : pinsLegal t = pinsLegal s :=
  pinsLegal_congr h.clkPin h.dioPin

/-- A call that does not fail has on each line the effect R31 gives it. -/
theorem perform_lineAt {p : Prim} {s : State} (hl : pinsLegal s = true) (hf : failsNow p s = false) (l : Line) :
    (perform p s).lineAt l = lineEffect l (s.lineAt l) p := by
  have hk := pinOf_congr (perform_engineKept p s) l
  unfold State.lineAt
  rw [hk, State.pinAt, perform_pins]
  cases p with
  | dly => rfl
  | rd m => cases h : (nextAnswer s).fails <;> simp [eventOf, h, replayEntry, State.pinAt, lineEffect]
  | dir m d =>
    have hf : (nextAnswer s).fails = false := by simpa [failsNow, isDelay] using hf
    by_cases hm : m = l
    · subst hm; simp [eventOf, hf, requestPin, replayEntry, State.pinAt, lineEffect, pinOf_lt hl]
    · simp [eventOf, hf, requestPin, replayEntry, State.pinAt, lineEffect, pinOf_ne hl hm, hm]
  | wr m v =>
    have hf : (nextAnswer s).fails = false := by simpa [failsNow, isDelay] using hf
    by_cases hm : m = l
    · subst hm; simp [eventOf, hf, requestPin, replayEntry, State.pinAt, lineEffect, pinOf_lt hl]
    · simp [eventOf, hf, requestPin, replayEntry, State.pinAt, lineEffect, pinOf_ne hl hm, hm]

/-- A sequence without failure has on each line the effects of its calls in order (20_memory.md R60). -/
theorem performAll_lineAt {ps : List Prim} {s : State} (hl : pinsLegal s = true) (h : NoFailure s (callsIn ps)) (l : Line) :
    (performAll ps s).lineAt l = ps.foldl (lineEffect l) (s.lineAt l) := by
  induction ps generalizing s with
  | nil => rfl
  | cons p ps ih =>
    obtain ⟨hp, hs⟩ := h.cons
    rw [performAll_cons, ih (by rw [pinsLegal_of_kept (perform_engineKept p s)]; exact hl) hs, perform_lineAt hl hp]
    rfl

/-- A call touches `LAST_ACK` only where it is a read that succeeds. -/
theorem perform_lastAck (p : Prim) (s : State) : (perform p s).lastAck =
    (match p with
     | .rd _ => if (nextAnswer s).fails then s.lastAck else (nextAnswer s).level
     | _ => s.lastAck) := by
  unfold perform
  cases p <;> simp [isDelay] <;> split <;> rfl

theorem performAll_lastAck {ps : List Prim} {s : State} (h : NoFailure s (callsIn ps)) :
    (performAll ps s).lastAck = ackAfter (answerAt s) 0 ps s.lastAck := by
  suffices hg : ∀ (ans : Nat → Answer) (j : Nat) (s : State), (∀ k, answerAt s k = ans (j + k)) → NoFailure s (callsIn ps) →
      (performAll ps s).lastAck = ackAfter ans j ps s.lastAck from hg (answerAt s) 0 s (by simp) h
  clear h
  induction ps with
  | nil => intro ans j s _ _; rfl
  | cons p ps ih =>
    intro ans j s ha h
    obtain ⟨hp, hs⟩ := h.cons
    have hn : nextAnswer s = ans j := by rw [nextAnswer_eq, ha]; rfl
    rw [performAll_cons, ih ans (if isDelay p then j else j + 1) _ _ hs, perform_lastAck]
    · cases p with
      | rd m =>
        have hf : (ans j).fails = false := by simpa [failsNow, isDelay, hn] using hp
        simp [ackAfter, hn, hf, isDelay]
      | _ => rfl
    · intro k
      rw [answerAt_perform, ha]
      cases isDelay p <;> simp; congr 1; omega

/-- The answers still to come after a sequence: those after its calls. -/
theorem performAll_answerAt (ps : List Prim) (s : State) (k : Nat) :
    answerAt (performAll ps s) k = answerAt s (callsIn ps + k) := by
  induction ps generalizing s k with
  | nil => simp [performAll, callsIn]
  | cons p ps ih =>
    rw [performAll_cons, ih, answerAt_perform, callsIn_cons]
    cases isDelay p <;> simp; congr 1; omega

/-- The premise of no failure passes to the rest of a sequence. -/
theorem NoFailure.after {s : State} {m : Nat} (ps : List Prim) (h : NoFailure s (callsIn ps + m)) :
    NoFailure (performAll ps s) m := by
  intro k hk
  rw [performAll_answerAt]
  exact h _ (by omega)

theorem NoFailure.mono {s : State} {m n : Nat} (h : NoFailure s n) (hm : m ≤ n) : NoFailure s m :=
  fun k hk => h k (by omega)

theorem callsIn_append (ps qs : List Prim) : callsIn (ps ++ qs) = callsIn ps + callsIn qs := by simp [callsIn]

/-- A sequence without failure, then another, is one sequence without failure. -/
theorem runEvents_append {ps qs : List Prim} {s : State} (h : NoFailure s (callsIn ps)) :
    runEvents (ps ++ qs) s = runEvents qs (performAll ps s) := by
  induction ps generalizing s with
  | nil => rfl
  | cons p ps ih =>
    obtain ⟨hp, hs⟩ := h.cons
    simp [runEvents, hp, ih hs, performAll_cons]

/-- A sequence that ran to its end had no failed call: every entry it appended is a success. -/
theorem runEvents_true {ps : List Prim} {s : State} (h : (runEvents ps s).1 = true) : NoFailure s (callsIn ps) := by
  induction ps generalizing s with
  | nil => intro k hk; simp [callsIn] at hk
  | cons p ps ih =>
    unfold runEvents at h
    split at h
    · cases h
    · next hf =>
      have hr := ih h
      rw [callsIn_cons]
      cases hd : isDelay p
      · intro k hk
        cases k with
        | zero => simpa [failsNow, hd, nextAnswer_eq] using hf
        | succ k =>
          have := hr k (by simp at hk; omega)
          rwa [answerAt_perform, hd] at this
      · intro k hk
        have := hr k (by simpa [hd] using hk)
        rwa [answerAt_perform, hd] at this

end Sys2Proof.Machine
end

