-- ==== Sys2Proof/Laws/Events.lean ====
section
/-! SUPPORT. The event sequences' small facts: how many calls the environment answers in each, what each does to the two lines, and what
`LAST_ACK` is after each. -/

namespace Sys2Proof.Machine

theorem callsIn_start : callsIn startEvents = 4 := rfl
theorem callsIn_stop : callsIn stopEvents = 4 := rfl
theorem callsIn_idle : callsIn idleSeq = 4 := rfl
theorem callsIn_wrb (b : Byte) : callsIn (wrbEvents b) = 30 := rfl

theorem callsIn_txn1 (c : Cfg) : callsIn (txn1Events c) = 38 := by
  simp [txn1Events, callsIn_append, callsIn_start, callsIn_wrb, callsIn_stop]

theorem callsIn_txn2 (c : Cfg) (l : Nat) : callsIn (txn2Events c l) = 68 := by
  simp [txn2Events, callsIn_append, callsIn_start, callsIn_wrb, callsIn_stop]

theorem callsIn_txn3 (c : Cfg) (b : BitVec 3) : callsIn (txn3Events c b) = 38 := by
  simp [txn3Events, callsIn_append, callsIn_start, callsIn_wrb, callsIn_stop]

theorem callsIn_setl (c : Cfg) (b : BitVec 3) (l : Nat) : callsIn (setlEvents c b l) = 144 := by
  simp [setlEvents, callsIn_append, callsIn_txn1, callsIn_txn2, callsIn_txn3]

/-- `IDLE_SEQ` makes a line idle whatever it was (41_driver.md R129). -/
theorem idleSeq_line (l : Line) (q : PinState) : idleSeq.foldl (lineEffect l) q = PinState.idle := by cases l <;> rfl

theorem start_line (l : Line) (q : PinState) : startEvents.foldl (lineEffect l) q = ⟨q.dirn, some false⟩ := by cases l <;> rfl

theorem stop_line (l : Line) (q : PinState) : stopEvents.foldl (lineEffect l) q = ⟨q.dirn, some true⟩ := by cases l <;> rfl

theorem cell_clk (v : Bool) (q : PinState) : (bitCell v).foldl (lineEffect .clk) q = ⟨q.dirn, some false⟩ := rfl

theorem ack_clk (q : PinState) : ackSlot.foldl (lineEffect .clk) q = ⟨q.dirn, some false⟩ := rfl

/-- Any number of bit cells keeps the clock line's direction. -/
theorem cells_clk (bs : List Bool) (q : PinState) : ((bs.flatMap bitCell).foldl (lineEffect .clk) q).dirn = q.dirn := by
  induction bs generalizing q with
  | nil => rfl
  | cons v bs ih => rw [List.flatMap_cons, List.foldl_append, ih, cell_clk]

theorem wrb_clk (b : Byte) (q : PinState) : (wrbEvents b).foldl (lineEffect .clk) q = ⟨q.dirn, some false⟩ := by
  rw [wrbEvents, List.foldl_append, ack_clk, cells_clk]

theorem wrb_dio (b : Byte) (q : PinState) : (wrbEvents b).foldl (lineEffect .dio) q = ⟨some .out, some true⟩ := rfl

/-- SETL leaves the clock line high with its direction, and the data line idle. -/
theorem setl_clk (c : Cfg) (b : BitVec 3) (l : Nat) (q : PinState) :
    (setlEvents c b l).foldl (lineEffect .clk) q = ⟨q.dirn, some true⟩ := by
  simp only [setlEvents, txn1Events, txn2Events, txn3Events, List.foldl_append, start_line, stop_line, wrb_clk]

theorem setl_dio (c : Cfg) (b : BitVec 3) (l : Nat) (q : PinState) :
    (setlEvents c b l).foldl (lineEffect .dio) q = PinState.idle := by
  simp only [setlEvents, txn1Events, txn2Events, txn3Events, List.foldl_append, start_line, stop_line, wrb_dio]
  rfl

/-- After a byte `LAST_ACK` is the answer to the 27th of its calls. -/
theorem ackAfter_wrb (ans : Nat → Answer) (k : Nat) (b : Byte) (a : Bool) :
    ackAfter ans k (wrbEvents b) a = (ans (k + 26)).level := rfl

theorem ackAfter_append (ans : Nat → Answer) (k : Nat) (ps qs : List Prim) (a : Bool) :
    ackAfter ans k (ps ++ qs) a = ackAfter ans (k + callsIn ps) qs (ackAfter ans k ps a) := by
  induction ps generalizing k a with
  | nil => rfl
  | cons p ps ih =>
    rw [callsIn_cons]
    cases p <;> simp [ackAfter, isDelay, ih] <;> congr 1 <;> omega

theorem ackAfter_start (ans : Nat → Answer) (k : Nat) (a : Bool) : ackAfter ans k startEvents a = a := rfl
theorem ackAfter_stop (ans : Nat → Answer) (k : Nat) (a : Bool) : ackAfter ans k stopEvents a = a := rfl
theorem ackAfter_idle (ans : Nat → Answer) (k : Nat) (a : Bool) : ackAfter ans k idleSeq a = a := rfl

/-- After a SETL `LAST_ACK` is the sample of the fourth byte (10_state.md R25). -/
theorem ackAfter_setl (ans : Nat → Answer) (c : Cfg) (b : BitVec 3) (l : Nat) (a : Bool) :
    ackAfter ans 0 (setlEvents c b l) a = (ans 136).level := by
  simp [setlEvents, txn1Events, txn2Events, txn3Events, ackAfter_append, ackAfter_start, ackAfter_stop, ackAfter_wrb,
    callsIn_start, callsIn_stop, callsIn_wrb]

end Sys2Proof.Machine
end

