-- ==== Sys2Proof/Laws/Course.lean ====
section
/-! SUPPORT. The course of an operation, field by field: what loading the operands, completing, and recovering from a failed call do to each
register, and the shape of every next state of `exec`. -/

namespace Sys2Proof.Machine

/-! ### Operands out of range -/

theorem initValid_false_iff (c d : Int) : initValid c d = false ↔ c < 0 ∨ 27 < c ∨ d < 0 ∨ 27 < d ∨ c = d := by
  rw [← Bool.not_eq_true, initValid_iff]; omega

theorem brightInRange_false_iff (b : Int) : brightInRange b = false ↔ b < 0 ∨ 7 < b := by
  rw [← Bool.not_eq_true, brightInRange_iff]; omega

theorem levelInRange_false_iff (l : Int) : levelInRange l = false ↔ l < 0 ∨ 7 < l := by
  rw [← Bool.not_eq_true, levelInRange_iff]; omega

/-- One response, one code. -/
theorem Responded.code_unique {s t : State} {a b : BitVec 2} (h : Responded s t a) (k : Responded s t b) : a = b := by
  simpa using h.1.symm.trans k.1

/-! ### Loading the operands -/

/-- What loading the operands leaves alone. -/
theorem loadOperands_kept (i : Instr) (s : State) :
    (loadOperands i s).cfg = s.cfg ∧ (loadOperands i s).trace = s.trace ∧ (loadOperands i s).pins = s.pins ∧
    (loadOperands i s).responses = s.responses ∧ FlagsKept s (loadOperands i s) ∧ (loadOperands i s).seq = s.seq ∧
    (loadOperands i s).constructed = s.constructed ∧ (loadOperands i s).inbox = s.inbox ∧ (loadOperands i s).lastAck = s.lastAck := by
  cases i <;> exact ⟨rfl, rfl, rfl, rfl, ⟨rfl, rfl⟩, rfl, rfl, rfl, rfl⟩

/-- Only INIT has operands to load. -/
theorem loadOperands_eq_self {i : Instr} {s : State} (h : isInit i = false) : loadOperands i s = s := by
  cases i <;> first | rfl | (simp [isInit] at h; done)

/-! ### Completing -/

/-- The final write to `BRIGHT` is SETB's (41_driver.md R122). -/
theorem complete_bright (i : Instr) (s : State) :
    (complete i s).bright = (match i with | .setb b => brightReg b | _ => s.bright) := by cases i <;> rfl

/-- The final writes to `CONSTRUCTED` are INIT's and RELEASE's (R121, R127). -/
theorem complete_constructed (i : Instr) (s : State) :
    (complete i s).constructed = (isInit i || s.constructed && !(i == .release)) := by 
  cases i <;> simp [complete, finalWrites, State.respond, State.setConstructed, State.setBright, isInit]

theorem complete_kept (i : Instr) (s : State) :
    (complete i s).cfg = s.cfg ∧ (complete i s).clkPin = s.clkPin ∧
    (complete i s).dioPin = s.dioPin ∧ (complete i s).lastAck = s.lastAck ∧ (complete i s).trace = s.trace ∧
    (complete i s).pins = s.pins ∧ (complete i s).inbox = s.inbox ∧ (complete i s).answers = s.answers ∧
    (complete i s).draws = s.draws := by
  cases i <;> exact ⟨rfl, rfl, rfl, rfl, rfl, rfl, rfl, rfl, rfl⟩

theorem complete_lineAt (i : Instr) (s : State) (l : Line) : (complete i s).lineAt l = s.lineAt l := by
  cases i <;> cases l <;> rfl

theorem complete_eventsSeen (i : Instr) (s : State) : eventsSeen (complete i s) = eventsSeen s := by cases i <;> rfl

/-! ### Recovering -/

theorem abandon_kept (i : Instr) (s : State) :
    (abandon i s).cfg = s.cfg ∧ (abandon i s).bright = s.bright ∧ (abandon i s).clkPin = s.clkPin ∧
    (abandon i s).dioPin = s.dioPin ∧ (abandon i s).lastAck = s.lastAck ∧ (abandon i s).trace = s.trace ∧
    (abandon i s).pins = s.pins ∧ (abandon i s).inbox = s.inbox := by
  cases i <;> exact ⟨rfl, rfl, rfl, rfl, rfl, rfl, rfl, rfl⟩

theorem abandon_lineAt (i : Instr) (s : State) (l : Line) : (abandon i s).lineAt l = s.lineAt l := by
  cases i <;> cases l <;> rfl

theorem abandon_responded (i : Instr) (s : State) : Responded s (abandon i s) (errorCode .hardwareAccess) := by
  cases i <;> exact ⟨rfl, rfl, rfl⟩

theorem abandon_flagged (i : Instr) (s : State) : Flagged (abandon i s) .hardwareAccess := by cases i <;> exact ⟨rfl, rfl⟩

/-- RELEASE discards the driver even when it fails (60_exceptions.md R167). -/
theorem abandon_constructed (i : Instr) (s : State) :
    (abandon i s).constructed = if i == .release then false else s.constructed := by
  cases i <;> rfl

/-! ### Sequences without a read -/

/-- No `PinRead` in the sequence. -/
def NoReads (ps : List Prim) : Prop := ∀ p ∈ ps, isRead p = false

theorem NoReads.take {ps : List Prim} (h : NoReads ps) (k : Nat) : NoReads (ps.take k) :=
  fun p hp => h p (List.mem_of_mem_take hp)

theorem noReads_idle : NoReads idleSeq := by simp [NoReads, idleSeq, isRead]
theorem noReads_start : NoReads startEvents := by simp [NoReads, startEvents, isRead]
theorem noReads_stop : NoReads stopEvents := by simp [NoReads, stopEvents, isRead]

/-- Without a read `LAST_ACK` stays. -/
theorem performAll_lastAck_of_noReads {ps : List Prim} (h : NoReads ps) (s : State) : (performAll ps s).lastAck = s.lastAck := by
  induction ps generalizing s with
  | nil => rfl
  | cons p ps ih =>
    rw [performAll_cons, ih (fun q hq => h q (List.mem_cons_of_mem _ hq)), perform_lastAck]
    have := h p List.mem_cons_self
    cases p <;> simp [isRead] at this ⊢

/-! ### The events of a sequence, by the answers -/

theorem expectedEvents_append (ans : Nat → Answer) (k : Nat) (ps qs : List Prim) :
    expectedEvents ans k (ps ++ qs) = expectedEvents ans k ps ++ expectedEvents ans (k + callsIn ps) qs := by
  induction ps generalizing k with
  | nil => rfl
  | cons p ps ih =>
    rw [callsIn_cons]
    simp only [List.cons_append, expectedEvents, ih]
    cases isDelay p <;> simp
    congr 1
    omega

/-- Only the answers from the first call on matter. -/
theorem expectedEvents_shift {ans ans' : Nat → Answer} {j k : Nat} (h : ∀ n, ans (j + n) = ans' (k + n)) (ps : List Prim) :
    expectedEvents ans j ps = expectedEvents ans' k ps := by
  induction ps generalizing j k with
  | nil => rfl
  | cons p ps ih =>
    simp only [expectedEvents]
    congr 1
    · rw [show ans j = ans' k by simpa using h 0]
    · apply ih
      intro n
      cases isDelay p
      · have := h (n + 1)
        simp only [Bool.false_eq_true, if_false]
        rw [show j + 1 + n = j + (n + 1) by omega, this, show k + 1 + n = k + (n + 1) by omega]
      · exact h n

/-- A sequence whose call after `pre` is the first that fails: performed up to and including that call. -/
theorem runEvents_of_failure {pre post : List Prim} {p : Prim} {s : State} (hn : NoFailure s (callsIn pre)) (hd : isDelay p = false)
    (hf : (answerAt s (callsIn pre)).fails = true) : runEvents (pre ++ p :: post) s = (false, performAll (pre ++ [p]) s) := by
  rw [runEvents_append hn, performAll_append]
  have : failsNow p (performAll pre s) = true := by simp [failsNow, hd, nextAnswer_eq, performAll_answerAt, hf]
  simp [runEvents, this, performAll_cons, performAll_nil]

/-! ### The shape of every next state -/

/-- A next state of `exec` is the state after ConfigurationError; or the operands loaded, a prefix of the events performed, and then either
the completion or the recovery. -/
theorem exec_shape {i : Instr} {s t : State} (h : exec i s = .next t) :
    (t = configurationError s ∧ cfgOk s.cfg = true ∧ s.constructed = !isInit i) ∨
    (testsPass i s = true ∧ cfgOk s.cfg = true ∧ s.constructed = (!isInit i) ∧ ∃ k,
      (t = complete i (performAll ((eventsOf s.cfg s.bright i).take k) (loadOperands i s)) ∨
       t = hardwareAccessError i (performAll ((eventsOf s.cfg s.bright i).take k) (loadOperands i s)))) := by
  obtain ⟨hc, hcon, h | ⟨hpass, h⟩⟩ := exec_next h
  · exact .inl ⟨h.1, hc, hcon⟩
  · refine .inr ⟨hpass, hc, hcon, ?_⟩
    by_cases hr : runsEvents i = true
    · simp only [hr, if_true] at h
      obtain ⟨hsp, u, hu, ht⟩ := runOp_next h
      obtain ⟨k, hk⟩ := runEvents_prefix (eventsOf (loadOperands i s).cfg (loadOperands i s).bright i) (loadOperands i s)
      refine ⟨k, ?_⟩
      rw [hk, loadOperands_events] at hu
      rw [hu]
      exact ht.imp (·.2) (·.2)
    · simp only [hr] at h
      exact ⟨0, .inl (by injection h with h; exact h.symm)⟩

/-- With no failure among the answers an operation whose tests pass performs all its events and completes. -/
theorem exec_of_noFailure {i : Instr} {s : State} (hp : testsPass i s = true) (hs : pinsInSpace (loadOperands i s) = true)
    (hn : NoFailure s (callsIn (eventsOf s.cfg s.bright i))) (hr : runsEvents i = true) :
    exec i s = .next (complete i (performAll (eventsOf s.cfg s.bright i) (loadOperands i s))) := by
  rw [exec_of_testsPass hp]
  simp only [hr, if_true]
  rw [runOp_of_noFailure hs, loadOperands_events]
  rw [loadOperands_events]
  intro k hk
  rw [loadOperands_answerAt]
  exact hn k hk

end Sys2Proof.Machine
end

