-- ==== Sys2Proof/Laws/Decode.lean ====
section
/-! SUPPORT. The fields of a command word and the operand fields, once each; and that an accepted word or byte is well-formed. -/

namespace Sys2Proof

@[simp] theorem opField_cmdWord (o b a : Byte) : opField (cmdWord o b a) = o := by
  ext i hi
  simp [opField, cmdWord, show ¬ 16 + i < 16 by omega, show ¬ 16 + i < 8 by omega, show 8 ≤ 16 + i - 8 by omega,
    show 8 ≤ 16 + i by omega, show 16 + i < 24 by omega, hi]

@[simp] theorem bField_cmdWord (o b a : Byte) : bField (cmdWord o b a) = b := by
  ext i hi
  simp [bField, cmdWord, hi, show 8 + i < 16 by omega, show ¬ 8 + i < 8 by omega, show 8 + i < 24 by omega]

@[simp] theorem aField_cmdWord (o b a : Byte) : aField (cmdWord o b a) = a := by
  ext i hi
  simp [aField, cmdWord, hi, show i < 16 by omega]
  omega

/-- A word is its three fields. -/
theorem cmdWord_fields (w : CmdWord) : cmdWord (opField w) (bField w) (aField w) = w := by
  ext i hi
  simp [opField, bField, aField, cmdWord, hi]
  by_cases h1 : i < 8
  · simp [h1, show i < 16 by omega]
  · by_cases h2 : i < 16
    · simp [h1, h2, show i - 8 < 8 by omega, show 8 + (i - 8) = i by omega, BitVec.getLsbD_eq_getElem hi]
    · simp [h1, h2, show i - 16 < 8 by omega, show 16 + (i - 16) = i by omega,
        show ¬ i - 8 < 8 by omega, BitVec.getLsbD_eq_getElem hi]

/-- An operand that fits its field is what the field reads as. -/
theorem sext8_operandField {x : Int} (h : operandFits x = true) : sext8 (operandField x) = x := by
  simp only [operandFits, Bool.and_eq_true, decide_eq_true_eq] at h
  rw [sext8, operandField, BitVec.toInt_ofInt, Int.bmod_def]
  norm_num
  omega

/-- What a field reads as fits it. -/
theorem operandFits_sext8 (f : Byte) : operandFits (sext8 f) = true := by
  have h1 := BitVec.le_toInt f
  have h2 := BitVec.toInt_lt (x := f)
  norm_num at h1 h2
  simp only [operandFits, Bool.and_eq_true, decide_eq_true_eq]
  unfold sext8
  omega

/-- The field of what a field reads as is the field. -/
@[simp] theorem operandField_sext8 (f : Byte) : operandField (sext8 f) = f := by
  simp [operandField, sext8]

theorem ifZero_ok {z : Bool} {op : Byte} {i j : Instr} (h : ifZero z op i = .ok j) : z = true ∧ j = i := by
  unfold ifZero at h
  split at h
  · exact ⟨‹_›, by injection h with h; exact h.symm⟩
  · cases h

end Sys2Proof
end

