-- ==== Sys2Proof/Laws/PerInstr.lean ====
section
/-! SUPPORT. Statements for all instructions, one lemma per constructor: the encoding of every instruction carries the fixed bits that
spec/opcode_table.json gives its row. -/

namespace Sys2Proof.Laws.TableMatch

/-- The mask of a row of spec/opcode_table.json and the value its masked bits have: a word of format H24, or a byte of format W8. -/
inductive Row where
  | h24 (mask value : CmdWord)
  | w8 (mask value : Byte)
  deriving DecidableEq, Repr

/-- The row of each instruction. -/
def row : Instr → Row
  | .init _ _ => .h24 0xFF0000 0x010000
  | .setb _ => .h24 0xFFFF00 0x020000
  | .setl _ => .h24 0xFFFF00 0x030000
  | .release => .h24 0xFFFFFF 0x040000
  | .start => .h24 0xFFFFFF 0x100000
  | .stop => .h24 0xFFFFFF 0x110000
  | .wrb _ => .h24 0xFFFF00 0x120000
  | .wDataCommand => .w8 0xFF 0x40
  | .wAddressCommand => .w8 0xFF 0xC0
  | .wDisplayControl _ => .w8 0xF8 0x88
  | .wSegmentData _ => .w8 0x00 0x00

/-- A code has a row's format and its fixed bits. -/
def fits : Code → Row → Prop
  | .cmd w, .h24 m v => w &&& m = v
  | .wire _ b, .w8 m v => b &&& m = v
  | .cmd _, .w8 _ _ => False
  | .wire _ _, .h24 _ _ => False

/-- The encoding of `i`, in the default configuration that the table shows, fits the row of `i`, whatever its operands. -/
def Statement (i : Instr) : Prop := fits (encode Cfg.default i) (row i)

theorem init (clk dio : Int) : Statement (.init clk dio) := by
  show cmdWord 0x01 (operandField dio) (operandField clk) &&& 0xFF0000#24 = 0x010000#24
  generalize operandField dio = b
  generalize operandField clk = a
  ext i hi
  interval_cases i <;> simp [cmdWord]

theorem setb (b : Int) : Statement (.setb b) := by
  have h : ∀ a : Byte, cmdWord 0x02 0 a &&& 0xFFFF00 = 0x020000 := by decide +kernel
  exact h _

theorem setl (l : Int) : Statement (.setl l) := by
  have h : ∀ a : Byte, cmdWord 0x03 0 a &&& 0xFFFF00 = 0x030000 := by decide +kernel
  exact h _

theorem release : Statement .release := by simp only [Statement, fits, encode, row]; decide
theorem start : Statement .start := by simp only [Statement, fits, encode, row]; decide
theorem stop : Statement .stop := by simp only [Statement, fits, encode, row]; decide

theorem wrb (byte : Byte) : Statement (.wrb byte) := by
  have h : ∀ a : Byte, cmdWord 0x12 0 a &&& 0xFFFF00 = 0x120000 := by decide +kernel
  exact h _

theorem wDataCommand : Statement .wDataCommand := by simp only [Statement, fits, encode, row]; decide
theorem wAddressCommand : Statement .wAddressCommand := by simp only [Statement, fits, encode, row]; decide

theorem wDisplayControl (b : BitVec 3) : Statement (.wDisplayControl b) := by
  have h : ∀ b : BitVec 3, ctrlByte Cfg.default b &&& 0xF8 = 0x88 := by decide
  exact h b

theorem wSegmentData (p : Byte) : Statement (.wSegmentData p) := by
  show p &&& 0#8 = 0#8
  simp

end Sys2Proof.Laws.TableMatch
end

