-- ==== Sys2Proof/Laws/Receiver.lean ====
section
/-! SUPPORT. What the receiver of 40_transport.md R107 makes of the parts of a frame. -/

namespace Sys2Proof.Machine

theorem receiveAll_append (r : Receiver) (a b : List Event) :
    receiveAll r (a ++ b) = (receiveAll r a).bind fun q => receiveAll q b := by
  simp [receiveAll, List.foldlM_append]

theorem successEvents_append (a : Bool) (ps qs : List Prim) :
    successEvents a (ps ++ qs) = successEvents a ps ++ successEvents a qs := by simp [successEvents]

/-- The start condition opens a frame. -/
theorem receive_start (a : Bool) (n : Nat) (acc : Byte) (cur : List Byte) (fr : List (List Byte)) :
    receiveAll ⟨true, some true, true, false, n, acc, cur, fr⟩ (successEvents a startEvents) =
      some ⟨false, some false, false, true, 0, 0, [], fr⟩ := by
  simp [receiveAll, successEvents, startEvents, receive, dataWrite, clockWrite, dataWhileHigh]

/-- A bit cell inside a frame gives one bit. -/
theorem receive_cell (a v lt : Bool) {n : Nat} (acc : Byte) (cur : List Byte) (fr : List (List Byte)) (hn : n < 8) :
    receiveAll ⟨false, some lt, lt, true, n, acc, cur, fr⟩ (successEvents a (bitCell v)) =
      some ⟨false, some v, v, true, n + 1, takeBit acc (n + 1) v, if n + 1 = 8 then cur ++ [takeBit acc (n + 1) v] else cur, fr⟩ := by
  simp [receiveAll, successEvents, bitCell, receive, dataWrite, clockWrite, clockRise, byteBits, hn]

/-- The ack slot ends the byte. -/
theorem receive_ack (a lt : Bool) (acc : Byte) (cur : List Byte) (fr : List (List Byte)) :
    receiveAll ⟨false, some lt, lt, true, 8, acc, cur, fr⟩ (successEvents a ackSlot) =
      some ⟨false, some true, true, true, 0, 0, cur, fr⟩ := by
  simp [receiveAll, successEvents, ackSlot, receive, dataWrite, clockWrite, clockRise, byteBits]

/-- Eight bits, bit 0 first, are the byte. -/
theorem takeBit_all : ∀ b : Byte, takeBit (takeBit (takeBit (takeBit (takeBit (takeBit (takeBit (takeBit 0 1 (b.getLsbD 0)) 2 (b.getLsbD 1))
    3 (b.getLsbD 2)) 4 (b.getLsbD 3)) 5 (b.getLsbD 4)) 6 (b.getLsbD 5)) 7 (b.getLsbD 6)) 8 (b.getLsbD 7) = b := by decide +kernel

/-- The stop condition closes the frame and emits it. -/
theorem receive_stop (a v : Bool) (cur : List Byte) (fr : List (List Byte)) :
    ∃ n acc c, receiveAll ⟨false, some v, v, true, 0, 0, cur, fr⟩ (successEvents a stopEvents) =
      some ⟨true, some true, true, false, n, acc, c, fr ++ [cur]⟩ := by
  cases v <;> simp [receiveAll, successEvents, stopEvents, receive, dataWrite, clockWrite, dataWhileHigh, clockRise, byteBits]

/-- `IDLE_SEQ` on idle lines is nothing to the receiver. -/
theorem receive_idle (a : Bool) (n : Nat) (acc : Byte) (cur : List Byte) (fr : List (List Byte)) :
    receiveAll ⟨true, some true, true, false, n, acc, cur, fr⟩ (successEvents a idleSeq) =
      some ⟨true, some true, true, false, n, acc, cur, fr⟩ := by
  simp [receiveAll, successEvents, idleSeq, receive, dataWrite, clockWrite, dataWhileHigh]

end Sys2Proof.Machine
end

