-- ==== Sys2Proof/Laws/Step.lean ====
section
/-! SUPPORT. The step while an operation runs, the host's inputs under it, taking an operation, and runs of several steps. -/

namespace Sys2Proof.Machine

/-! ### The host's inputs -/

@[simp] theorem afterSteps_zero (l : List HostInput) : afterSteps 0 l = l := by cases l <;> rfl

@[simp] theorem afterSteps_nil (n : Nat) : afterSteps n [] = [] := by cases n <;> rfl

@[simp] theorem afterSteps_quiet (n : Nat) (l : List HostInput) : afterSteps (n + 1) (.quiet :: l) = afterSteps n l := rfl

@[simp] theorem afterSteps_present (n : Nat) (c : Code) (l : List HostInput) :
    afterSteps n (.present c :: l) = .present c :: l := by cases n <;> rfl

@[simp] theorem afterSteps_rst (n : Nat) (l : List HostInput) : afterSteps n (.rst :: l) = .rst :: l := by cases n <;> rfl

/-- What passes in `n` steps and then one more passes in one step and then `n` more. -/
theorem afterSteps_succ (n : Nat) (l : List HostInput) : afterSteps n (afterSteps 1 l) = afterSteps (n + 1) l := by
  rcases l with _ | ⟨_ | _ | _, _⟩ <;> simp

/-- `n` quiet moments pass in `n` steps. -/
theorem afterSteps_replicate (n : Nat) (l : List HostInput) : afterSteps n (List.replicate n .quiet ++ l) = l := by
  induction n with
  | zero => simp
  | succ n ih => simpa [List.replicate_succ] using ih

/-- The sequencer takes nothing from the host. -/
theorem seqStep_inbox (s : State) : (seqStep s).inbox = s.inbox := by
  unfold seqStep
  split
  · rfl
  · split
    · exact (perform_engineKept _ _).inbox
    · unfold complete finalWrites; split <;> rfl
  · split
    · exact (perform_engineKept _ _).inbox
    · unfold abandon discardOnError; split <;> rfl

/-! ### One step -/

/-- While an operation runs and reset is not presented, a step is the sequencer's; a quiet moment of the host passes with it. -/
theorem step_running {s : State} (hs : s.seq ≠ .idle) (hp : pinsInSpace s = true ∨ pendingPrim s = none)
    (hi : s.inbox.head? ≠ some .rst) : step s = .next (seqStep (s.setInbox (afterSteps 1 s.inbox))) := by
  have hb : busy s = true := by simp [busy, hs]
  have hq : ∀ l, busyStep (s.setInbox l) = .next (seqStep (s.setInbox l)) := by
    intro l
    unfold busyStep
    rw [if_pos]
    simpa only [pinsInSpace_setInbox, pendingPrim_setInbox, Bool.or_eq_true, Option.isNone_iff_eq_none] using hp
  unfold step
  rcases h : s.inbox with _ | ⟨_ | _ | c, r⟩ <;> simp only [fetch, h, hb, if_true]
  · exact hq _
  · simp [h] at hi
  · exact hq _
  · exact hq _

/-- While an operation runs and neither reset nor a quiet moment is next, a step is the sequencer's and the host's inputs stay. -/
theorem step_busy {s : State} (hs : s.seq ≠ .idle) (hp : pinsLegal s = true) (hi : s.inbox.head? ≠ some .rst)
    (hq : s.inbox.head? ≠ some .quiet) : step s = .next (seqStep s) := by
  rw [step_running hs (.inl (pinsInSpace_of_legal hp)) hi]
  have : afterSteps 1 s.inbox = s.inbox := by
    rcases h : s.inbox with _ | ⟨_ | _ | c, r⟩ <;> simp_all
  rw [this]
  rfl

/-- An idle engine with an operation presented. -/
theorem step_present {s : State} {c : Code} {i : Instr} {rest : List HostInput} (hs : s.seq = .idle)
    (hi : s.inbox = .present c :: rest) (hd : decode s.cfg c = .ok i) : step s = takeStep i (s.setInbox rest) := by
  simp [step, fetch, hi, busy, hs, taskOfCode, hd]

/-- An operation with a next state and valid operands is taken. -/
theorem takeStep_of_valid {i : Instr} {s t : State} (h : exec i s = .next t) (hv : operandsValid i = true) :
    takeStep i s = .next (accept i s) := by simp [takeStep, h, hv]

/-- One step of a run. -/
theorem run_succ (M : Host.Core) (n : Nat) {s t : M.State} (h : M.step s = .next t) : M.run (n + 1) s = M.run n t := by
  simp only [Host.Core.run, h]

end Sys2Proof.Machine
end

