-- ==== Sys2Proof/Machine/Assembler.lean ====
section
/-! DEFINITION. The textual syntax of 30_encoding.md R85 with the pseudo-operations of R86: one line of text to the command words it stands
for. Text is a list of characters. What R85 leaves open of the line's form is assumption log 20. -/

namespace Sys2Proof.Machine

/-- A blank between words. -/
def isBlank (c : Char) : Bool := c == ' ' || c == '\t'

/-- The line without its comment: `;` starts one. -/
def stripComment (l : List Char) : List Char := l.takeWhile (· != ';')

/-- Without blanks at either end. -/
def trim (l : List Char) : List Char := ((l.dropWhile isBlank).reverse.dropWhile isBlank).reverse

/-- The value of a digit in base 16. -/
def hexDigit (c : Char) : Option Nat :=
  let n := c.toNat
  if 48 ≤ n ∧ n ≤ 57 then some (n - 48)
  else if 65 ≤ n ∧ n ≤ 70 then some (n - 55)
  else if 97 ≤ n ∧ n ≤ 102 then some (n - 87)
  else none

/-- The value of a digit in base `base`. -/
def digitIn (base : Nat) (c : Char) : Option Nat := (hexDigit c).filter (· < base)

/-- The number a nonempty run of digits spells. -/
def digitsIn (base : Nat) (l : List Char) : Option Nat :=
  if l.isEmpty then none
  else l.foldlM (fun n c => (digitIn base c).map fun d => n * base + d) 0

/-- A number without sign: hexadecimal after `0x`, else decimal. -/
def natural (l : List Char) : Option Nat :=
  match l with
  | '0' :: 'x' :: ds => digitsIn 16 ds
  | ds => digitsIn 10 ds

/-- An operand: a number, with `-` before it where it is negative. -/
def operand (l : List Char) : Option Int :=
  match trim l with
  | '-' :: ds => (natural ds).map fun n => -(n : Int)
  | ds => (natural ds).map fun n => (n : Int)

/-- The text between commas. -/
def splitCommas : List Char → List (List Char)
  | [] => [[]]
  | c :: cs =>
    match splitCommas cs with
    | [] => [[c]]
    | w :: ws => if c == ',' then [] :: w :: ws else (c :: w) :: ws

/-- The operands of a line: none where nothing but blanks follows the mnemonic. -/
def operands (l : List Char) : Option (List Int) :=
  if (trim l).isEmpty then some [] else (splitCommas l).mapM operand

/-- The encoding of a line's fields: `OP << 16 | (B & 0xFF) << 8 | (A & 0xFF)` (R85). -/
def asmWord (op : Byte) (b a : Int) : CmdWord := cmdWord op (operandField b) (operandField a)

/-- The command word of a host operation, none for a wire byte. -/
def wordOf (c : Cfg) (i : Instr) : Option CmdWord :=
  match encode c i with
  | .cmd w => some w
  | .wire _ _ => none

/-- The words of a sequence of operations. -/
def wordsOf (c : Cfg) (is : List Instr) : Option (List CmdWord) := is.mapM (wordOf c)

/-- The words of a mnemonic with its operands: an operation of R85, or a pseudo-operation of R86 with its operands in the range R86
gives. -/
def assembleOp (c : Cfg) (m : List Char) (ops : List Int) : Option (List CmdWord) :=
  match m, ops with
  | ['I', 'N', 'I', 'T'], [clk, dio] => some [asmWord 0x01 dio clk]
  | ['S', 'E', 'T', 'B'], [b] => some [asmWord 0x02 0 b]
  | ['S', 'E', 'T', 'L'], [l] => some [asmWord 0x03 0 l]
  | ['R', 'E', 'L', 'E', 'A', 'S', 'E'], [] => some [asmWord 0x04 0 0]
  | ['S', 'T', 'A', 'R', 'T'], [] => some [asmWord 0x10 0 0]
  | ['S', 'T', 'O', 'P'], [] => some [asmWord 0x11 0 0]
  | ['W', 'R', 'B'], [b] => some [asmWord 0x12 0 b]
  | ['U', 'P', 'D', 'A', 'T', 'E'], [l, b] => some [asmWord 0x02 0 b, asmWord 0x03 0 l]
  | ['T', 'X', 'N', '1'], [] => wordsOf c (txn1 c)
  | ['T', 'X', 'N', '2'], [l] => if levelInRange l then wordsOf c (txn2 c l.toNat) else none
  | ['T', 'X', 'N', '3'], [b] => if brightInRange b then wordsOf c (txn3 c (brightReg b)) else none
  | ['R', 'U', 'N'], [p, d, b, l] => some [asmWord 0x01 d p, asmWord 0x02 0 b, asmWord 0x03 0 l, asmWord 0x04 0 0]
  | _, _ => none

/-- One line: no word for an empty line or a comment, none at all (`none`) for a line that is not of R85's or R86's form. -/
def assembleLine (c : Cfg) (line : List Char) : Option (List CmdWord) :=
  let text := trim (stripComment line)
  if text.isEmpty then some []
  else
    match operands (text.dropWhile fun ch => !isBlank ch) with
    | none => none
    | some ops => assembleOp c (text.takeWhile fun ch => !isBlank ch) ops

end Sys2Proof.Machine
end

