-- ==== Sys2Proof/Tests/Slice0.lean ====
section
/-! SUPPORT. The model's own tests: decoding of words written out from 30_encoding.md, well-formedness, vectors of 95_test_vectors.md (V.., P..),
and for each obligation with hypotheses a state and operands that meet them. -/

namespace Sys2Proof.Tests

open Sys2Proof Sys2Proof.Machine

/-! ### Helpers -/

/-- An answer of success, the line read as `v`. -/
def yes (v : Bool) : Answer := ⟨false, v⟩

/-- An answer of failure. -/
def no : Answer := ⟨true, false⟩

/-- After hardware reset, with the environment's first answers fixed. -/
def fresh (as : List Answer) : State := { State.reset with answers := as }

/-- After reset and `INIT 24, 23`: lines idle, nothing in the trace. -/
def ready (as : List Answer) : State :=
  { State.reset with
    constructed := true
    clkPin := 24
    dioPin := 23
    pins := ((Vector.replicate pinCount PinState.unknown).set 24 PinState.idle).set 23 PinState.idle
    answers := as }

/-- Enough successes for any one operation and its recovery. -/
def plenty : List Answer := List.replicate 160 (yes false)

/-- The outcome is a next state of which `p` holds. -/
def after (o : Host.Outcome State Fault Refusal) (p : State → Bool) : Bool :=
  match o with
  | .next t => p t
  | _ => false

/-- The events of a next state. -/
def eventsAfter (o : Host.Outcome State Fault Refusal) : List Event :=
  match o with
  | .next t => eventsSeen t
  | _ => []

/-- `s` with `i` running, `k` of its events performed. -/
def during (i : Instr) (k : Nat) (s : State) : State := { s with seq := .running i k }

/-- `s` with host inputs. -/
def given (l : List HostInput) (s : State) : State := { s with inbox := l }

/-! ### Well-formedness: an ill-formed term for each check -/

theorem test_wf_init_clk : (Instr.init 128 23).wellFormed = false := by decide
theorem test_wf_init_dio : (Instr.init 24 (-129)).wellFormed = false := by decide
theorem test_wf_setb : (Instr.setb 128).wellFormed = false := by decide
theorem test_wf_setl : (Instr.setl (-129)).wellFormed = false := by decide
theorem test_wf_edges : (Instr.init (-128) 127).wellFormed = true := by decide

/-- R51, R80: an ill-formed configuration for each requirement. -/
theorem test_cfg_first_not_zero : cfgOk { Cfg.default with seg := #v[1, 3, 7, 15, 31, 63, 127, 255] } = false := by decide
theorem test_cfg_not_increasing : cfgOk { Cfg.default with seg := #v[0, 1, 3, 3, 15, 31, 63, 127] } = false := by decide
theorem test_cfg_not_subset : cfgOk { Cfg.default with seg := #v[0, 1, 6, 7, 15, 31, 63, 127] } = false := by decide
theorem test_cfg_control_low_bits : cfgOk { Cfg.default with displayControl := 0x8A } = false := by decide

/-! ### Decoding: V10 to V19, V23 -/

theorem test_decode_init : decode Cfg.default (.cmd 0b000000010001011100011000#24) = .ok (.init 24 23) := by decide
theorem test_decode_init_negative : decode Cfg.default (.cmd 0b000000010000001111111111#24) = .ok (.init (-1) 3) := by decide
theorem test_decode_setb : decode Cfg.default (.cmd 0b000000100000000000000010#24) = .ok (.setb 2) := by decide
theorem test_decode_setl : decode Cfg.default (.cmd 0b000000110000000010000000#24) = .ok (.setl (-128)) := by decide
theorem test_decode_release : decode Cfg.default (.cmd 0b000001000000000000000000#24) = .ok .release := by decide
theorem test_decode_start : decode Cfg.default (.cmd 0b000100000000000000000000#24) = .ok .start := by decide
theorem test_decode_stop : decode Cfg.default (.cmd 0b000100010000000000000000#24) = .ok .stop := by decide
theorem test_decode_wrb : decode Cfg.default (.cmd 0b000100100000000011111111#24) = .ok (.wrb 255) := by decide
theorem test_decode_data_command : decode Cfg.default (.wire .first 0b01000000#8) = .ok .wDataCommand := by decide
theorem test_decode_address_command : decode Cfg.default (.wire .first 0b11000000#8) = .ok .wAddressCommand := by decide
theorem test_decode_display_control : decode Cfg.default (.wire .first 0b10001111#8) = .ok (.wDisplayControl 7) := by decide
theorem test_decode_segment_data : decode Cfg.default (.wire .later 0b01000000#8) = .ok (.wSegmentData 0x40) := by decide

/-- V19: one invalid word for each opcode and field. -/
theorem test_decode_invalid :
    [0x000000#24, 0x050000#24, 0x130000#24, 0xFF0000#24, 0x020102#24, 0x030103#24, 0x040001#24, 0x100100#24, 0x110001#24, 0x12018A#24].all
      (fun w => (decode Cfg.default (.cmd w)).toOption.isNone) = true := by decide

/-- V23: bytes the engine never sends first. -/
theorem test_decode_not_command :
    [0x44#8, 0xC1#8, 0x80#8].all (fun b => (decode Cfg.default (.wire .first b)).toOption.isNone) = true := by decide

/-- The table's numbering of bits, and both formats. -/
theorem test_decodeTableWord : decodeTableWord 24 0x011718 = some (.init 24 23) ∧ decodeTableWord 8 0x8D = some (.wDisplayControl 5) := by
  decide

/-- `withFetchWord` makes the next step take the instruction: V40's INIT from reset, nothing performed yet; one step on, the first of its
events has happened. -/
theorem test_withFetchWord :
    after (step ((fresh plenty).withFetchWord 24 0x011718))
      (fun t => t.seq == .running (.init 24 23) 0 && t.clkPin == 24 && t.dioPin == 23 && !t.constructed && t.trace == [] && t.inbox == []) = true ∧
    after (Sys2Proof.core.run 2 ((fresh plenty).withFetchWord 24 0x011718))
      (fun t => t.seq == .running (.init 24 23) 1 && eventsSeen t == [.dir .clk .out]) = true := by decide +kernel

/-- R20, R34: V40's INIT event by event is over after its taking, its four events and its end; SETB after its taking and its end. -/
theorem test_run_from_reset :
    after (Sys2Proof.core.run 6 (given [.present (.cmd 0x011718)] (fresh plenty)))
      (fun t => t.constructed && linesIdle t && t.responses == [0] && t.seq == .idle) = true ∧
    after (Sys2Proof.core.run 1 (given [.present (.cmd 0x020007)] (ready plenty))) (fun t => t.bright == 2 && busy t) = true ∧
    after (Sys2Proof.core.run 2 (given [.present (.cmd 0x020007)] (ready plenty))) (fun t => t.bright == 7 && t.responses == [0] && !busy t) = true := by
  decide +kernel

/-- R190: reset two events into START: busy before it, the values of R191 after it, no response. -/
theorem test_reset_within :
    after (Sys2Proof.core.run 3 (given [.present (.cmd 0x100000), .quiet, .quiet, .rst] (ready plenty)))
      (fun t => t.seq == .running .start 2 && busy t && !cmdReady t && eventsSeen t == [.wr .clk true, .wr .dio true]) = true ∧
    after (Sys2Proof.core.run 4 (given [.present (.cmd 0x100000), .quiet, .quiet, .rst] (ready plenty)))
      (fun t => t.seq == .idle && t.trace == [] && t.responses == [] && !t.constructed && t.pinAt 24 == PinState.unknown) = true := by decide +kernel

/-! ### INIT: V40 to V48, V82, V83 -/

theorem test_init : eventsAfter (exec (.init 24 23) (fresh plenty)) = [.dir .clk .out, .dir .dio .out, .wr .clk true, .wr .dio true] := by decide +kernel

/-- V43: equal pins; nothing but the flags. -/
theorem test_init_equal_pins :
    exec (.init 5 5) (fresh plenty) = .next { fresh plenty with errSeen := true, lastErr := 1, responses := [1], rspValid := true } := rfl

/-- V83: the pins cannot be claimed at all. -/
theorem test_init_all_calls_fail :
    eventsAfter (exec (.init 24 23) (fresh (List.replicate 5 no))) =
      [.dirFailed .clk .out, .dirFailed .clk .out, .dirFailed .dio .out, .wrFailed .clk true, .wrFailed .dio true] := by decide +kernel

theorem test_init_when_constructed : exec (.init 24 23) (ready plenty) = .refused .alreadyConstructed := rfl

/-! ### SETB: V50 to V53, V49 -/

theorem test_setb_top : after (exec (.setb 7) (ready plenty)) (fun t => t.bright == 7 && t.trace == [] && t.responses == [0]) = true := by decide +kernel
theorem test_setb_out_of_range :
    after (exec (.setb 8) (ready plenty)) (fun t => t.bright == 2 && t.errSeen && t.lastErr == 1 && t.responses == [1]) = true := by decide +kernel
theorem test_setb_not_constructed : exec (.setb 2) (fresh plenty) = .refused .notConstructed := rfl

/-! ### SETL: V30, V66, V70, V80, V86 -/

/-- V30: indices of the reads and of the direction changes, the end state. -/
theorem test_setl_positions :
    [47, 103, 151, 207].all (fun k => (setlEvents Cfg.default 2 3)[k]? == some (.rd .dio)) = true ∧
    [44, 100, 148, 204].all (fun k => (setlEvents Cfg.default 2 3)[k]? == some (.dir .dio .in)) = true := by decide +kernel

/-- V68: the frames of SETL 7 at brightness 7. -/
theorem test_setl_frames :
    framesOf (eventsAfter (exec (.setl 7) { ready plenty with bright := 7 })) = some [[0x40], [0xC0, 0x7F], [0x8F]] := by decide +kernel

/-- V80: the read in the ack slot of the data byte fails (the 99th of the calls); the earlier sample stays; recovery; two frames seen. -/
theorem test_setl_failed_read :
    after (exec (.setl 3) (ready (List.replicate 98 (yes true) ++ [no] ++ List.replicate 4 (yes false))))
      (fun t => t.trace.length == 156 && t.lastAck && t.errSeen && t.lastErr == 2 && t.constructed && linesIdle t && t.responses == [2] &&
        framesOf (eventsSeen t) == some [[0x40], [0xC0, 0x07]]) = true := by decide +kernel

/-- V86: validation comes before the first call. -/
theorem test_setl_validates_first :
    after (exec (.setl 9) (ready (List.replicate 9 no))) (fun t => t.trace == [] && t.responses == [1] && t.answers.length == 9) = true := by
  decide +kernel

/-! ### RELEASE: V74, V84 -/

theorem test_release : after (exec .release (ready plenty)) (fun t => !t.constructed && linesIdle t && t.trace.length == 4 && t.responses == [0]) = true := by
  decide +kernel

theorem test_release_failed :
    after (exec .release (ready [yes false, yes false, no, yes false, yes false, yes false, yes false]))
      (fun t => !t.constructed && t.lastErr == 2 && t.trace.length == 7 && linesIdle t && t.responses == [2]) = true := by decide +kernel

/-! ### START, STOP, WRB: V31 to V36, V39, V85 -/

theorem test_start : eventsAfter (exec .start (ready plenty)) = [.wr .clk true, .wr .dio true, .wr .dio false, .wr .clk false] := by decide +kernel

/-- V39: a second START closes an empty frame and opens another. -/
theorem test_start_twice :
    framesOf (successEvents false (startEvents ++ startEvents)) = some [[]] := by decide +kernel

/-- V39b: STOP with no frame open. -/
theorem test_stop_no_frame :
    after (exec .stop (ready plenty)) (fun t => linesIdle t && framesOf (eventsSeen t) == some [] && t.responses == [0]) = true := by decide +kernel

/-- V22: 0x8A on the wire. -/
theorem test_wrb_bit_order : wireBits 0x8A = [false, true, false, true, false, false, false, true] := by decide

/-- V34: no acknowledgment is no error. -/
theorem test_wrb_no_ack :
    after (exec (.wrb 0xFF) (ready (List.replicate 30 (yes true)))) (fun t => t.lastAck && !t.errSeen && t.responses == [0] && t.trace.length == 48) = true := by
  decide +kernel

/-- V85: `dir(DIO,out)` fails after the sample (the 29th of the calls). -/
theorem test_wrb_failed_after_sample :
    after (exec (.wrb 0x8A) (ready (List.replicate 28 (yes true) ++ [no] ++ List.replicate 4 (yes false))))
      (fun t => t.lastAck && t.lastErr == 2 && t.trace.length == 51 && linesIdle t) = true := by decide +kernel

/-! ### Wire bytes: V20, R81 -/

theorem test_wDataCommand : eventsAfter (exec .wDataCommand (ready plenty)) = successEvents false (wrbEvents 0x40) := by decide +kernel
theorem test_wAddressCommand : eventsAfter (exec .wAddressCommand (ready plenty)) = successEvents false (wrbEvents 0xC0) := by decide +kernel
theorem test_wDisplayControl : eventsAfter (exec (.wDisplayControl 5) (ready plenty)) = successEvents false (wrbEvents 0x8D) := by decide +kernel
theorem test_wSegmentData : eventsAfter (exec (.wSegmentData 0x1F) (ready plenty)) = successEvents false (wrbEvents 0x1F) := by decide +kernel

/-! ### Status words: P1, P2 -/

theorem test_status : statusWord 0 { fresh [] with errSeen := true, lastErr := 1, trace := [⟨.rd .dio false, some 27⟩] } = 0x18 := by decide +kernel
theorem test_config : configWord 0 (ready []) = 0x17C2 := by decide +kernel

/-- R83: the request of `PinDir(DIO, in)`. -/
theorem test_gpio_request : gpioRequest (ready []) (.dir .dio .in) = ⟨0, some 23, some false⟩ := by decide +kernel

/-! ### LevelSource: V2, V6, V7, V92; the assembler: R85, R86; framing: R106, R195 -/

theorem test_lvlp : lvlp (124 / 10) = 0 ∧ lvlp (999 / 10) = 7 ∧ lvlp 100 = 7 ∧ lvlp (175 / 2) = 7 ∧ lvlp (25 / 2) = 1 := by decide +kernel
theorem test_lvlpRatio : [0, 12, 13, 24, 25, 50, 88, 100].map (fun n => lvlpRatio n 1) = [0, 0, 1, 1, 2, 4, 7, 7] := by decide

/-- R85's examples: decimal, hexadecimal, a negative operand, a comment. -/
theorem test_assemble :
    assembleLine Cfg.default "INIT    24, 23        ; two pins".toList = some [0x011718#24] ∧
    assembleLine Cfg.default "WRB 0x8A".toList = some [0x12008A#24] ∧
    assembleLine Cfg.default "SETL -1".toList = some [0x0300FF#24] := by decide +kernel

/-- R86: the second transaction of level 5, and a line that is no operation. -/
theorem test_assemble_macro :
    assembleLine Cfg.default "TXN2 5".toList = some [0x100000#24, 0x1200C0#24, 0x12001F#24, 0x110000#24] ∧
    assembleLine Cfg.default "SETL".toList = none ∧ assembleLine Cfg.default "  ; nothing".toList = some [] := by decide +kernel

theorem test_framed :
    framed none [.init 24 23, .start, .wrb 1, .wrb 2, .stop, .release] = true ∧ framed none [.start, .setl 3] = false ∧
    framed none [.start, .stop] = false := by decide

/-! ### For each obligation with hypotheses, states and operands that meet them -/

/-- An ill-formed configuration (93_implementation_defined.md U12). -/
def illFormed : Cfg := { Cfg.default with displayControl := 0x8A }

/-- The state after `INIT 24, 23`, its trace with it. -/
def initialized (as : List Answer) : State :=
  { ready as with trace := [⟨.dir .clk .out, some 24⟩, ⟨.dir .dio .out, some 23⟩, ⟨.wr .clk true, some 24⟩, ⟨.wr .dio true, some 23⟩] }

theorem test_meets_DecodeOfEncodeIsTheInstruction :
    (Instr.init (-128) 127).wellFormed = true ∧ (Instr.init (-128) 127).isHostOp = true ∧ (Instr.wDisplayControl 7).wellFormed = true := by decide

theorem test_meets_EncodeOfDecodeIsTheWord : decode illFormed (.wire .first 0xC0) = .ok .wAddressCommand := by decide

theorem test_meets_InvalidWordsAreRefused :
    (given [.present (.cmd 0x020102)] (ready [])).seq = .idle ∧
    decode (given [.present (.cmd 0x020102)] (ready [])).cfg (.cmd 0x020102) = .error (.fieldNotZero 0x02) := by decide

theorem test_meets_WireBytesAreClassifiedByPosition : decode Cfg.default (.wire .first 0x88) = .ok (.wDisplayControl 0) ∧ (0x8F : Byte) &&& 0xF8 = 0x88 := by decide

/-- An operation that is taken, one with an invalid operand, one refused; a fault needs a pin register no run has. -/
theorem test_meets_StepRunsTheDecodedInstruction :
    (given [.present (.cmd 0x040000), .rst] (ready [])).seq = .idle ∧ decode Cfg.default (.cmd 0x040000) = .ok .release ∧
    (∃ t, exec .release (given [.rst] (ready [])) = .next t) ∧ operandsValid .release = true ∧
    decode Cfg.default (.cmd 0x020008) = .ok (.setb 8) ∧ (∃ t, exec (.setb 8) (ready []) = .next t) ∧ operandsValid (.setb 8) = false ∧
    (∃ r, exec .release (fresh []) = .refused r) ∧ ∃ f, exec .release { ready [] with clkPin := 31 } = .fault f :=
  ⟨rfl, by decide, ⟨_, rfl⟩, rfl, by decide, ⟨_, rfl⟩, by decide, ⟨_, rfl⟩, _, rfl⟩

theorem test_meets_EngineWaitsForACommand :
    (ready []).seq = .idle ∧ (ready []).inbox = [] ∧ (given [.quiet, .rst] (ready [])).inbox = [.quiet, .rst] := by decide

theorem test_meets_HardwareResetArrivesAtAnyTime : (given [.rst] (during (.setl 3) 44 (ready []))).inbox = [.rst] := by decide

theorem test_meets_CommandWaitsWhileBusy :
    (given [.present (.cmd 0x020002)] (during .start 2 (ready []))).seq ≠ .idle ∧
    pinsLegal (given [.present (.cmd 0x020002)] (during .start 2 (ready []))) = true := by decide +kernel

/-- The first event, one that fails, and the end of an operation. -/
theorem test_meets_SequencerPerformsOneEventAStep :
    (during .start 0 (ready [no])).seq = .running .start 0 ∧ pinsLegal (during .start 0 (ready [no])) = true ∧
    (during .start 0 (ready [no])).inbox.head? ≠ some .rst ∧ (eventsOf Cfg.default 2 .start)[0]? = some (.wr .clk true) ∧
    (answerAt (during .start 0 (ready [no])) 0).fails = true ∧ (eventsOf Cfg.default 2 .start).length ≤ 4 ∧
    pinsLegal (during .start 4 (ready [])) = true := by decide +kernel

/-- The four calls of recovery and its end. -/
theorem test_meets_RecoveryPerformsOneCallAStep :
    pinsLegal { ready [no] with seq := .recovering .release 3 } = true ∧ idleSeq[3]? = some (.wr .dio true) ∧
    pinsLegal { ready [] with seq := .recovering .release 4 } = true ∧ (ready []).inbox.head? ≠ some .rst := by decide +kernel

/-- Taken with the host quiet and then presenting the next command; the shortest operation and INIT's edges. -/
theorem test_meets_SequencerStepsAmountToTheOperation :
    (∃ t, exec (.setb 7) (ready []) = .next t) ∧ operandsValid (.setb 7) = true ∧ (∃ t, exec (.init 0 27) (fresh []) = .next t) ∧
    operandsValid (.init 0 27) = true ∧ (ready []).seq = .idle ∧ decode Cfg.default (.cmd 0x020007) = .ok (.setb 7) ∧
    decode Cfg.default (.cmd 0x011B00) = .ok (.init 0 27) ∧
    (∀ k < 7, (afterSteps k [.quiet, .quiet, .present (.cmd 0)]).head? ≠ some .rst) :=
  ⟨⟨_, rfl⟩, by decide, ⟨_, rfl⟩, by decide, rfl, by decide, by decide, by decide⟩

/-- At the first and the last position of START. -/
theorem test_meets_OperationStandsAtEachEvent :
    (∃ t, exec .start (ready plenty) = .next t) ∧ operandsValid .start = true ∧ (ready plenty).seq = .idle ∧
    decode Cfg.default (.cmd 0x100000) = .ok .start ∧ 0 ≤ (eventsOf Cfg.default 2 .start).length ∧ (eventsOf Cfg.default 2 .start).length = 4 ∧
    NoFailure (ready plenty) (callsIn ((eventsOf Cfg.default 2 .start).take 4)) :=
  ⟨⟨_, rfl⟩, rfl, rfl, by decide, by decide, by decide, by decide +kernel⟩

theorem test_meets_OperationsAreGatedByConstructed :
    cfgOk (fresh []).cfg = true ∧ (fresh []).constructed = false ∧ (ready []).constructed = true ∧ pinsLegal (ready []) = true := by decide +kernel

theorem test_meets_IllFormedConfigurationIsRefused : cfgOk { ready [] with cfg := illFormed }.cfg = false := by decide

/-- The invariant of a state, evaluated. -/
def invHolds (s : State) : Bool :=
  cfgOk s.cfg && (!(s.constructed || busy s) || pinsLegal s) && decide (s.pins = replay s.trace) &&
    s.responses.all (fun r => r != errorCode .argument) &&
    (!s.errSeen || s.lastErr == errorCode .configuration || s.lastErr == errorCode .hardwareAccess) &&
    (s.errSeen || (s.lastErr == 0 && s.responses.all fun r => r == completedCode)) &&
    (s.errSeen || inRecovery s || s.trace.all fun e => !isFailure e.event)

theorem runInv_of_invHolds {s : State} (h : invHolds s = true) : RunInv s := by
  simp only [invHolds, Bool.and_eq_true, Bool.or_eq_true, Bool.not_eq_true', decide_eq_true_eq, List.all_eq_true, bne_iff_ne, beq_iff_eq,
    busy] at h
  obtain ⟨⟨⟨⟨⟨⟨h1, h2⟩, h3⟩, h4⟩, h5⟩, h6⟩, h7⟩ := h
  refine ⟨h1, fun hb => ?_, h3, h4, fun he => ?_, fun he => ?_, fun he hr => ?_⟩
  · cases hc : s.constructed <;> simp_all
  · simpa [he] using h5
  · simpa [he] using h6
  · simpa [he, hr] using h7

/-- A constructed engine with a command presented, and one in recovery, each with a next step. -/
theorem test_meets_EveryStepKeepsTheInvariant :
    (RunInv (given [.present (.cmd 0x030003)] (initialized plenty)) ∧ ∃ t, step (given [.present (.cmd 0x030003)] (initialized plenty)) = .next t) ∧
    RunInv { initialized [] with seq := .recovering .start 1, trace := (initialized []).trace ++ [⟨.wrFailed .clk true, some 24⟩] } ∧
    ∃ t, step { initialized [] with seq := .recovering .start 1, trace := (initialized []).trace ++ [⟨.wrFailed .clk true, some 24⟩] } = .next t :=
  ⟨⟨runInv_of_invHolds (by decide +kernel), _, rfl⟩, runInv_of_invHolds (by decide +kernel), _, rfl⟩

theorem test_meets_EveryOperationKeepsTheInvariant :
    RunInv (initialized plenty) ∧ (initialized plenty).seq = .idle ∧ ∃ t, exec (.setl 7) (initialized plenty) = .next t :=
  ⟨runInv_of_invHolds (by decide +kernel), rfl, _, rfl⟩

theorem test_meets_InvariantHoldsAtReset : cfgOk { Cfg.default with brightDefault := 7 } = true := by decide

/-- The three refusals of a run. -/
theorem test_meets_RunsStopOnlyAtRefusedCommands :
    RunInv (given [.present (.cmd 0)] (fresh [])) ∧ RunInv (given [.present (.cmd 0x100000)] (fresh [])) ∧
    RunInv (given [.present (.cmd 0x011718)] (initialized [])) :=
  ⟨runInv_of_invHolds (by decide +kernel), runInv_of_invHolds (by decide +kernel), runInv_of_invHolds (by decide +kernel)⟩

/-- The three ways an operation ends. -/
theorem test_meets_ErrorFlagsFollowTheResponses :
    (∃ t, exec .start (ready plenty) = .next t ∧ Responded (ready plenty) t completedCode) ∧
    (∃ t, exec (.setb 9) (ready plenty) = .next t ∧ Responded (ready plenty) t (errorCode .configuration)) ∧
    (∃ t, exec .start (ready (no :: plenty)) = .next t ∧ Responded (ready (no :: plenty)) t (errorCode .hardwareAccess)) :=
  ⟨⟨_, rfl, rfl, rfl, rfl⟩, ⟨_, rfl, rfl, rfl, rfl⟩, ⟨_, rfl, rfl, rfl, rfl⟩⟩

theorem test_meets_ErrorFlagsFollowTheResponses_sticking :
    ∃ t, step { ready [] with errSeen := true } = .next t ∧ { ready [] with errSeen := true }.inbox.head? ≠ some .rst := ⟨_, rfl, by decide⟩

/-- The invalid word whose opcode is no operation's, to an idle engine. -/
theorem test_meets_ArgumentErrorIsNeverAnswered_invalid :
    (given [.present (.cmd 0xFF0000)] (ready [])).seq = .idle ∧ (decode Cfg.default (.cmd 0xFF0000)).toOption.isNone = true := by decide

theorem test_meets_ArgumentErrorIsNeverAnswered : (∀ r ∈ { ready [] with responses := [0, 1, 2] }.responses, r ≠ errorCode .argument) ∧
    ∃ t, step { ready [] with responses := [0, 1, 2] } = .next t := ⟨by decide, _, rfl⟩

/-- Each cause of ConfigurationError at the edge of its range. -/
theorem test_meets_ConfigurationErrorHasTheseCauses :
    [Instr.init (-1) 3, .init 28 0, .init 0 (-1), .init 0 28, .init 5 5].all
      (fun i => after (exec i (fresh plenty)) fun t => t.responses == [1]) = true ∧
    [Instr.setb (-1), .setb 8, .setl (-1), .setl 8].all (fun i => after (exec i (ready plenty)) fun t => t.responses == [1]) = true := by
  decide +kernel

theorem test_meets_ConfigurationErrorWritesOnlyTheFlags :
    cfgOk (ready [no]).cfg = true ∧ (ready [no]).constructed = !isInit (.setl 8) ∧ (fresh [no]).constructed = !isInit (.init 28 0) := by decide

/-- START's third call fails; INIT's first. -/
theorem test_meets_FailedCallEndsTheOperationInRecovery :
    testsPass .start (ready [yes false, yes false, no]) = true ∧ pinsLegal (loadOperands .start (ready [yes false, yes false, no])) = true ∧
    eventsOf Cfg.default 2 .start = [.wr .clk true, .wr .dio true] ++ .wr .dio false :: [.wr .clk false] ∧
    NoFailure (ready [yes false, yes false, no]) (callsIn [.wr .clk true, .wr .dio true]) ∧
    (answerAt (ready [yes false, yes false, no]) (callsIn [.wr .clk true, .wr .dio true])).fails = true ∧
    testsPass (.init 27 0) (fresh [no]) = true ∧ pinsLegal (loadOperands (.init 27 0) (fresh [no])) = true := by decide +kernel

theorem test_meets_CallsMovePinsAsTheirEventsSay :
    pinsInSpace (ready [no]) = true ∧ failsNow (.wr .dio true) (ready [no]) = true ∧ failsNow (.rd .dio) (ready [yes true]) = false := by
  decide +kernel

/-- HardwareAccessError of INIT, of RELEASE and of START. -/
theorem test_meets_RegistersAfterHardwareAccessError :
    (∃ t, exec (.init 24 23) (fresh (no :: plenty)) = .next t ∧ Responded (fresh (no :: plenty)) t (errorCode .hardwareAccess)) ∧
    (∃ t, exec .release (ready (no :: plenty)) = .next t ∧ Responded (ready (no :: plenty)) t (errorCode .hardwareAccess)) ∧
    (∃ t, exec .start (ready (no :: plenty)) = .next t ∧ Responded (ready (no :: plenty)) t (errorCode .hardwareAccess)) :=
  ⟨⟨_, rfl, rfl, rfl, rfl⟩, ⟨_, rfl, rfl, rfl, rfl⟩, ⟨_, rfl, rfl, rfl, rfl⟩⟩

/-- A next state for the frame statements: an operation of each kind. -/
theorem test_meets_OperationsLeaveTheRestAlone :
    [Instr.setb 0, .setl 7, .release, .start, .stop, .wrb 0, .wDataCommand, .wAddressCommand, .wDisplayControl 7, .wSegmentData 0].all
      (fun i => after (exec i (ready plenty)) fun _ => true) = true ∧ after (exec (.init 0 27) (fresh plenty)) (fun _ => true) = true := by
  decide +kernel

/-- An operation whose first call fails. -/
theorem test_meets_EventsAreOnTheTwoPinsOnly : (∃ t, exec .start (ready (no :: plenty)) = .next t) := ⟨_, rfl⟩

theorem test_meets_NoStepWritesTheConfiguration : ∃ t, step (given [.rst] (ready [])) = .next t := ⟨_, rfl⟩

theorem test_meets_AcknowledgmentLevelsAreIgnored :
    (List.replicate 160 true).length = (ready plenty).answers.length ∧ after (exec (.wrb 0) (ready plenty)) (fun _ => true) = true := by decide +kernel

theorem test_meets_InitConstructsTheDriver : constructible (fresh plenty) = true ∧ NoFailure (fresh plenty) 4 ∧ (0 : Int) ≠ 27 := by decide +kernel

/-- SETB at both ends of both ranges. -/
theorem test_meets_SetbStoresTheBrightness : cfgOk (ready []).cfg = true ∧ (ready []).constructed = true ∧ ((0 : Int) ≤ 7 ∧ (7 : Int) ≤ 7) ∧ (-1 : Int) < 0 ∧ (7 : Int) < 8 := by
  decide

/-- Both ends of the level's range; the lines as INIT leaves them, and one pin an input. -/
theorem test_meets_SetlPerformsTheThreeTransactions :
    operational (ready plenty) = true ∧ NoFailure (ready plenty) 144 ∧ bothOut (ready plenty) = true ∧
    operational { ready plenty with pins := (ready plenty).pins.set 23 ⟨some .in, some false⟩ } = true ∧
    ((0 : Int) ≤ 0 ∧ (0 : Int) ≤ 7) ∧ ((0 : Int) ≤ 7 ∧ (7 : Int) ≤ 7) := by decide +kernel

theorem test_meets_SetlSendsExactlyThreeFrames :
    operational { ready plenty with bright := 7 } = true ∧ NoFailure { ready plenty with bright := 7 } 144 ∧ (0 : Int) ≤ 7 ∧ (7 : Int) ≤ 7 := by
  decide +kernel

theorem test_meets_SetlEqualsItsTransactionsSpelledOut :
    operational { ready plenty with bright := 0 } = true ∧ NoFailure { ready plenty with bright := 0 } 144 ∧ (0 : Int) ≤ 0 ∧ (0 : Int) ≤ 7 := by
  decide +kernel

/-- RELEASE with every call succeeding, and with every call failing. -/
theorem test_meets_ReleaseDiscardsTheDriver :
    operational (ready plenty) = true ∧ NoFailure (ready plenty) 4 ∧ operational (ready (List.replicate 5 no)) = true := by decide +kernel

theorem test_meets_OnlyFlagsSurviveReleaseAndInit :
    operational { ready plenty with errSeen := true, lastErr := 2 } = true ∧ NoFailure { ready plenty with errSeen := true, lastErr := 2 } 8 ∧
    ((0 : Int) ≤ 0 ∧ (0 : Int) ≤ 27) ∧ ((0 : Int) ≤ 27 ∧ (27 : Int) ≤ 27) ∧ (0 : Int) ≠ 27 := by decide +kernel

theorem test_meets_SetlSendsTheStoredBrightness :
    operational (ready plenty) = true ∧ NoFailure (ready plenty) 144 ∧ (0 : Int) ≤ 7 ∧ (7 : Int) ≤ 7 ∧
    update 7 (7 : BitVec 3).toNat = [.setb 7, .setl 7] := by decide +kernel

theorem test_meets_RepeatedSetlSendsIdenticalEvents :
    operational (ready (plenty ++ plenty)) = true ∧ NoFailure (ready (plenty ++ plenty)) 288 ∧ (0 : Int) ≤ 0 ∧ (0 : Int) ≤ 7 := by decide +kernel

/-- The last bit cell's index of each byte, and an index that is none. -/
theorem test_meets_LevelAndBrightnessAreIndependent :
    (∀ j < 8, 107 ≠ 108 + 5 * j) ∧ (∀ j < 3, 179 ≠ 164 + 5 * j) ∧ 7 < 8 := by decide

theorem test_meets_StartSendsTheStartCondition : operational (ready plenty) = true ∧ NoFailure (ready plenty) 4 := by decide +kernel

theorem test_meets_StopSendsTheStopCondition :
    operational (ready plenty) = true ∧ NoFailure (ready plenty) 4 ∧ bothOut (ready plenty) = true := by decide +kernel

theorem test_meets_WrbSendsTheByteAndSamplesTheAck : operational (ready plenty) = true ∧ NoFailure (ready plenty) 30 := by decide +kernel

/-- Each of the four wire bytes with the byte it is. -/
theorem test_meets_WireBytesAreSentAsTheirBytes :
    operational (ready plenty) = true ∧ NoFailure (ready plenty) 30 ∧ (ready plenty).cfg.dataCommand = 0x40 ∧
    (ready plenty).cfg.addressCommand = 0xC0 ∧ (ready plenty).cfg.displayControl ||| (7 : BitVec 3).setWidth 8 = 0x8F := by decide +kernel

/-- Every kind of operation after which the lines are idle, and those that leave the pins. -/
theorem test_meets_LinesAreIdleBetweenOperations :
    pinsLegal (ready plenty) = true ∧ bothOut (ready plenty) = true ∧ linesIdle (ready plenty) = true ∧ NoFailure (ready plenty) 144 ∧
    [Instr.setb 1, .setl 0, .release, .stop].all (fun i => after (exec i (ready plenty)) fun t => t.responses == [0] && pinsLegal t) = true ∧
    after (exec (.init 24 23) (fresh plenty)) (fun t => t.responses == [0] && pinsLegal t) = true ∧
    after (exec (.setl 8) (ready plenty)) (fun t => t.responses == [1]) = true := by decide +kernel

theorem test_meets_BitsGoOutLeastSignificantFirst : (wrbEvents 0x80)[5 * 7]? = some (.wr .dio true) ∧ 7 < 8 := by decide +kernel

theorem test_meets_RawFramesAreSentWhole :
    operational (ready plenty) = true ∧ bothOut (ready plenty) = true ∧ NoFailure (ready plenty) (8 + 30 * [0xC0#8, 0x7F#8].length) := by decide +kernel

theorem test_meets_ProcessRunEndsClean : constructible (fresh plenty) = true ∧ (fresh plenty).errSeen = false ∧ NoFailure (fresh plenty) 152 := by decide +kernel

theorem test_meets_AckIsReadFromTheReleasedLine : pinsLegal (ready plenty) = true ∧ NoFailure (ready plenty) 26 := by decide +kernel

/-- No operation; each kind of call at its place in WRB; no call left; the last call of recovery. -/
theorem test_meets_GpioPortRequestsTheNextCall :
    (ready []).seq = .idle ∧ (during (.wrb 0x80) 35 (ready [])).seq = .running (.wrb 0x80) 35 ∧
    (eventsOf Cfg.default 2 (.wrb 0x80))[35]? = some (.wr .dio true) ∧ (eventsOf Cfg.default 2 (.wrb 0x80))[37]? = some .dly ∧
    (eventsOf Cfg.default 2 (.wrb 0x80))[40]? = some (.dir .dio .in) ∧ (eventsOf Cfg.default 2 (.wrb 0x80))[43]? = some (.rd .dio) ∧
    (eventsOf Cfg.default 2 (.wrb 0x80))[48]? = none ∧ idleSeq[3]? = some (.wr .dio true) ∧ idleSeq[4]? = none := by decide +kernel

theorem test_meets_EventCounts : isInit (.init 0 27) = true ∧ (Instr.release = .release) := by decide

/-- The requests at those places, as 30_encoding.md R83 numbers them. -/
theorem test_gpio_port :
    gpioPort (during (.wrb 0x80) 35 (ready [])) = some ⟨1, some 23, some true⟩ ∧ gpioPort (during (.wrb 0x80) 37 (ready [])) = some ⟨3, none, none⟩ ∧
    gpioPort (during (.wrb 0x80) 43 (ready [])) = some ⟨2, some 23, none⟩ ∧ gpioPort (ready []) = none := by decide +kernel

/-- An operation that answers; a step that ends one; a waiting step, which adds no response. -/
theorem test_meets_ResponsePortPulses :
    (∃ t, exec .start (ready plenty) = .next t) ∧
    (∃ t, step (during (.setb 7) 0 (ready [])) = .next t ∧ (ready []).responses.length < t.responses.length) ∧
    ∃ t, step { ready [] with responses := [0], rspValid := true } = .next t ∧ t.responses.length ≤ [(0 : BitVec 2)].length :=
  ⟨⟨_, rfl⟩, ⟨_, rfl, by decide⟩, _, rfl, by decide⟩

theorem test_meets_StatusWordsShowTheRegisters :
    ackWritten { ready [] with trace := [⟨.rd .dio true, some 23⟩] } = true ∧ (ready []).constructed = true := by decide

/-- Of SegmentTableGrows and ControlByteCarriesTheBrightness: a table with eight bits at level 7. -/
theorem test_meets_WellFormedConfiguration : cfgOk { Cfg.default with seg := #v[0, 2, 6, 7, 0x87, 0xC7, 0xE7, 0xFF] } = true := by decide

theorem test_meets_LevelHasAnIntegerForm : 0 < 25 ∧ lvlpRatio 2500 25 = 7 := by decide

/-- LVLP at the ends of its domain and where two buckets meet. -/
theorem test_meets_LevelBucketsAreOfEqualWidth : (0 : ℚ) ≤ 0 ∧ (100 : ℚ) ≤ 100 ∧ (25 / 2 * 6 : ℚ) ≤ 75 ∧ ¬ (75 : ℚ) < 25 / 2 * 6 ∧ (175 / 2 : ℚ) ≤ 88 ∧ 0 < 1 := by
  decide +kernel

end Sys2Proof.Tests
end

section
/-! The gate before every operation, what a step does with an idle engine and one that runs, and from these the two scope statements: when an
operation or a step of a run is refused. -/

namespace Sys2Proof.Machine

/-! ### Every operation stands behind its gate -/

/-- What `exec` makes of an instruction once its gate is passed: ConfigurationError for operands out of range (60_exceptions.md R161), else
its events and its end. -/
def ungated (i : Instr) (s : State) : Host.Outcome State Fault Refusal :=
  if operandsValid i then
    if runsEvents i then runOp i (loadOperands i s) else .next (complete i (loadOperands i s))
  else .next (configurationError s)

/-- Every instruction is gated, INIT by `CONSTRUCTED = 0`, every other by `CONSTRUCTED = 1` (41_driver.md R132). -/
theorem exec_eq_gate (i : Instr) (s : State) : exec i s = gate (!isInit i) s (ungated i s) := by
  cases i <;> rfl

theorem exec_of_illFormed {i : Instr} {s : State} (hc : cfgOk s.cfg = false) :
    exec i s = .refused .illFormedConfiguration := by
  simp [exec_eq_gate, gate, hc]

theorem exec_of_notConstructed {i : Instr} {s : State} (hc : cfgOk s.cfg = true) (hi : isInit i = false)
    (hn : s.constructed = false) : exec i s = .refused .notConstructed := by
  simp [exec_eq_gate, gate, hc, hi, hn]

theorem exec_of_alreadyConstructed {i : Instr} {s : State} (hc : cfgOk s.cfg = true) (hi : isInit i = true)
    (hn : s.constructed = true) : exec i s = .refused .alreadyConstructed := by
  simp [exec_eq_gate, gate, hc, hi, hn]

/-! ### Past the gate there is a next state -/

/-- An operation whose tests pass runs on legal pins: INIT's own operands, else those of the constructed driver (10_state.md R23). -/
theorem loadOperands_pinsLegal {i : Instr} {s : State} (hp : PinsInv s) (hn : s.constructed = !isInit i)
    (hv : operandsValid i = true) : pinsLegal (loadOperands i s) = true := by
  cases hi : isInit i with
  | false =>
    rw [loadOperands_eq_self hi]
    exact hp (.inl (by simpa [hi] using hn))
  | true =>
    cases i with
    | init c d => exact loadInit_pinsLegal s hv
    | _ => cases hi

theorem ungated_total {i : Instr} {s : State} (h : operandsValid i = true → pinsInSpace (loadOperands i s) = true) :
    ∃ t, ungated i s = .next t := by
  unfold ungated
  split
  · next hv =>
    split
    · exact runOp_total (h hv)
    · exact ⟨_, rfl⟩
  · exact ⟨_, rfl⟩

/-- In a run an operation that `CONSTRUCTED` allows has a next state. -/
theorem exec_total {i : Instr} {s : State} (hc : cfgOk s.cfg = true) (hp : PinsInv s) (hn : s.constructed = !isInit i) :
    ∃ t, exec i s = .next t := by
  rw [exec_eq_gate, gate_of_pass hc hn]
  exact ungated_total fun hv => pinsInSpace_of_legal (loadOperands_pinsLegal hp hn hv)

/-! ### The step, by what the host presents -/

theorem takeStep_of_next {i : Instr} {s t : State} (h : exec i s = .next t) : ∃ u, takeStep i s = .next u := by
  simp [takeStep, h]

theorem takeStep_of_refused {i : Instr} {s : State} {r : Refusal} (h : exec i s = .refused r) : takeStep i s = .refused r := by
  simp [takeStep, h]

/-- Reset acts whatever the engine does (70_reset_and_hazards.md R190). -/
theorem step_rst {s : State} {rest : List HostInput} (hi : s.inbox = .rst :: rest) :
    step s = .next (hardReset (s.setInbox rest)) := by
  simp [step, fetch, hi]

theorem step_idle_nil {s : State} (hs : s.seq = .idle) (hi : s.inbox = []) : step s = .next (waitStep (s.setInbox [])) := by
  simp [step, fetch, hi, busy, hs]

theorem step_idle_quiet {s : State} {rest : List HostInput} (hs : s.seq = .idle) (hi : s.inbox = .quiet :: rest) :
    step s = .next (waitStep (s.setInbox rest)) := by
  simp [step, fetch, hi, busy, hs]

/-- A word that encodes no operation has no step (30_encoding.md R74). -/
theorem step_invalid {s : State} {c : Code} {rest : List HostInput} {e : DecodeError} (hs : s.seq = .idle)
    (hi : s.inbox = .present c :: rest) (hd : decode s.cfg c = .error e) : step s = .refused (.invalidWord e) := by
  simp [step, fetch, hi, busy, hs, taskOfCode, hd]

/-- In a run an engine that is busy has a next state, whatever the host presents: the pins of its operation are legal. -/
theorem step_total_of_busy {s : State} (hp : PinsInv s) (hs : s.seq ≠ .idle) : ∃ t, step s = .next t := by
  by_cases hr : s.inbox.head? = some .rst
  · obtain ⟨rest, hi⟩ := List.head?_eq_some_iff.1 hr
    exact ⟨_, step_rst hi⟩
  · exact ⟨_, step_running hs (.inl (pinsInSpace_of_legal (hp (.inr hs)))) hr⟩

/-- In a run the operation presented to an idle engine is taken or over at once, or `CONSTRUCTED` forbids it (41_driver.md R132). -/
theorem step_presented_cases {s : State} {c : Code} {i : Instr} {rest : List HostInput} (hc : cfgOk s.cfg = true) (hp : PinsInv s)
    (hs : s.seq = .idle) (hi : s.inbox = .present c :: rest) (hd : decode s.cfg c = .ok i) :
    (∃ t, step s = .next t) ∨
    (isInit i = false ∧ s.constructed = false ∧ step s = .refused .notConstructed) ∨
    (isInit i = true ∧ s.constructed = true ∧ step s = .refused .alreadyConstructed) := by
  rw [step_present hs hi hd]
  by_cases hn : s.constructed = !isInit i
  · obtain ⟨t, ht⟩ := exec_total (s := s.setInbox rest) hc hp hn
    exact .inl (takeStep_of_next ht)
  · cases hin : isInit i with
    | false =>
      have hcon : s.constructed = false := by simpa [hin] using hn
      exact .inr (.inl ⟨rfl, hcon, takeStep_of_refused (exec_of_notConstructed hc hin hcon)⟩)
    | true =>
      have hcon : s.constructed = true := by simpa [hin] using hn
      exact .inr (.inr ⟨rfl, hcon, takeStep_of_refused (exec_of_alreadyConstructed hc hin hcon)⟩)

/-! ### The scope statements -/

/-- Settles O14: the configuration is the first test of the gate before every operation. -/
theorem illFormedConfigurationIsRefused : Obligations.IllFormedConfigurationIsRefused :=
  fun _ _ hc => exec_of_illFormed hc

/-- Settles O17: a busy engine, hardware reset and waiting always have a next state, by the legal pins of the invariant; what is left is a
word presented to an idle engine, by what it decodes to. -/
theorem runsStopOnlyAtRefusedCommands : Obligations.RunsStopOnlyAtRefusedCommands := by
  rintro s ⟨hc, hp, -, -⟩
  by_cases hs : s.seq = .idle
  · rcases hi : s.inbox with _ | ⟨_ | _ | c, rest⟩
    · exact .inl ⟨_, step_idle_nil hs hi⟩
    · exact .inl ⟨_, step_rst hi⟩
    · exact .inl ⟨_, step_idle_quiet hs hi⟩
    · cases hd : decode s.cfg c with
      | error e => exact .inr ⟨hs, c, rest, rfl, .inl ⟨e, hd, step_invalid hs hi hd⟩⟩
      | ok i =>
        obtain ht | ⟨hin, hcon, hr⟩ | ⟨hin, hcon, hr⟩ := step_presented_cases hc hp hs hi hd
        · exact .inl ht
        · exact .inr ⟨hs, c, rest, rfl, .inr (.inl ⟨i, hd, hin, hcon, hr⟩)⟩
        · exact .inr ⟨hs, c, rest, rfl, .inr (.inr ⟨i, hd, hin, hcon, hr⟩)⟩
  · exact .inl (step_total_of_busy hp hs)

end Sys2Proof.Machine
end

section
/-! The sequencer's step, said once by `SEQ`: its equations, what it can come to, and what it leaves alone. -/

namespace Sys2Proof.Machine

/-! ### The sequencer's step, by `SEQ` -/

theorem seqStep_event {s : State} {i : Instr} {k : Nat} {p : Prim} (hs : s.seq = .running i k)
    (hp : (eventsOf s.cfg s.bright i)[k]? = some p) :
    seqStep s = (perform p s).goto (if failsNow p s then .recovering i 0 else .running i (k + 1)) := by
  simp [seqStep, hs, hp]

theorem seqStep_end {s : State} {i : Instr} {k : Nat} (hs : s.seq = .running i k)
    (hp : (eventsOf s.cfg s.bright i)[k]? = none) : seqStep s = complete i s := by
  simp only [seqStep, hs, hp]

theorem seqStep_recovery {s : State} {i : Instr} {k : Nat} {p : Prim} (hs : s.seq = .recovering i k)
    (hp : idleSeq[k]? = some p) : seqStep s = (perform p s).goto (.recovering i (k + 1)) := by
  simp only [seqStep, hs, hp]

theorem seqStep_abandon {s : State} {i : Instr} {k : Nat} (hs : s.seq = .recovering i k) (hp : idleSeq[k]? = none) :
    seqStep s = abandon i s := by
  simp only [seqStep, hs, hp]

/-- What a step of a running operation does: the next event, the end, a call of recovery, or the end of recovery. -/
theorem seqStep_cases {s : State} (hs : s.seq ≠ .idle) :
    (∃ i k p, s.seq = .running i k ∧
      seqStep s = (perform p s).goto (if failsNow p s then .recovering i 0 else .running i (k + 1))) ∨
    (∃ i k, s.seq = .running i k ∧ seqStep s = complete i s) ∨
    (∃ i k p, s.seq = .recovering i k ∧ seqStep s = (perform p s).goto (.recovering i (k + 1))) ∨
    (∃ i k, s.seq = .recovering i k ∧ seqStep s = abandon i s) := by
  cases h : s.seq with
  | idle => exact absurd h hs
  | running i k =>
    cases hp : (eventsOf s.cfg s.bright i)[k]? with
    | some p => exact .inl ⟨i, k, p, rfl, seqStep_event h hp⟩
    | none => exact .inr (.inl ⟨i, k, rfl, seqStep_end h hp⟩)
  | recovering i k =>
    cases hp : idleSeq[k]? with
    | some p => exact .inr (.inr (.inl ⟨i, k, p, rfl, seqStep_recovery h hp⟩))
    | none => exact .inr (.inr (.inr ⟨i, k, rfl, seqStep_abandon h hp⟩))

/-- For what does not depend on the position: one call with the operation still running, or an end with its response. -/
theorem seqStep_call_or_end {s : State} (hs : s.seq ≠ .idle) :
    (∃ p q, q ≠ .idle ∧ seqStep s = (perform p s).goto q) ∨
    (∃ i, seqStep s = complete i s ∨ seqStep s = abandon i s) := by
  obtain ⟨i, k, p, -, h⟩ | ⟨i, k, -, h⟩ | ⟨i, k, p, -, h⟩ | ⟨i, k, -, h⟩ := seqStep_cases hs
  · exact .inl ⟨p, _, by split <;> simp, h⟩
  · exact .inr ⟨i, .inl h⟩
  · exact .inl ⟨p, _, by simp, h⟩
  · exact .inr ⟨i, .inr h⟩

/-! ### What the sequencer's step leaves alone -/

theorem seqStep_pinRegs {s : State} (hs : s.seq ≠ .idle) :
    (seqStep s).clkPin = s.clkPin ∧ (seqStep s).dioPin = s.dioPin := by
  obtain ⟨p, q, -, h⟩ | ⟨i, h | h⟩ := seqStep_call_or_end hs <;> rw [h]
  · exact ⟨(perform_engineKept p s).clkPin, (perform_engineKept p s).dioPin⟩
  · obtain ⟨-, hc, hd, -⟩ := complete_kept i s
    exact ⟨hc, hd⟩
  · obtain ⟨-, -, hc, hd, -⟩ := abandon_kept i s
    exact ⟨hc, hd⟩

/-- The sequencer ends an operation exactly where it answers: no response while the operation goes on, one and an idle engine at its end. -/
theorem seqStep_response {s : State} (hs : s.seq ≠ .idle) :
    ((seqStep s).seq ≠ .idle ∧ (seqStep s).responses = s.responses ∧ (seqStep s).rspValid = false) ∨
    ∃ c, Responded s (seqStep s) c := by
  obtain ⟨p, q, hq, h⟩ | ⟨i, h | h⟩ := seqStep_call_or_end hs <;> rw [h]
  · exact .inl ⟨hq, (perform_engineKept p s).responses, rfl⟩
  · exact .inr ⟨_, complete_responded i s⟩
  · exact .inr ⟨_, abandon_responded i s⟩

/-- No operation clears `ERR_SEEN` (10_state.md R26). -/
theorem seqStep_errSeen {s : State} (hs : s.seq ≠ .idle) (he : s.errSeen = true) : (seqStep s).errSeen = true := by
  obtain ⟨p, q, -, h⟩ | ⟨i, h | h⟩ := seqStep_call_or_end hs <;> rw [h]
  · exact (perform_engineKept p s).errSeen.trans he
  · exact (complete_flagsKept i s).1.trans he
  · exact (abandon_flagged i s).1

end Sys2Proof.Machine
end

section
/-! The invariant of a run: each part of it across the operations a step is made of, and from these across every step. -/

namespace Sys2Proof.Machine

/-! ### Legal pins and the replay of the trace -/

theorem PinsInv.of_regs {s t : State} (hl : pinsLegal s = true) (hc : t.clkPin = s.clkPin) (hd : t.dioPin = s.dioPin) : PinsInv t :=
  fun _ => (pinsLegal_congr hc hd).trans hl

theorem ReplayInv.of_kept {s t : State} (h : ReplayInv s) (ht : t.trace = s.trace) (hp : t.pins = s.pins) : ReplayInv t := by
  unfold ReplayInv at *
  rw [ht, hp, h]

/-! ### The flags -/

/-- An operation that ends in an error the engine raises: `ERR_SEEN` is set, so only the codes are left to look at. -/
theorem FlagsInv.of_flagged {s t : State} {k : ErrorKind} (h : FlagsInv s) (hr : Responded s t (errorCode k)) (hf : Flagged t k)
    (hk : k = .configuration ∨ k = .hardwareAccess) : FlagsInv t := by
  obtain ⟨hresp, -, -⟩ := hr
  obtain ⟨hseen, hlast⟩ := hf
  obtain ⟨harg, -⟩ := h
  have hcode : errorCode k ≠ errorCode .argument := by rcases hk with rfl | rfl <;> decide
  refine ⟨?_, fun _ => ?_, fun he => ?_, fun he => ?_⟩
  · rw [hresp]
    simpa [or_imp, forall_and] using ⟨harg, hcode⟩
  · exact hlast ▸ hk.imp (congrArg errorCode) (congrArg errorCode)
  · simp [hseen] at he
  · simp [hseen] at he

/-- An operation that completes: one more response 0, and no failed call since the run began if no error was seen. -/
theorem FlagsInv.of_completed {s t : State} (h : FlagsInv s) (hr : Responded s t completedCode) (hf : FlagsKept s t)
    (ht : t.trace = s.trace) (hn : inRecovery s = false) : FlagsInv t := by
  obtain ⟨hresp, -, -⟩ := hr
  obtain ⟨hseen, hlast⟩ := hf
  obtain ⟨harg, hcode, hzero, hclean⟩ := h
  unfold FlagsInv
  rw [hresp, hseen, hlast, ht]
  refine ⟨?_, hcode, fun he => ⟨(hzero he).1, ?_⟩, fun he _ => hclean he hn⟩
  · simpa [or_imp, forall_and] using ⟨harg, show completedCode ≠ errorCode .argument by decide⟩
  · simpa [or_imp, forall_and] using (hzero he).2

/-- Nothing is answered: the trace may grow, by a failed call only into recovery. -/
theorem FlagsInv.of_pending {s t : State} (h : FlagsInv s) (hr : t.responses = s.responses) (hf : FlagsKept s t)
    (hc : inRecovery t = false → inRecovery s = false ∧ ∃ new, t.trace = s.trace ++ new ∧ ∀ e ∈ new, isFailure e.event = false) :
    FlagsInv t := by
  obtain ⟨hseen, hlast⟩ := hf
  obtain ⟨harg, hcode, hzero, hclean⟩ := h
  unfold FlagsInv
  rw [hr, hseen, hlast]
  refine ⟨harg, hcode, hzero, fun he hn e hm => ?_⟩
  obtain ⟨hs, new, ht, hnew⟩ := hc hn
  rw [ht, List.mem_append] at hm
  exact hm.elim (hclean he hs e) (hnew e)

/-- The event of a call that did not fail is no failure. -/
theorem isFailure_eventOf {p : Prim} {s : State} (h : failsNow p s = false) : isFailure (eventOf p (nextAnswer s)) = false := by
  cases p with
  | dly => rfl
  | _ =>
    have hf : (nextAnswer s).fails = false := by simpa [failsNow, isDelay] using h
    simp [eventOf, hf, isFailure]

/-! ### The invariant, operation by operation -/

theorem runInv_resetUnder {c : Cfg} (hc : cfgOk c = true) : RunInv (resetUnder c) := by
  refine ⟨hc, fun h => ?_, rfl, ?_⟩
  · simp [resetUnder] at h
  · simp [FlagsInv, resetUnder]

/-- Hardware reset starts a new run; what it keeps of the old state the invariant does not speak of. -/
theorem runInv_hardReset {s : State} (h : RunInv s) : RunInv (hardReset s) :=
  runInv_resetUnder h.1

theorem runInv_setInbox {s : State} (h : RunInv s) (l : List HostInput) : RunInv (s.setInbox l) := h

theorem runInv_waitStep {s : State} (h : RunInv s) (hs : s.seq = .idle) : RunInv (waitStep s) := by
  obtain ⟨hc, hp, hr, hf⟩ := h
  refine ⟨hc, fun hb => hp (.inl (by simpa [waitStep] using hb)), hr, hf.of_pending rfl ⟨rfl, rfl⟩ fun _ => ⟨?_, [], ?_, ?_⟩⟩
  · simp [inRecovery, hs]
  · simp [waitStep]
  · simp

/-- ConfigurationError writes the two flags and answers (60_exceptions.md R166). -/
theorem runInv_configurationError {s : State} (h : RunInv s) : RunInv (configurationError s) := by
  obtain ⟨hc, hp, hr, hf⟩ := h
  exact ⟨hc, fun hb => hp (.inl (by simpa [configurationError] using hb)), hr.of_kept rfl rfl,
    hf.of_flagged (k := .configuration) ⟨rfl, rfl, rfl⟩ ⟨rfl, rfl⟩ (.inl rfl)⟩

/-- Taking an operation whose tests passed makes its pins the registers' (10_state.md R23). -/
theorem runInv_accept {i : Instr} {s : State} (h : RunInv s) (hs : s.seq = .idle) (hn : s.constructed = !isInit i)
    (hv : operandsValid i = true) : RunInv (accept i s) := by
  obtain ⟨hc, hp, hr, hf⟩ := h
  obtain ⟨hcfg, htrace, hpins, hresp, hflags, -⟩ := loadOperands_kept i s
  refine ⟨(congrArg cfgOk hcfg).trans hc, .of_regs (loadOperands_pinsLegal hp hn hv) rfl rfl, hr.of_kept htrace hpins,
    hf.of_pending hresp hflags fun _ => ⟨?_, [], ?_, ?_⟩⟩
  · simp [inRecovery, hs]
  · simp [accept, htrace]
  · simp

/-- One call of a running operation, or of recovery: a failed call of the operation leads into recovery. -/
theorem runInv_call {s : State} {p : Prim} {q : Seq} (h : RunInv s) (hs : s.seq ≠ .idle)
    (hq : inRecovery (s.goto q) = false → inRecovery s = false ∧ failsNow p s = false) : RunInv ((perform p s).goto q) := by
  obtain ⟨hc, hp, hr, hf⟩ := h
  have hk := perform_engineKept p s
  refine ⟨(congrArg cfgOk hk.cfg).trans hc, .of_regs (hp (.inr hs)) hk.clkPin hk.dioPin,
    (perform_replay hr).of_kept rfl rfl, hf.of_pending hk.responses ⟨hk.errSeen, hk.lastErr⟩ fun hn => ?_⟩
  obtain ⟨hs, hfail⟩ := hq hn
  exact ⟨hs, _, perform_trace p s, by simpa using isFailure_eventOf hfail⟩

theorem runInv_complete {i : Instr} {s : State} (h : RunInv s) (hs : s.seq ≠ .idle) (hn : inRecovery s = false) :
    RunInv (complete i s) := by
  obtain ⟨hc, hp, hr, hf⟩ := h
  obtain ⟨hcfg, hclk, hdio, -, htrace, hpins, -⟩ := complete_kept i s
  exact ⟨(congrArg cfgOk hcfg).trans hc, .of_regs (hp (.inr hs)) hclk hdio, hr.of_kept htrace hpins,
    hf.of_completed (complete_responded i s) (complete_flagsKept i s) htrace hn⟩

theorem runInv_abandon {i : Instr} {s : State} (h : RunInv s) (hs : s.seq ≠ .idle) : RunInv (abandon i s) := by
  obtain ⟨hc, hp, hr, hf⟩ := h
  obtain ⟨hcfg, -, hclk, hdio, -, htrace, hpins, -⟩ := abandon_kept i s
  exact ⟨(congrArg cfgOk hcfg).trans hc, .of_regs (hp (.inr hs)) hclk hdio, hr.of_kept htrace hpins,
    hf.of_flagged (abandon_responded i s) (abandon_flagged i s) (.inr rfl)⟩

/-! ### The invariant, step by step -/

theorem runInv_seqStep {s : State} (h : RunInv s) (hs : s.seq ≠ .idle) : RunInv (seqStep s) := by
  obtain ⟨i, k, p, hq, he⟩ | ⟨i, k, hq, he⟩ | ⟨i, k, p, hq, he⟩ | ⟨i, k, hq, he⟩ := seqStep_cases hs <;> rw [he]
  · refine runInv_call h hs fun hn => ⟨by simp [inRecovery, hq], ?_⟩
    cases hf : failsNow p s
    · rfl
    · simp [hf, inRecovery] at hn
  · exact runInv_complete h hs (by simp [inRecovery, hq])
  · exact runInv_call h hs fun hn => by simp [inRecovery] at hn
  · exact runInv_abandon h hs

theorem runInv_takeStep {i : Instr} {s t : State} (h : RunInv s) (hs : s.seq = .idle) (ht : takeStep i s = .next t) : RunInv t := by
  obtain ⟨u, hu, ⟨hv, rfl⟩ | ⟨-, rfl, rfl⟩⟩ := takeStep_next ht
  · obtain ⟨-, hn, -⟩ := exec_next hu
    exact runInv_accept h hs hn hv
  · exact runInv_configurationError h

/-- Settles O15, by the cases of a step: hardware reset, the sequencer's step, waiting, and an operation presented. -/
theorem everyStepKeepsTheInvariant : Obligations.EveryStepKeepsTheInvariant := by
  intro s t h ht
  obtain ⟨rest, -, rfl⟩ | ⟨hs, -, -, rfl⟩ | ⟨hs, -, rfl⟩ | ⟨hs, c, rest, i, -, -, hi⟩ := step_next ht
  · exact runInv_hardReset (runInv_setInbox h rest)
  · exact runInv_seqStep (runInv_setInbox h _) hs
  · exact runInv_waitStep (runInv_setInbox h _) hs
  · exact runInv_takeStep (runInv_setInbox h rest) hs hi

end Sys2Proof.Machine
end

section
/-! The sequencer at work: runs of its steps, and that they amount to the operation (10_state.md R20, R27; 40_transport.md R100). -/

namespace Sys2Proof.Machine

/-! ### Runs of the sequencer -/

/-- `n` steps of the sequencer lead from `s` to `t`, an operation running before each of them. -/
def SeqRun : Nat → State → State → Prop
  | 0, s, t => s = t
  | n + 1, s, t => s.seq ≠ .idle ∧ SeqRun n (seqStep s) t

theorem SeqRun.one {s : State} (hs : s.seq ≠ .idle) : SeqRun 1 s (seqStep s) := ⟨hs, rfl⟩

theorem SeqRun.trans {m n : Nat} {s t u : State} (h : SeqRun m s t) (k : SeqRun n t u) : SeqRun (m + n) s u := by
  induction m generalizing s with
  | zero => obtain rfl : s = t := h; simpa using k
  | succ m ih =>
    rw [Nat.succ_add]
    exact ⟨h.1, ih h.2⟩

/-- Before the last of its steps a run stands in a state where the operation still runs. -/
theorem SeqRun.before {m n : Nat} {s t : State} (h : SeqRun n s t) (hm : m < n) : ∃ u, SeqRun m s u ∧ u.seq ≠ .idle := by
  induction m generalizing n s with
  | zero => cases n with
    | zero => omega
    | succ n => exact ⟨s, rfl, h.1⟩
  | succ m ih => cases n with
    | zero => omega
    | succ n =>
      obtain ⟨u, hu, hb⟩ := ih h.2 (by omega)
      exact ⟨u, ⟨h.1, hu⟩, hb⟩

/-- An induction over the steps of a run, once: what every step of a running operation keeps, the run keeps. -/
theorem SeqRun.keeps {P : State → Prop} (hstep : ∀ s, s.seq ≠ .idle → P s → P (seqStep s)) {n : Nat} {s t : State}
    (h : SeqRun n s t) (hs : P s) : P t := by
  induction n generalizing s with
  | zero => exact h ▸ hs
  | succ n ih => exact ih h.2 (hstep s h.1 hs)

/-- While the operation still runs nothing has been answered. -/
theorem SeqRun.responses {n : Nat} {s t : State} (h : SeqRun n s t) (ht : t.seq ≠ .idle) : t.responses = s.responses := by
  have key : t.seq = .idle ∨ t.responses = s.responses := by
    refine h.keeps (P := fun u => u.seq = .idle ∨ u.responses = s.responses) (fun u hu hr => ?_) (.inr rfl)
    obtain ⟨-, he, -⟩ | ⟨c, -, -, hi⟩ := seqStep_response hu
    · exact .inr (he.trans (hr.resolve_left hu))
    · exact .inl hi
  exact key.resolve_left ht

/-! ### The machine's steps over a run of the sequencer -/

/-- No call of the state's operation can be on a pin number outside the pin space (assumption log 10). -/
def Steppable (s : State) : Prop := pinsInSpace s = true ∨ pendingPrim s = none

/-- An operation with no call left ends. -/
theorem pendingPrim_seqStep_of_none {s : State} (h : pendingPrim s = none) : pendingPrim (seqStep s) = none := by
  cases hs : s.seq with
  | idle => simp [seqStep, hs, h]
  | running i k =>
    rw [pendingPrim, hs] at h
    obtain ⟨-, -, hi⟩ := complete_responded i s
    rw [seqStep_end hs h, pendingPrim, hi]
  | recovering i k =>
    rw [pendingPrim, hs] at h
    obtain ⟨-, -, hi⟩ := abandon_responded i s
    rw [seqStep_abandon hs h, pendingPrim, hi]

theorem Steppable.seqStep {s : State} (hs : s.seq ≠ .idle) (h : Steppable s) : Steppable (seqStep s) := by
  obtain ⟨hc, hd⟩ := seqStep_pinRegs hs
  exact h.imp (pinsInSpace_congr hc hd).trans pendingPrim_seqStep_of_none

/-- A call commutes with an update of what calls neither read nor write. -/
theorem perform_comm {f : State → State} (hrecord : ∀ s e, (f s).record e = f (s.record e))
    (hdrop : ∀ s, (f s).dropAnswer = f s.dropAnswer) (hanswer : ∀ s, nextAnswer (f s) = nextAnswer s)
    (heffect : ∀ p a s, effect p a (f s) = f (effect p a s)) (hpin : ∀ p s, requestPin (f s) p = requestPin s p) (p : Prim) (s : State) :
    perform p (f s) = f (perform p s) := by
  simp only [perform, hanswer, heffect, hpin]
  split
  · exact hrecord s _
  · split <;> rw [hdrop, hrecord]

/-- The sequencer does not look at the host's inputs. -/
theorem perform_setInbox (p : Prim) (s : State) (l : List HostInput) :
    perform p (s.setInbox l) = (perform p s).setInbox l :=
  perform_comm (f := (·.setInbox l)) (fun _ _ => rfl) (fun _ => rfl) (fun _ => rfl) (fun p _ _ => by cases p <;> rfl)
    (fun p _ => by cases p <;> rfl) p s

/-- A call does not look at `SEQ`. -/
theorem perform_goto (p : Prim) (s : State) (q : Seq) : perform p (s.goto q) = (perform p s).goto q :=
  perform_comm (f := (·.goto q)) (fun _ _ => rfl) (fun _ => rfl) (fun _ => rfl) (fun p _ _ => by cases p <;> rfl)
    (fun p _ => by cases p <;> rfl) p s

theorem goto_goto (s : State) (q q' : Seq) : (s.goto q).goto q' = s.goto q' := rfl

theorem complete_setInbox (i : Instr) (s : State) (l : List HostInput) :
    complete i (s.setInbox l) = (complete i s).setInbox l := by cases i <;> rfl

theorem abandon_setInbox (i : Instr) (s : State) (l : List HostInput) :
    abandon i (s.setInbox l) = (abandon i s).setInbox l := by cases i <;> rfl

theorem seqStep_setInbox (s : State) (l : List HostInput) : seqStep (s.setInbox l) = (seqStep s).setInbox l := by
  cases hs : s.seq with
  | idle => simp [seqStep, hs]
  | running i k =>
    cases hp : (eventsOf s.cfg s.bright i)[k]? with
    | some p =>
      rw [seqStep_event hs hp, seqStep_event (s := s.setInbox l) hs hp, perform_setInbox]
      rfl
    | none => rw [seqStep_end hs hp, seqStep_end (s := s.setInbox l) hs hp, complete_setInbox]
  | recovering i k =>
    cases hp : idleSeq[k]? with
    | some p =>
      rw [seqStep_recovery hs hp, seqStep_recovery (s := s.setInbox l) hs hp, perform_setInbox]
      rfl
    | none => rw [seqStep_abandon hs hp, seqStep_abandon (s := s.setInbox l) hs hp, abandon_setInbox]

/-- Unless hardware reset comes, the machine's steps while an operation runs are the sequencer's, and the host's quiet moments pass with
them. -/
theorem run_of_seqRun {n : Nat} {s t : State} {l : List HostInput} (h : SeqRun n s t) (hp : Steppable s)
    (hl : ∀ k < n, (afterSteps k l).head? ≠ some .rst) :
    Sys2Proof.core.run n (s.setInbox l) = .next (t.setInbox (afterSteps n l)) := by
  induction n generalizing s l with
  | zero => obtain rfl : s = t := h; simp [Host.Core.run]
  | succ n ih =>
    have hstep : Sys2Proof.core.step (s.setInbox l) = .next ((seqStep s).setInbox (afterSteps 1 l)) := by
      rw [← seqStep_setInbox]
      exact step_running h.1 hp (by simpa using hl 0 (by omega))
    rw [run_succ _ _ hstep, ih h.2 (hp.seqStep h.1), afterSteps_succ]
    intro k hk
    rw [afterSteps_succ]
    exact hl (k + 1) (by omega)

/-! ### The sequencer performs an operation -/

theorem complete_goto (i : Instr) (s : State) (q : Seq) : complete i (s.goto q) = complete i s := by cases i <;> rfl

theorem abandon_goto (i : Instr) (s : State) (q : Seq) : abandon i (s.goto q) = abandon i s := by cases i <;> rfl

/-- Events that do not fail are performed one a step: from behind `pre` the sequencer comes to stand behind `pre ++ ps`. -/
theorem seqRun_performs {i : Instr} {s : State} {pre ps post : List Prim}
    (he : eventsOf s.cfg s.bright i = pre ++ ps ++ post) (hn : NoFailure s (callsIn ps)) :
    SeqRun ps.length (s.goto (.running i pre.length)) ((performAll ps s).goto (.running i (pre.length + ps.length))) := by
  induction ps generalizing s pre with
  | nil => rfl
  | cons p ps ih =>
    obtain ⟨hp, hs⟩ := hn.cons
    have hk := perform_engineKept p s
    have hstep : seqStep (s.goto (.running i pre.length)) = (perform p s).goto (.running i (pre ++ [p]).length) := by
      rw [seqStep_event (p := p) rfl (by simp [he]), perform_goto, goto_goto]
      simp [show failsNow p (s.goto (.running i pre.length)) = failsNow p s from rfl, hp]
    refine ⟨by simp, ?_⟩
    rw [hstep]
    have := ih (s := perform p s) (pre := pre ++ [p]) (by rw [hk.cfg, hk.bright, he]; simp) hs
    simpa [performAll_cons, Nat.add_comm, Nat.add_left_comm] using this

/-- Recovery attempts its calls one a step, failing or not (60_exceptions.md R167). -/
theorem seqRun_recovers {i : Instr} {s : State} {pre ps post : List Prim} (he : idleSeq = pre ++ ps ++ post) :
    SeqRun ps.length (s.goto (.recovering i pre.length)) ((performAll ps s).goto (.recovering i (pre.length + ps.length))) := by
  induction ps generalizing s pre with
  | nil => rfl
  | cons p ps ih =>
    have hstep : seqStep (s.goto (.recovering i pre.length)) = (perform p s).goto (.recovering i (pre ++ [p]).length) := by
      rw [seqStep_recovery (p := p) rfl (by simp [he]), perform_goto, goto_goto]
      simp
    refine ⟨by simp, ?_⟩
    rw [hstep]
    have := ih (s := perform p s) (pre := pre ++ [p]) (by rw [he]; simp)
    simpa [performAll_cons, Nat.add_comm, Nat.add_left_comm] using this

/-- Recovery from its first call to the response. -/
theorem seqRun_hardwareAccessError (i : Instr) (s : State) :
    SeqRun (idleSeq.length + 1) (s.goto (.recovering i 0)) (hardwareAccessError i s) := by
  have hcalls := seqRun_recovers (i := i) (s := s) (pre := []) (ps := idleSeq) (post := []) (by simp)
  refine hcalls.trans ⟨by simp, ?_⟩
  rw [seqStep_abandon rfl (by simp), abandon_goto]
  rfl

/-- A sequence that did not run to its end stopped at its first failed call. -/
theorem runEvents_false {ps : List Prim} {s : State} (h : (runEvents ps s).1 = false) :
    ∃ pre p post, ps = pre ++ p :: post ∧ NoFailure s (callsIn pre) ∧ failsNow p (performAll pre s) = true ∧
      (runEvents ps s).2 = perform p (performAll pre s) := by
  induction ps generalizing s with
  | nil => cases h
  | cons p ps ih =>
    rw [runEvents] at h ⊢
    cases hf : failsNow p s
    · simp only [hf, Bool.false_eq_true, if_false] at h ⊢
      obtain ⟨pre, q, post, rfl, hn, hq, he⟩ := ih h
      refine ⟨p :: pre, q, post, rfl, runEvents_true ?_, hq, he⟩
      simp [runEvents, hf, runEvents_of_noFailure hn]
    · exact ⟨[], p, ps, rfl, fun k hk => by simp [callsIn] at hk, hf, by simp [performAll_nil]⟩

/-- From the state in which it is taken, the sequencer brings an operation to the end that performing it whole gives. -/
theorem seqRun_runOp {i : Instr} {s t : State} (h : runOp i s = .next t) : ∃ n, SeqRun n (s.goto (.running i 0)) t := by
  obtain ⟨-, u, rfl, ⟨hr, rfl⟩ | ⟨hr, rfl⟩⟩ := runOp_next h
  · have hn := runEvents_true hr
    have hevents := seqRun_performs (pre := []) (post := []) (i := i) (s := s) (by simp) hn
    refine ⟨_, hevents.trans (n := 1) ⟨by simp, ?_⟩⟩
    have hk := performAll_engineKept (eventsOf s.cfg s.bright i) s
    rw [seqStep_end (i := i) rfl (by simp [hk.cfg, hk.bright]), complete_goto, runEvents_of_noFailure hn]
    rfl
  · obtain ⟨pre, p, post, he, hn, hf, hu⟩ := runEvents_false hr
    have hevents := seqRun_performs (pre := []) (i := i) (s := s) (ps := pre) (post := p :: post) (by simpa using he) hn
    have hk := performAll_engineKept pre s
    have hfail : SeqRun 1 ((performAll pre s).goto (.running i pre.length))
        ((perform p (performAll pre s)).goto (.recovering i 0)) := by
      refine ⟨by simp, ?_⟩
      rw [seqStep_event (p := p) rfl (by simp [hk.cfg, hk.bright, he]), perform_goto, goto_goto]
      simp [show failsNow p ((performAll pre s).goto (.running i pre.length)) = failsNow p (performAll pre s) from rfl, hf, SeqRun]
    rw [hu]
    exact ⟨_, (hevents.trans (by simpa using hfail)).trans (seqRun_hardwareAccessError i _)⟩

/-- The sequencer brings every operation it takes to the state that the operation's meaning gives. -/
theorem seqRun_exec {i : Instr} {s t : State} (h : exec i s = .next t) (hv : operandsValid i = true) :
    Steppable (accept i s) ∧ ∃ n, SeqRun n (accept i s) t := by
  obtain ⟨hc, hn, -⟩ := exec_next h
  rw [exec_eq_gate, gate_of_pass hc hn, ungated, if_pos hv] at h
  cases hr : runsEvents i
  · cases i with
    | setb b =>
      rw [if_neg (by simp [hr])] at h
      injection h with h
      subst h
      exact ⟨.inr rfl, 1, .one (by simp [accept])⟩
    | _ => cases hr
  · rw [if_pos hr] at h
    exact ⟨.inl (runOp_next h).1, seqRun_runOp h⟩

end Sys2Proof.Machine
end

section
/-! The ports and the status words the host reads (10_state.md R28, R34, R37). -/

namespace Sys2Proof.Machine

/-! ### Status words -/

/-- STATUS as its fields, bits 7:4 and then one bit each. -/
theorem statusWord_eq_concat (k : Nat) (s : State) : statusWord k s =
    (((((0 : BitVec 2) ++ s.lastErr).concat s.errSeen).concat (ackSeen k s)).concat (busy s)).concat s.constructed := rfl

theorem statusWord_constructed (k : Nat) (s : State) : (statusWord k s).getLsbD 0 = s.constructed := by
  rw [statusWord_eq_concat, BitVec.getLsbD_concat_zero]

theorem statusWord_busy (k : Nat) (s : State) : (statusWord k s).getLsbD 1 = busy s := by
  rw [statusWord_eq_concat, BitVec.getLsbD_concat_succ, BitVec.getLsbD_concat_zero]

theorem statusWord_ack (k : Nat) (s : State) : (statusWord k s).getLsbD 2 = ackSeen k s := by
  rw [statusWord_eq_concat, BitVec.getLsbD_concat_succ, BitVec.getLsbD_concat_succ, BitVec.getLsbD_concat_zero]

theorem statusWord_errSeen (k : Nat) (s : State) : (statusWord k s).getLsbD 3 = s.errSeen := by
  rw [statusWord_eq_concat, BitVec.getLsbD_concat_succ, BitVec.getLsbD_concat_succ, BitVec.getLsbD_concat_succ,
    BitVec.getLsbD_concat_zero]

/-- Bits 7:4 stand above the four single bits. -/
theorem statusWord_high (k : Nat) (s : State) (n : Nat) (len : Nat) :
    (statusWord k s).extractLsb' (n + 4) len = ((0 : BitVec 2) ++ s.lastErr).extractLsb' n len := by
  unfold statusWord
  repeat rw [BitVec.extractLsb'_append_eq_of_le (by omega)]
  rfl

theorem statusWord_lastErr (k : Nat) (s : State) : (statusWord k s).extractLsb' 4 2 = s.lastErr :=
  (statusWord_high k s 0 2).trans BitVec.extractLsb'_append_eq_right

theorem statusWord_reserved (k : Nat) (s : State) : (statusWord k s).extractLsb' 6 2 = 0 :=
  (statusWord_high k s 2 2).trans BitVec.extractLsb'_append_eq_left

theorem configWord_bright (k : Nat) (s : State) : (configWord k s).extractLsb' 0 3 = s.bright :=
  BitVec.extractLsb'_append_eq_right

/-- What stands above BRIGHT, CLK_PIN lowest. -/
theorem configWord_above_bright (k : Nat) (s : State) (n len : Nat) :
    (configWord k s).extractLsb' (n + 3) len = ((0 : BitVec 3) ++ dioSeen k s ++ clkSeen k s).extractLsb' n len :=
  BitVec.extractLsb'_append_eq_of_le (by omega)

theorem configWord_clk (k : Nat) (s : State) : (configWord k s).extractLsb' 3 5 = clkSeen k s :=
  (configWord_above_bright k s 0 5).trans BitVec.extractLsb'_append_eq_right

/-- What stands above CLK_PIN, DIO_PIN lowest. -/
theorem configWord_above_clk (k : Nat) (s : State) (n len : Nat) :
    (configWord k s).extractLsb' (n + 8) len = ((0 : BitVec 3) ++ dioSeen k s).extractLsb' n len :=
  (configWord_above_bright k s (n + 5) len).trans (BitVec.extractLsb'_append_eq_of_le (by omega))

theorem configWord_dio (k : Nat) (s : State) : (configWord k s).extractLsb' 8 5 = dioSeen k s :=
  (configWord_above_clk k s 0 5).trans BitVec.extractLsb'_append_eq_right

theorem configWord_reserved (k : Nat) (s : State) : (configWord k s).extractLsb' 13 3 = 0 :=
  (configWord_above_clk k s 5 3).trans BitVec.extractLsb'_append_eq_left

/-- Settles O53, field by field; LAST_ACK and the pin numbers are the registers once they have been written. -/
theorem statusWordsShowTheRegisters : Obligations.StatusWordsShowTheRegisters := by
  intro k s
  refine ⟨statusWord_constructed k s, statusWord_busy k s, fun ha => ?_, statusWord_errSeen k s, statusWord_lastErr k s,
    statusWord_reserved k s, configWord_bright k s, fun hc => ⟨?_, ?_⟩, configWord_reserved k s⟩
  · rw [statusWord_ack, ackSeen, if_pos ha]
  · simp [configWord_clk, clkSeen, pinsWritten, hc]
  · simp [configWord_dio, dioSeen, pinsWritten, hc]

/-! ### The GpioPort -/

/-- Settles O51: the request is that of the pending call, which each position of `SEQ` fixes. -/
theorem gpioPortRequestsTheNextCall : Obligations.GpioPortRequestsTheNextCall := by
  intro s call h
  have hcall : pendingPrim s = call := by
    obtain ⟨hs, rfl⟩ | ⟨i, k, hs, rfl⟩ | ⟨i, k, hs, rfl⟩ := h <;> rw [pendingPrim, hs]
  rw [gpioPort, hcall]
  exact ⟨fun h => h ▸ rfl, fun _ _ h => h ▸ rfl, fun _ _ h => h ▸ rfl, fun _ h => h ▸ rfl, fun h => h ▸ rfl⟩

/-! ### The response port -/

/-- What has ended with a response shows it, and the engine is ready again. -/
theorem Responded.ports {s t : State} {c : BitVec 2} (h : Responded s t c) : rspPort t = some c ∧ cmdReady t = true := by
  obtain ⟨hr, hv, hi⟩ := h
  simp [rspPort, hr, hv, cmdReady, busy, hi]

end Sys2Proof.Machine
end

section
/-! Obligations on the steps of an operation: taking it, its events, its end, the command that waits, and the invariant across the whole. -/

namespace Sys2Proof.Machine

/-! ### Taking an operation -/

theorem accept_setInbox (i : Instr) (s : State) (l : List HostInput) : accept i (s.setInbox l) = (accept i s).setInbox l := by
  cases i <;> rfl

/-- Whether an operation has a next state does not depend on what the host presents later. -/
theorem exec_next_setInbox {i : Instr} {s t : State} (l : List HostInput) (h : exec i s = .next t) :
    ∃ u, exec i (s.setInbox l) = .next u := by
  obtain ⟨hc, hn, -⟩ := exec_next h
  rw [exec_eq_gate, gate_of_pass hc hn] at h
  rw [exec_eq_gate, gate_of_pass (s := s.setInbox l) hc hn]
  unfold ungated at h ⊢
  cases hv : operandsValid i
  · exact ⟨_, rfl⟩
  · cases hr : runsEvents i
    · exact ⟨_, rfl⟩
    · simp only [hv, hr, if_true] at h ⊢
      have hp : pinsInSpace (loadOperands i (s.setInbox l)) = pinsInSpace (loadOperands i s) := by cases i <;> rfl
      exact runOp_total (hp.trans (runOp_next h).1)

/-- An operation with a next state and valid operands, presented to an idle engine, is taken in one step. -/
theorem step_takes {i : Instr} {s t : State} {c : Code} (rest : List HostInput) (h : exec i s = .next t)
    (hv : operandsValid i = true) (hs : s.seq = .idle) (hd : decode s.cfg c = .ok i) :
    step (s.setInbox (.present c :: rest)) = .next ((accept i s).setInbox rest) := by
  obtain ⟨u, hu⟩ := exec_next_setInbox rest h
  rw [← accept_setInbox, ← takeStep_of_valid hu hv]
  exact step_present (s := s.setInbox (.present c :: rest)) hs rfl hd

/-! ### The obligations -/

/-- Settles O60: the operation is a run of the sequencer from the state in which it is taken, and each of its steps keeps the invariant. -/
theorem everyOperationKeepsTheInvariant : Obligations.EveryOperationKeepsTheInvariant := by
  intro i s t h hs ht
  obtain ⟨-, hn, ⟨rfl, -⟩ | ⟨hp, -⟩⟩ := exec_next ht
  · exact runInv_configurationError h
  · have hv : operandsValid i = true := by simp only [testsPass, Bool.and_eq_true] at hp; exact hp.2
    obtain ⟨-, n, hrun⟩ := seqRun_exec ht hv
    exact hrun.keeps (fun _ hs h => runInv_seqStep h hs) (runInv_accept h hs hn hv)

/-- Settles O12: the step that takes the operation, then the sequencer's run to its end. -/
theorem sequencerStepsAmountToTheOperation : Obligations.SequencerStepsAmountToTheOperation := by
  intro i s t h hv hs
  obtain ⟨hp, n, hrun⟩ := seqRun_exec h hv
  refine ⟨n, fun c rest hd hl => ?_⟩
  have htake := step_takes rest h hv hs hd
  refine ⟨?_, fun m hm => ?_⟩
  · rw [run_succ Sys2Proof.core n htake, run_of_seqRun hrun hp hl]
  · obtain ⟨u, hu, hb⟩ := hrun.before hm
    obtain ⟨-, -, -, hresp, -⟩ := loadOperands_kept i s
    refine ⟨u.setInbox (afterSteps m rest), ?_, by simp [cmdReady, busy, hb], (hu.responses hb).trans hresp⟩
    rw [run_succ Sys2Proof.core m htake, run_of_seqRun hu hp fun k hk => hl k (hk.trans hm)]

/-- Quiet moments that have not passed yet are still the next thing the host presents. -/
theorem afterSteps_replicate_add (m n : Nat) (l : List HostInput) :
    afterSteps m (List.replicate (m + n) .quiet ++ l) = List.replicate n .quiet ++ l := by
  rw [List.replicate_add, List.append_assoc, afterSteps_replicate]

/-- Its first events not failing, an operation that was taken performs them one a step. -/
theorem seqRun_firstEvents {i : Instr} {s : State} {k : Nat} (hk : k ≤ (eventsOf s.cfg s.bright i).length)
    (hn : NoFailure s (callsIn ((eventsOf s.cfg s.bright i).take k))) :
    SeqRun k (accept i s) ((performAll ((eventsOf s.cfg s.bright i).take k) (loadOperands i s)).goto (.running i k)) := by
  have hrun := seqRun_performs (i := i) (s := loadOperands i s) (pre := []) (ps := (eventsOf s.cfg s.bright i).take k)
    (post := (eventsOf s.cfg s.bright i).drop k) (by simp [loadOperands_events])
    (fun j hj => (loadOperands_answerAt i s j).symm ▸ hn j hj)
  simpa [hk, accept] using hrun

/-- Hardware reset leaves every pin unknown (10_state.md R31). -/
theorem pinAt_hardReset (s : State) (n : Nat) : (hardReset s).pinAt n = PinState.unknown := by
  by_cases hn : n < pinCount <;> simp [State.pinAt, hardReset, resetUnder, hn]

/-- Settles O59: the first `k` events are a run of the sequencer of `k` steps, and hardware reset acts in the state it leads to. -/
theorem operationStandsAtEachEvent : Obligations.OperationStandsAtEachEvent := by
  intro i s t c rest k h hv hs hd hk hn
  obtain ⟨hp, -⟩ := seqRun_exec h hv
  obtain ⟨hcfg, -, -, hresp, -⟩ := loadOperands_kept i s
  have hrun := seqRun_firstEvents hk hn
  have hkept := performAll_engineKept ((eventsOf s.cfg s.bright i).take k) (loadOperands i s)
  have hquiet : ∀ j < k, (afterSteps j (List.replicate k .quiet ++ .rst :: rest)).head? ≠ some .rst := by
    intro j hj
    obtain ⟨m, rfl⟩ := Nat.exists_eq_add_of_lt hj
    rw [Nat.add_assoc, afterSteps_replicate_add]
    simp [List.replicate_succ]
  refine ⟨((performAll ((eventsOf s.cfg s.bright i).take k) (loadOperands i s)).goto (.running i k)).setInbox (.rst :: rest),
    ?_, rfl, fun j => ?_, ?_, ?_, _, step_rst rfl, rfl, rfl, rfl, ?_, rfl, rfl, rfl, pinAt_hardReset _, rfl⟩
  · rw [run_succ Sys2Proof.core k (step_takes _ h hv hs hd), run_of_seqRun hrun hp hquiet, afterSteps_replicate]
  · simp [statusWord_busy, busy]
  · exact hkept.responses.trans hresp
  · have hev := performAll_events ((eventsOf s.cfg s.bright i).take k) (loadOperands i s)
    rwa [loadOperands_eventsSeen, funext (loadOperands_answerAt i s)] at hev
  · exact congrArg Cfg.brightDefault (hkept.cfg.trans hcfg)

/-- Settles O6, by what `takeStep` makes of each outcome of `exec`. -/
theorem stepRunsTheDecodedInstruction : Obligations.StepRunsTheDecodedInstruction := by
  intro s c rest i hs hi hd
  rw [step_present hs hi hd]
  refine ⟨fun r h => takeStep_of_refused h, fun f h => ?_, fun t h hv => ?_, fun t h hv => ?_⟩
  · simp [takeStep, h]
  · simp [takeStep, h, hv]
  · obtain ⟨-, htrace, hpins, hresp, -, -, -, hinbox, -⟩ := loadOperands_kept i (s.setInbox rest)
    refine ⟨_, takeStep_of_valid h hv, rfl, rfl, htrace, hresp, hpins, hinbox, fun hi => ?_⟩
    rw [accept, loadOperands_eq_self hi]
    exact ⟨rfl, rfl, rfl⟩

/-- Settles O10: the sequencer's step takes nothing from the host. -/
theorem commandWaitsWhileBusy : Obligations.CommandWaitsWhileBusy := by
  intro s c rest hs hp hi
  exact ⟨by simp [cmdReady, busy, hs], step_busy hs hp (by simp [hi]) (by simp [hi]), seqStep_inbox s⟩

/-- Settles O11: the event or the end that position `k` gives, with the answer the environment gives next. -/
theorem sequencerPerformsOneEventAStep : Obligations.SequencerPerformsOneEventAStep := by
  intro s i k hs hp hi
  have hstep := step_running (by simp [hs]) (.inl (pinsInSpace_of_legal hp)) hi
  rw [hstep, seqStep_setInbox]
  refine ⟨fun p he => ?_, fun hk => ?_⟩
  · rw [seqStep_event hs he]
    have hkept := perform_engineKept p s
    refine ⟨_, rfl, ?_, hkept.responses, ⟨hkept.bright, hkept.clkPin, hkept.dioPin⟩, hkept.constructed,
      ⟨hkept.errSeen, hkept.lastErr⟩, ?_⟩
    · rw [← nextAnswer_eq]
      exact perform_trace p s
    · simp [failsNow, nextAnswer_eq]
  · rw [seqStep_end hs (List.getElem?_eq_none hk)]
    obtain ⟨-, hclk, hdio, hack, htrace, hpins, -⟩ := complete_kept i s
    exact ⟨_, rfl, htrace, hpins, complete_responded i s, complete_flagsKept i s, hclk, hdio, hack, complete_bright i s,
      complete_constructed i s⟩

end Sys2Proof.Machine
end

section
/-! Obligations on whole operations: what each leaves alone, its response and flags, and the lines after it. -/

namespace Sys2Proof.Machine

/-! ### How an operation ends -/

/-- An operation ends in ConfigurationError, or after calls of its own and of recovery, in its completion or in HardwareAccessError. -/
theorem exec_ends {i : Instr} {s t : State} (h : exec i s = .next t) :
    t = configurationError s ∨
    ∃ ps, (∀ p ∈ ps, p ∈ eventsOf s.cfg s.bright i ∨ p ∈ idleSeq) ∧
      (t = complete i (performAll ps (loadOperands i s)) ∨ t = abandon i (performAll ps (loadOperands i s))) := by
  obtain ⟨rfl, -⟩ | ⟨-, -, -, k, ht⟩ := exec_shape h
  · exact .inl rfl
  · obtain rfl | rfl := ht
    · exact .inr ⟨_, fun p hp => .inl (List.mem_of_mem_take hp), .inl rfl⟩
    · refine .inr ⟨(eventsOf s.cfg s.bright i).take k ++ idleSeq, fun p hp => ?_, .inr ?_⟩
      · exact (List.mem_append.1 hp).imp_left List.mem_of_mem_take
      · rw [performAll_append]
        rfl

/-- What both ends of an operation leave alone. -/
theorem end_kept {i : Instr} {u t : State} (h : t = complete i u ∨ t = abandon i u) :
    ConstantsKept u t ∧ t.trace = u.trace ∧ t.pins = u.pins ∧ t.clkPin = u.clkPin ∧ t.dioPin = u.dioPin ∧ t.lastAck = u.lastAck := by
  obtain rfl | rfl := h
  · obtain ⟨hcfg, hclk, hdio, hack, htrace, hpins, hinbox, -⟩ := complete_kept i u
    exact ⟨⟨hcfg, hinbox⟩, htrace, hpins, hclk, hdio, hack⟩
  · obtain ⟨hcfg, -, hclk, hdio, hack, htrace, hpins, hinbox⟩ := abandon_kept i u
    exact ⟨⟨hcfg, hinbox⟩, htrace, hpins, hclk, hdio, hack⟩

theorem end_bright {i : Instr} {u t : State} (h : t = complete i u ∨ t = abandon i u) (hi : ∀ b, i ≠ .setb b) :
    t.bright = u.bright := by
  obtain rfl | rfl := h
  · cases i with
    | setb b => exact absurd rfl (hi b)
    | _ => exact complete_bright _ u
  · obtain ⟨-, hb, -⟩ := abandon_kept i u
    exact hb

theorem end_constructed {i : Instr} {u t : State} (h : t = complete i u ∨ t = abandon i u) (hi : isInit i = false)
    (hr : i ≠ .release) : t.constructed = u.constructed := by
  obtain rfl | rfl := h
  · simp [complete_constructed, hi, hr]
  · simp [abandon_constructed, hr]

/-- The calls of an operation leave responses and flags to its end. -/
theorem performed_kept (i : Instr) (ps : List Prim) (s : State) :
    (performAll ps (loadOperands i s)).responses = s.responses ∧ FlagsKept s (performAll ps (loadOperands i s)) := by
  have hk := performAll_engineKept ps (loadOperands i s)
  obtain ⟨-, -, -, hresp, ⟨hseen, hlast⟩, -⟩ := loadOperands_kept i s
  exact ⟨hk.responses.trans hresp, hk.errSeen.trans hseen, hk.lastErr.trans hlast⟩

theorem Responded.of_kept {s u t : State} {c : BitVec 2} (h : Responded u t c) (hr : u.responses = s.responses) : Responded s t c := by
  rwa [Responded, hr] at h

/-- The response of an operation and its flags (10_state.md R26). -/
theorem exec_answers {i : Instr} {s t : State} (h : exec i s = .next t) :
    (Responded s t completedCode ∧ FlagsKept s t) ∨
    (Responded s t (errorCode .configuration) ∧ Flagged t .configuration) ∨
    (Responded s t (errorCode .hardwareAccess) ∧ Flagged t .hardwareAccess) := by
  obtain rfl | ⟨ps, -, ht⟩ := exec_ends h
  · exact .inr (.inl ⟨⟨rfl, rfl, rfl⟩, rfl, rfl⟩)
  · obtain ⟨hresp, hseen, hlast⟩ := performed_kept i ps s
    obtain rfl | rfl := ht
    · obtain ⟨hs, hl⟩ := complete_flagsKept i (performAll ps (loadOperands i s))
      exact .inl ⟨(complete_responded i _).of_kept hresp, hs.trans hseen, hl.trans hlast⟩
    · exact .inr (.inr ⟨(abandon_responded i _).of_kept hresp, abandon_flagged i _⟩)

/-- Response 1 is ConfigurationError's alone. -/
theorem exec_eq_configurationError {i : Instr} {s t : State} (h : exec i s = .next t)
    (hr : Responded s t (errorCode .configuration)) : t = configurationError s := by
  obtain rfl | ⟨ps, -, rfl | rfl⟩ := exec_ends h
  · rfl
  · have he := hr.code_unique ((complete_responded i _).of_kept (performed_kept i ps s).1)
    exact absurd he (by decide)
  · have he := hr.code_unique ((abandon_responded i _).of_kept (performed_kept i ps s).1)
    exact absurd he (by decide)

theorem exec_responded {i : Instr} {s t : State} (h : exec i s = .next t) : ∃ c, Responded s t c := by
  obtain ⟨hr, -⟩ | ⟨hr, -⟩ | ⟨hr, -⟩ := exec_answers h <;> exact ⟨_, hr⟩

/-- A step that ends no operation shows no response and adds none; any other adds one (10_state.md R34). -/
theorem step_response {s t : State} (h : step s = .next t) :
    (t.rspValid = false ∧ t.responses.length ≤ s.responses.length) ∨ ∃ c, Responded s t c := by
  obtain ⟨rest, -, rfl⟩ | ⟨hs, -, -, rfl⟩ | ⟨-, -, rfl⟩ | ⟨-, c, rest, i, -, -, ht⟩ := step_next h
  · exact .inl ⟨rfl, Nat.zero_le _⟩
  · obtain ⟨-, hr, hv⟩ | hr := seqStep_response (s := s.setInbox (afterSteps 1 s.inbox)) hs
    · exact .inl ⟨hv, le_of_eq (congrArg List.length hr)⟩
    · exact .inr hr
  · exact .inl ⟨rfl, le_rfl⟩
  · obtain ⟨u, -, ⟨-, rfl⟩ | ⟨-, rfl, rfl⟩⟩ := takeStep_next ht
    · obtain ⟨-, -, -, hresp, -⟩ := loadOperands_kept i (s.setInbox rest)
      exact .inl ⟨rfl, le_of_eq (congrArg List.length hresp)⟩
    · exact .inr ⟨errorCode .configuration, rfl, rfl, rfl⟩

/-! ### The obligations -/

/-- Settles O52: what ends an operation responds, and the port falls in every other step. -/
theorem responsePortPulses : Obligations.ResponsePortPulses := by
  refine ⟨fun i s t h => ?_, fun s t h => ?_⟩
  · obtain ⟨c, hr⟩ := exec_responded h
    exact ⟨c, hr.1, hr.ports⟩
  · obtain ⟨hv, hle⟩ | ⟨c, hr⟩ := step_response h
    · exact ⟨fun _ => by simp [rspPort, hv], fun hlt => by omega⟩
    · exact ⟨fun hle => by simp [hr.1] at hle, fun _ => ⟨c, hr.1, hr.ports⟩⟩

/-- Settles O18: the flags by the operation's end; among the steps only hardware reset writes `ERR_SEEN <- 0`. -/
theorem errorFlagsFollowTheResponses : Obligations.ErrorFlagsFollowTheResponses := by
  refine ⟨fun i s t h => exec_answers h, fun s t h hi he => ?_, fun s t h hi => ?_⟩
  · obtain ⟨rest, hr, rfl⟩ | ⟨hs, -, -, rfl⟩ | ⟨-, -, rfl⟩ | ⟨-, c, rest, i, -, -, ht⟩ := step_next h
    · simp [hr] at hi
    · exact seqStep_errSeen (s := s.setInbox _) hs he
    · exact he
    · obtain ⟨u, -, ⟨-, rfl⟩ | ⟨-, rfl, rfl⟩⟩ := takeStep_next ht
      · obtain ⟨-, -, -, -, ⟨hseen, -⟩, -⟩ := loadOperands_kept i (s.setInbox rest)
        exact hseen.trans he
      · rfl
  · obtain ⟨rest, hr⟩ := List.head?_eq_some_iff.1 hi
    rw [step_rst hr] at h
    injection h with h
    exact h ▸ rfl

/-- Only SETL and what sends a byte reads the data line (10_state.md R25). -/
theorem noReads_of_no_byte {i : Instr} {c : Cfg} (b : BitVec 3) (hl : ∀ l, i ≠ .setl l) (hb : byteSent c i = none) :
    NoReads (eventsOf c b i) := by
  cases i with
  | init => exact noReads_idle
  | setb => exact fun p hp => absurd hp List.not_mem_nil
  | setl l => exact absurd rfl (hl l)
  | release => exact noReads_idle
  | start => exact noReads_start
  | stop => exact noReads_stop
  | _ => cases hb

/-- Settles O25, by the two parts of an operation: its calls, and its end. -/
theorem operationsLeaveTheRestAlone : Obligations.OperationsLeaveTheRestAlone := by
  intro i s t h
  obtain rfl | ⟨ps, hps, ht⟩ := exec_ends h
  · exact ⟨⟨rfl, rfl⟩, ⟨[], by simp [configurationError]⟩, fun _ _ _ => rfl, fun _ _ => rfl, fun _ => ⟨rfl, rfl⟩, fun _ _ => rfl,
      fun _ _ => rfl⟩
  · have hk := performAll_engineKept ps (loadOperands i s)
    obtain ⟨hcfg, htrace, hpins, -, -, -, hcon, hinbox, hack⟩ := loadOperands_kept i s
    obtain ⟨⟨hcfg', hinbox'⟩, htrace', hpins', hclk', hdio', hack'⟩ := end_kept ht
    obtain ⟨new, hnew⟩ := performAll_traceGrown ps (loadOperands i s)
    refine ⟨⟨hcfg'.trans (hk.cfg.trans hcfg), hinbox'.trans (hk.inbox.trans hinbox)⟩, ⟨new, ?_⟩, fun n hc hd => ?_, fun hi hb => ?_,
      fun hi => ?_, fun hi hr => ?_, fun hl hb => ?_⟩
    · rw [htrace', hnew, htrace]
    · rw [pinAt_congr hpins', performAll_otherPins ps _ n, pinAt_congr hpins]
      · rwa [← hk.clkPin, ← hclk']
      · rwa [← hk.dioPin, ← hdio']
    · rw [end_bright ht hb, hk.bright, loadOperands_eq_self hi]
    · rw [hclk', hdio', hk.clkPin, hk.dioPin, loadOperands_eq_self hi]
      exact ⟨rfl, rfl⟩
    · rw [end_constructed ht hi hr, hk.constructed, hcon]
    · rw [hack', performAll_lastAck_of_noReads, hack]
      exact fun p hp => (hps p hp).elim (noReads_of_no_byte s.bright hl hb p) (noReads_idle p)

/-! ### Nothing reads `LAST_ACK` -/

/-- `u` is `s` but for what stands in `LAST_ACK`. -/
def SameButAck (s u : State) : Prop := ∃ a, u = s.setAck a

/-- A read that succeeds puts the same level over either value; any other call leaves both as they are. -/
theorem SameButAck.perform {s u : State} (h : SameButAck s u) (p : Prim) : SameButAck (perform p s) (perform p u) := by
  obtain ⟨a, rfl⟩ := h
  refine ⟨(Machine.perform p (s.setAck a)).lastAck, ?_⟩
  cases h : (nextAnswer s).fails <;> cases p <;>
    simp [Machine.perform, isDelay, show nextAnswer (s.setAck a) = nextAnswer s from rfl, h] <;> rfl

theorem SameButAck.failsNow {s u : State} (h : SameButAck s u) (p : Prim) : failsNow p u = failsNow p s := by
  obtain ⟨a, rfl⟩ := h
  rfl

theorem SameButAck.performAll {s u : State} (h : SameButAck s u) (ps : List Prim) : SameButAck (performAll ps s) (performAll ps u) := by
  induction ps generalizing s u with
  | nil => exact h
  | cons p ps ih => exact ih (h.perform p)

theorem SameButAck.runEvents {s u : State} (h : SameButAck s u) (ps : List Prim) :
    (runEvents ps u).1 = (runEvents ps s).1 ∧ SameButAck (runEvents ps s).2 (runEvents ps u).2 := by
  induction ps generalizing s u with
  | nil => exact ⟨rfl, h⟩
  | cons p ps ih =>
    simp only [Machine.runEvents, h.failsNow p]
    split
    · exact ⟨rfl, h.perform p⟩
    · exact ih (h.perform p)

theorem SameButAck.complete {s u : State} (h : SameButAck s u) (i : Instr) : SameButAck (complete i s) (complete i u) := by
  obtain ⟨a, rfl⟩ := h
  exact ⟨a, by cases i <;> rfl⟩

theorem SameButAck.abandon {s u : State} (h : SameButAck s u) (i : Instr) : SameButAck (abandon i s) (abandon i u) := by
  obtain ⟨a, rfl⟩ := h
  exact ⟨a, by cases i <;> rfl⟩

theorem SameButAck.loadOperands {s u : State} (h : SameButAck s u) (i : Instr) : SameButAck (loadOperands i s) (loadOperands i u) := by
  obtain ⟨a, rfl⟩ := h
  exact ⟨a, by cases i <;> rfl⟩

/-- The same outcome, next states being the same but for `LAST_ACK`. -/
inductive SameOutcome : Host.Outcome State Fault Refusal → Host.Outcome State Fault Refusal → Prop
  | next {t u : State} (h : SameButAck t u) : SameOutcome (.next t) (.next u)
  | fault (f : Fault) : SameOutcome (.fault f) (.fault f)
  | refused (r : Refusal) : SameOutcome (.refused r) (.refused r)

theorem SameButAck.runOp {s u : State} (h : SameButAck s u) (i : Instr) : SameOutcome (runOp i s) (runOp i u) := by
  obtain ⟨hr, hs⟩ := h.runEvents (eventsOf s.cfg s.bright i)
  obtain ⟨a, rfl⟩ := h
  unfold Machine.runOp
  simp only [show pinsInSpace (s.setAck a) = pinsInSpace s from rfl, setAck_cfg, setAck_bright, hr]
  split
  · split
    · exact .next (hs.complete i)
    · exact .next ((hs.performAll idleSeq).abandon i)
  · exact .fault _

theorem SameButAck.ungated {s u : State} (h : SameButAck s u) (i : Instr) : SameOutcome (ungated i s) (ungated i u) := by
  unfold Machine.ungated
  split
  · split
    · exact (h.loadOperands i).runOp i
    · exact .next ((h.loadOperands i).complete i)
  · obtain ⟨a, rfl⟩ := h
    exact .next ⟨a, rfl⟩

theorem SameOutcome.gate {s u : State} {k k' : Host.Outcome State Fault Refusal} (needs : Bool) (hc : u.cfg = s.cfg)
    (hn : u.constructed = s.constructed) (h : SameOutcome k k') : SameOutcome (gate needs s k) (gate needs u k') := by
  unfold Machine.gate
  rw [hc, hn]
  split
  · split
    · exact h
    · split <;> exact .refused _
  · exact .refused _

theorem SameButAck.exec {s u : State} (h : SameButAck s u) (i : Instr) : SameOutcome (exec i s) (exec i u) := by
  have hu := h.ungated i
  obtain ⟨a, rfl⟩ := h
  rw [exec_eq_gate, exec_eq_gate]
  exact hu.gate _ rfl rfl

/-- Settles O28: `LAST_ACK` is carried along, and overwritten by samples, but no test looks at it. -/
theorem nothingReadsLastAck : Obligations.NothingReadsLastAck := by
  intro i s a
  have h : SameOutcome (exec i s) (exec i (s.setAck a)) := SameButAck.exec ⟨a, rfl⟩ i
  generalize exec i s = o at h
  generalize exec i (s.setAck a) = o' at h
  cases h with
  | next h =>
    obtain ⟨b, rfl⟩ := h
    exact ⟨b, rfl⟩
  | fault f => rfl
  | refused r => rfl

/-! ### The lines after an operation, and RELEASE then INIT -/

/-- With no call failing an operation raises ConfigurationError, or performs all its events and completes. -/
theorem exec_completes {i : Instr} {s t : State} (h : exec i s = .next t)
    (hn : NoFailure s (callsIn (eventsOf s.cfg s.bright i))) :
    t = configurationError s ∨ t = complete i (performAll (eventsOf s.cfg s.bright i) (loadOperands i s)) := by
  obtain ⟨-, -, ⟨rfl, -⟩ | ⟨hp, ht⟩⟩ := exec_next h
  · exact .inl rfl
  · refine .inr ?_
    cases hr : runsEvents i with
    | false =>
      rw [if_neg (by simp [hr])] at ht
      cases i with
      | setb b => injection ht with ht; exact ht.symm
      | _ => cases hr
    | true =>
      rw [if_pos hr] at ht
      rw [exec_of_noFailure hp (runOp_next ht).1 hn hr] at h
      injection h with h
      exact h.symm

/-- The events that make the lines idle, from any lines or from lines that are outputs or idle already (10_state.md R36). -/
theorem events_line_idle {i : Instr} {s : State} (l : Line)
    (h : isInit i = true ∨ i = .release ∨ ((∃ b, i = .setb b) ∧ linesIdle s = true) ∨
      ((i = .stop ∨ ∃ l, i = .setl l) ∧ bothOut s = true)) :
    (eventsOf s.cfg s.bright i).foldl (lineEffect l) ((loadOperands i s).lineAt l) = PinState.idle := by
  have hdirn : bothOut s = true → (s.lineAt l).dirn = some .out := by
    intro hb
    simp only [bothOut, Bool.and_eq_true, beq_iff_eq] at hb
    cases l
    · exact hb.1
    · exact hb.2
  obtain hi | rfl | ⟨⟨b, rfl⟩, hidle⟩ | ⟨rfl | ⟨v, rfl⟩, hb⟩ := h
  · cases i with
    | init => exact idleSeq_line l _
    | _ => cases hi
  · exact idleSeq_line l _
  · simp only [linesIdle, Bool.and_eq_true, beq_iff_eq] at hidle
    cases l
    · exact hidle.1
    · exact hidle.2
  · exact (stop_line l _).trans (by rw [loadOperands_eq_self rfl, hdirn hb]; rfl)
  · cases l
    · exact (setl_clk _ _ _ _).trans (by rw [loadOperands_eq_self rfl, hdirn hb]; rfl)
    · exact setl_dio _ _ _ _

/-- Settles O40: completed, an operation leaves each line idle by its events; SETB has no event, and ConfigurationError moves no pin. -/
theorem linesAreIdleBetweenOperations : Obligations.LinesAreIdleBetweenOperations := by
  intro i s t h
  refine ⟨fun hi hl hn hr => ?_, fun hi => ?_⟩
  · obtain rfl | rfl := exec_completes h hn
    · exact absurd (hr.code_unique ⟨rfl, rfl, rfl⟩ : completedCode = errorCode .configuration) (by decide)
    · obtain ⟨-, hclk, hdio, -⟩ := complete_kept i (performAll (eventsOf s.cfg s.bright i) (loadOperands i s))
      rw [pinsLegal_congr hclk hdio, pinsLegal_of_kept (performAll_engineKept _ _)] at hl
      have hline : ∀ l, (complete i (performAll (eventsOf s.cfg s.bright i) (loadOperands i s))).lineAt l = PinState.idle := by
        intro l
        rw [complete_lineAt, performAll_lineAt hl fun k hk => (loadOperands_answerAt i s k).symm ▸ hn k hk]
        exact events_line_idle l hi
      simp [linesIdle, hline]
  · obtain ⟨b, rfl⟩ | ⟨⟨l, rfl⟩, hr⟩ := hi
    · obtain rfl | rfl := exec_completes h (fun k hk => absurd hk (Nat.not_lt_zero k))
      · rfl
      · rfl
    · rw [exec_eq_configurationError h hr]
      rfl

/-- RELEASE, no call failing, in a state that admits it. -/
theorem exec_release_of_noFailure {s : State} (ho : operational s = true) (hn : NoFailure s 4) :
    exec .release s = .next (complete .release (performAll idleSeq s)) := by
  simp only [operational, Bool.and_eq_true] at ho
  obtain ⟨⟨hcfg, hcon⟩, hl⟩ := ho
  exact exec_of_noFailure (i := .release) (by simp [testsPass, operandsValid, isInit, hcfg, hcon]) (pinsInSpace_of_legal hl) hn rfl

/-- INIT, no call failing, in a state that admits it. -/
theorem exec_init_of_noFailure {clk dio : Int} {s : State} (ho : constructible s = true) (hv : initValid clk dio = true)
    (hn : NoFailure s 4) :
    exec (.init clk dio) s = .next (complete (.init clk dio) (performAll idleSeq (loadInit clk dio s))) := by
  simp only [constructible, Bool.and_eq_true, Bool.not_eq_true'] at ho
  obtain ⟨hcfg, hcon⟩ := ho
  exact exec_of_noFailure (i := .init clk dio) (by simp [testsPass, operandsValid, isInit, hcfg, hcon, hv])
    (pinsInSpace_of_legal (loadInit_pinsLegal s hv)) hn rfl

/-- What INIT leaves, no call failing, of the registers, the flags and `LAST_ACK` (10_state.md R33). -/
theorem init_leaves {clk dio : Int} {s t : State} (h : t = complete (.init clk dio) (performAll idleSeq (loadInit clk dio s))) :
    t.bright = s.cfg.brightDefault ∧ t.clkPin = pinReg clk ∧ t.dioPin = pinReg dio ∧ t.constructed = true ∧ FlagsKept s t ∧
      t.lastAck = s.lastAck := by
  have hk := performAll_engineKept idleSeq (loadInit clk dio s)
  obtain ⟨-, hclk, hdio, hack, -⟩ := complete_kept (.init clk dio) (performAll idleSeq (loadInit clk dio s))
  obtain ⟨hseen, hlast⟩ := complete_flagsKept (.init clk dio) (performAll idleSeq (loadInit clk dio s))
  subst h
  refine ⟨?_, ?_, ?_, rfl, ⟨?_, ?_⟩, ?_⟩
  · rw [complete_bright, hk.bright]; rfl
  · rw [hclk, hk.clkPin]; rfl
  · rw [hdio, hk.dioPin]; rfl
  · rw [hseen, hk.errSeen]; rfl
  · rw [hlast, hk.lastErr]; rfl
  · rw [hack, performAll_lastAck_of_noReads noReads_idle]; rfl

/-- What RELEASE leaves, no call failing: the driver discarded, the flags and `LAST_ACK` as they were, four answers used. -/
theorem release_leaves {s t : State} (h : t = complete .release (performAll idleSeq s)) :
    t.cfg = s.cfg ∧ t.constructed = false ∧ FlagsKept s t ∧ t.lastAck = s.lastAck ∧ ∀ k, answerAt t k = answerAt s (4 + k) := by
  have hk := performAll_engineKept idleSeq s
  obtain ⟨hcfg, -, -, hack, -, -, -, hanswers, hdraws⟩ := complete_kept .release (performAll idleSeq s)
  obtain ⟨hseen, hlast⟩ := complete_flagsKept .release (performAll idleSeq s)
  subst h
  refine ⟨?_, rfl, ⟨?_, ?_⟩, ?_, fun k => ?_⟩
  · rw [hcfg, hk.cfg]
  · rw [hseen, hk.errSeen]
  · rw [hlast, hk.lastErr]
  · rw [hack, performAll_lastAck_of_noReads noReads_idle]
  · rw [answerAt_congr hanswers hdraws, performAll_answerAt, callsIn_idle]

/-- Settles O36: RELEASE keeps what INIT does not write, and leaves a state that admits INIT. -/
theorem onlyFlagsSurviveReleaseAndInit : Obligations.OnlyFlagsSurviveReleaseAndInit := by
  intro clk dio s ho hc0 hc1 hd0 hd1 hne hn
  have hv := (initValid_iff clk dio).2 ⟨⟨hc0, hc1⟩, ⟨hd0, hd1⟩, hne⟩
  have hrelease := exec_release_of_noFailure ho (hn.mono (by omega))
  simp only [operational, Bool.and_eq_true] at ho
  obtain ⟨⟨hcfg, -⟩, -⟩ := ho
  generalize hr : complete .release (performAll idleSeq s) = r at hrelease
  obtain ⟨hcfg', hcon', ⟨hseen', hlast'⟩, hack', hans⟩ := release_leaves hr.symm
  have hinit := exec_init_of_noFailure (s := r) (by simp [constructible, hcfg', hcon', hcfg]) hv
    fun k hk => hans k ▸ hn (4 + k) (by omega)
  obtain ⟨hb, hclk, hdio, hcon, ⟨hseen, hlast⟩, hack⟩ := init_leaves (s := r) (clk := clk) (dio := dio) rfl
  refine ⟨_, by simp only [runInstrs, hrelease, hinit], by rw [hb, hcfg'], ?_, ?_, hcon,
    ⟨hseen.trans hseen', hlast.trans hlast'⟩, hack.trans hack'⟩
  · rw [hclk, pinReg_toNat hc0 hc1]
  · rw [hdio, pinReg_toNat hd0 hd1]

end Sys2Proof.Machine
end

section
/-! The segment table of a well-formed configuration (20_memory.md R51), and that nothing writes it (R63). -/

namespace Sys2Proof.Machine

/-! ### The constants -/

theorem seqStep_cfg {s : State} (hs : s.seq ≠ .idle) : (seqStep s).cfg = s.cfg := by
  obtain ⟨p, q, -, h⟩ | ⟨i, h⟩ := seqStep_call_or_end hs
  · rw [h]
    exact (perform_engineKept p s).cfg
  · obtain ⟨⟨hcfg, -⟩, -⟩ := end_kept h
    exact hcfg

/-- Settles O26, by the kinds of step: hardware reset, the sequencer's, waiting, and taking or answering a command. -/
theorem noStepWritesTheConfiguration : Obligations.NoStepWritesTheConfiguration := by
  intro s t h
  obtain ⟨rest, -, rfl⟩ | ⟨hs, -, -, rfl⟩ | ⟨-, -, rfl⟩ | ⟨-, c, rest, i, -, -, ht⟩ := step_next h
  · rfl
  · exact seqStep_cfg (s := s.setInbox _) hs
  · rfl
  · obtain ⟨u, -, ⟨-, rfl⟩ | ⟨-, rfl, rfl⟩⟩ := takeStep_next ht
    · obtain ⟨hcfg, -⟩ := loadOperands_kept i (s.setInbox rest)
      exact hcfg
    · rfl

/-! ### Subsets of bits (00_scope.md R6) -/

theorem and_eq_left_trans {u v w : Byte} (huv : u &&& v = u) (hvw : v &&& w = v) : u &&& w = u := by
  rw [← huv, BitVec.and_assoc, hvw]

/-- The union of a byte with one that has all its bits is the latter. -/
theorem or_eq_right_of_and_eq_left {v w : Byte} (h : v &&& w = v) : v ||| w = w := by
  ext i hi
  have hbit : (v &&& w)[i] = v[i] := by rw [h]
  simp only [BitVec.getElem_and, BitVec.getElem_or] at hbit ⊢
  cases hv : v[i] <;> simp_all

theorem length_wireBits (b : Byte) : (wireBits b).length = 8 := by simp [wireBits]

theorem popcount_le (b : Byte) : popcount b ≤ 8 := length_wireBits b ▸ List.countP_le_length

/-! ### The segment table -/

/-- The table begins with 0, and one level up an entry has more bits, and all that the one below has. -/
theorem segAt_of_cfgOk {c : Cfg} (h : cfgOk c = true) :
    segAt c 0 = 0 ∧ ∀ l < 7, popcount (segAt c l) < popcount (segAt c (l + 1)) ∧ segAt c l &&& segAt c (l + 1) = segAt c l := by
  simp only [cfgOk, segOk, subByte, Bool.and_eq_true, List.all_eq_true, List.mem_range, decide_eq_true_eq, beq_iff_eq] at h
  obtain ⟨hseg, -⟩ := h
  exact hseg

theorem le_popcount_segAt {c : Cfg} (h : cfgOk c = true) {l : Nat} (hl : l ≤ 7) : l ≤ popcount (segAt c l) := by
  induction l with
  | zero => exact Nat.zero_le _
  | succ l ih =>
    obtain ⟨hmore, -⟩ := (segAt_of_cfgOk h).2 l (by omega)
    have := ih (by omega)
    omega

theorem segAt_and_segAt {c : Cfg} (h : cfgOk c = true) {l l' : Nat} (hle : l ≤ l') (hl' : l' ≤ 7) :
    segAt c l &&& segAt c l' = segAt c l := by
  induction l', hle using Nat.le_induction with
  | base => exact BitVec.and_self
  | succ k hk ih => exact and_eq_left_trans (ih (by omega)) ((segAt_of_cfgOk h).2 k (by omega)).2

/-- The union of the entries up to a level is that level's entry. -/
theorem or_segAt_upto {c : Cfg} (h : cfgOk c = true) {l : Nat} (hl : l ≤ 7) :
    (List.range (l + 1)).foldl (fun v k => v ||| segAt c k) 0 = segAt c l := by
  induction l with
  | zero => simp [(segAt_of_cfgOk h).1]
  | succ l ih =>
    rw [List.range_succ, List.foldl_append, ih (by omega)]
    exact or_eq_right_of_and_eq_left ((segAt_of_cfgOk h).2 l (by omega)).2

/-- Settles O54: seven times one bit more, among eight. -/
theorem segmentTableGrows : Obligations.SegmentTableGrows := by
  refine ⟨by decide, fun c h => ⟨(segAt_of_cfgOk h).1, fun l => le_popcount_segAt h, fun l l' => segAt_and_segAt h,
    or_segAt_upto h (l := 7) le_rfl, ?_⟩⟩
  have hlow := le_popcount_segAt h (l := 7) le_rfl
  have hhigh := popcount_le (segAt c 7)
  omega

end Sys2Proof.Machine
end

section
/-! The calls an operation makes, one by one: the bit cells of a byte (20_memory.md R54), the lines its calls are on (R53), and the entries
they leave in the trace. -/

namespace Sys2Proof.Machine

/-! ### Bit cells -/

/-- Each bit has five events, the first the write of that bit to the data line (40_transport.md R103). -/
theorem getElem?_cells (bs : List Bool) (i : Nat) : (bs.flatMap bitCell)[5 * i]? = bs[i]?.map (Prim.wr .dio) := by
  induction bs generalizing i with
  | nil => rfl
  | cons v bs ih =>
    cases i with
    | zero => rfl
    | succ i => exact ih i

theorem noReads_bitCell (v : Bool) : NoReads (bitCell v) := by simp [NoReads, bitCell, isRead]

theorem noReads_cells (bs : List Bool) : NoReads (bs.flatMap bitCell) := by
  intro p hp
  obtain ⟨v, -, hp⟩ := List.mem_flatMap.1 hp
  exact noReads_bitCell v p hp

theorem NoReads.countP_eq_zero {ps : List Prim} (h : NoReads ps) : ps.countP isRead = 0 :=
  List.countP_eq_zero.2 fun p hp => by simp [h p hp]

theorem getElem?_wireBits (b : Byte) {i : Nat} (hi : i < 8) : (wireBits b)[i]? = some (b.getLsbD i) := by
  simp [wireBits, hi, bitOf]

theorem length_cells (bs : List Bool) : (bs.flatMap bitCell).length = 5 * bs.length := by
  simp [List.length_flatMap, bitCell, Nat.mul_comm]

/-- Settles O48: bit cell `i` begins at event `5 i`, and the one read of a byte comes after all eight cells. -/
theorem bitsGoOutLeastSignificantFirst : Obligations.BitsGoOutLeastSignificantFirst := by
  intro b i hi
  have hlen : 5 * i < ((wireBits b).flatMap bitCell).length := by
    rw [length_cells, length_wireBits]
    omega
  refine ⟨?_, ?_⟩
  · rw [wrbEvents, List.getElem?_append_left hlen, getElem?_cells, getElem?_wireBits b hi]
    rfl
  · rw [wrbEvents, List.take_append_of_le_length hlen.le]
    exact ((noReads_cells _).take _).countP_eq_zero

/-! ### The clock line is never an input -/

/-- No call of the sequence makes the clock line an input (10_state.md R31). -/
def ClkStaysOut (ps : List Prim) : Prop := .dir .clk .in ∉ ps

theorem ClkStaysOut.append {ps qs : List Prim} (h : ClkStaysOut ps) (k : ClkStaysOut qs) : ClkStaysOut (ps ++ qs) :=
  fun hp => (List.mem_append.1 hp).elim h k

theorem clkStaysOut_start : ClkStaysOut startEvents := by simp [ClkStaysOut, startEvents]
theorem clkStaysOut_stop : ClkStaysOut stopEvents := by simp [ClkStaysOut, stopEvents]
theorem clkStaysOut_idle : ClkStaysOut idleSeq := by simp [ClkStaysOut, idleSeq]

theorem clkStaysOut_wrb (b : Byte) : ClkStaysOut (wrbEvents b) := by
  simp [ClkStaysOut, wrbEvents, bitCell, ackSlot]

theorem clkStaysOut_setl (c : Cfg) (b : BitVec 3) (l : Nat) : ClkStaysOut (setlEvents c b l) := by
  have h1 := (clkStaysOut_start.append (clkStaysOut_wrb c.dataCommand)).append clkStaysOut_stop
  have h2 := ((clkStaysOut_start.append (clkStaysOut_wrb c.addressCommand)).append (clkStaysOut_wrb (segAt c l))).append clkStaysOut_stop
  have h3 := (clkStaysOut_start.append (clkStaysOut_wrb (ctrlByte c b))).append clkStaysOut_stop
  exact (h1.append h2).append h3

theorem clkStaysOut_eventsOf (c : Cfg) (b : BitVec 3) (i : Instr) : ClkStaysOut (eventsOf c b i) := by
  cases i with
  | init => exact clkStaysOut_idle
  | setb => exact List.not_mem_nil
  | setl l => exact clkStaysOut_setl c b l.toNat
  | release => exact clkStaysOut_idle
  | start => exact clkStaysOut_start
  | stop => exact clkStaysOut_stop
  | _ => exact clkStaysOut_wrb _

/-! ### The entries of the trace -/

/-- The request of a call carries the same pin number wherever the pin registers are the same. -/
theorem requestPin_congr {s t : State} (hc : t.clkPin = s.clkPin) (hd : t.dioPin = s.dioPin) (p : Prim) :
    requestPin t p = requestPin s p := by
  cases p <;> simp only [requestPin, pinOf_of_regs hc hd]

/-- Every entry that a sequence appends is of one of its calls. -/
theorem performAll_entries (ps : List Prim) (s : State) :
    ∃ new, (performAll ps s).trace = s.trace ++ new ∧ ∀ e ∈ new, ∃ p ∈ ps, ∃ a, e = ⟨eventOf p a, requestPin s p⟩ := by
  induction ps generalizing s with
  | nil => exact ⟨[], by simp [performAll]⟩
  | cons p ps ih =>
    obtain ⟨new, htrace, hnew⟩ := ih (perform p s)
    refine ⟨⟨eventOf p (nextAnswer s), requestPin s p⟩ :: new, by simp [performAll_cons, htrace, perform_trace], ?_⟩
    intro e he
    obtain rfl | he := List.mem_cons.1 he
    · exact ⟨p, List.mem_cons_self, _, rfl⟩
    · obtain ⟨q, hq, a, rfl⟩ := hnew e he
      have hk := perform_engineKept p s
      exact ⟨q, List.mem_cons_of_mem _ hq, a, by rw [requestPin_congr hk.clkPin hk.dioPin]⟩

/-- The event of a call that fails does not show the level of the answer, and a delay's shows nothing of it. -/
theorem eventOf_eq (p : Prim) (a : Answer) :
    eventOf p a = eventOf p ⟨false, false⟩ ∨ eventOf p a = eventOf p ⟨false, true⟩ ∨
    (isDelay p = false ∧ eventOf p a = eventOf p ⟨true, false⟩) := by
  obtain ⟨f, v⟩ := a
  cases f with
  | false => cases v <;> simp
  | true => cases p <;> simp [eventOf, isDelay]

/-- Settles O27, by the two parts of an operation: each of its calls appends its own entry, and its end appends none. -/
theorem eventsAreOnTheTwoPinsOnly : Obligations.EventsAreOnTheTwoPinsOnly := by
  intro i s t h
  obtain rfl | ⟨ps, hps, ht⟩ := exec_ends h
  · exact ⟨[], by simp [configurationError]⟩
  · obtain ⟨-, htrace, -, hclk, hdio, -⟩ := end_kept ht
    obtain ⟨new, hnew, hentry⟩ := performAll_entries ps (loadOperands i s)
    have hk := performAll_engineKept ps (loadOperands i s)
    obtain ⟨-, htrace', -⟩ := loadOperands_kept i s
    refine ⟨new, by rw [htrace, hnew, htrace'], fun e he => ?_⟩
    obtain ⟨p, hp, a, rfl⟩ := hentry e he
    have hpin := (requestPin_congr (hclk.trans hk.clkPin) (hdio.trans hk.dioPin) p).symm
    have hout : p ≠ .dir .clk .in := by
      rintro rfl
      exact (hps _ hp).elim (clkStaysOut_eventsOf _ _ _) clkStaysOut_idle
    obtain hev | hev | ⟨hd, hev⟩ := eventOf_eq p a
    · exact .inl ⟨p, hev, hpin, hout⟩
    · exact .inr (.inl ⟨p, hev, hpin, hout⟩)
    · exact .inr (.inr ⟨p, hd, hev, hpin, hout⟩)

end Sys2Proof.Machine
end

section
/-! What a receiver of the line protocol sees of whole frames (40_transport.md R107), and the frames of SETL. -/

namespace Sys2Proof.Machine

/-! ### The receiver and the answers to reads -/

theorem receive_eraseLevel (r : Receiver) (e : Event) : receive r (eraseLevel e) = receive r e := by
  cases e <;> rfl

/-- The receiver sees nothing of the levels that reads return. -/
theorem framesOf_eraseLevel (es : List Event) : framesOf (es.map eraseLevel) = framesOf es := by
  simp only [framesOf, receiveAll, List.foldlM_map, receive_eraseLevel]

theorem eraseLevel_eventOf {p : Prim} {a : Answer} (h : isDelay p = false → a.fails = false) :
    [eraseLevel (eventOf p a)] = successEvents false [p] := by
  cases p with
  | dly => rfl
  | _ => simp_all [eventOf, isDelay, successEvents, eraseLevel]

/-- Without failure, a sequence has the events of its calls, but for the levels that reads return. -/
theorem eraseLevel_expectedEvents {ans : Nat → Answer} {k : Nat} {ps : List Prim}
    (h : ∀ j < callsIn ps, (ans (k + j)).fails = false) :
    (expectedEvents ans k ps).map eraseLevel = successEvents false ps := by
  induction ps generalizing k with
  | nil => rfl
  | cons p ps ih =>
    rw [callsIn_cons] at h
    have hp : isDelay p = false → (ans k).fails = false := fun hd => h 0 (by simp [hd])
    have hps : ∀ j < callsIn ps, (ans ((if isDelay p then k else k + 1) + j)).fails = false := by
      intro j hj
      cases hd : isDelay p with
      | true => exact h j (by simpa [hd] using hj)
      | false => simpa [Nat.add_assoc, Nat.add_comm 1] using h (j + 1) (by simpa [hd] using hj)
    calc (expectedEvents ans k (p :: ps)).map eraseLevel
      _ = [eraseLevel (eventOf p (ans k))] ++ (expectedEvents ans (if isDelay p then k else k + 1) ps).map eraseLevel := rfl
      _ = successEvents false [p] ++ successEvents false ps := by rw [eraseLevel_eventOf hp, ih hps]
      _ = successEvents false (p :: ps) := (successEvents_append false [p] ps).symm

theorem framesOf_expectedEvents {ans : Nat → Answer} {ps : List Prim} (h : ∀ j < callsIn ps, (ans j).fails = false) :
    framesOf (expectedEvents ans 0 ps) = framesOf (successEvents false ps) := by
  rw [← framesOf_eraseLevel, eraseLevel_expectedEvents (by simpa using h)]

/-! ### Whole frames -/

/-- A byte sent inside a frame is appended to it. -/
theorem receive_wrb (a lt : Bool) (b : Byte) (cur : List Byte) (fr : List (List Byte)) :
    receiveAll ⟨false, some lt, lt, true, 0, 0, cur, fr⟩ (successEvents a (wrbEvents b)) =
      some ⟨false, some true, true, true, 0, 0, cur ++ [b], fr⟩ := by
  have hbits : wireBits b = [b.getLsbD 0, b.getLsbD 1, b.getLsbD 2, b.getLsbD 3, b.getLsbD 4, b.getLsbD 5, b.getLsbD 6, b.getLsbD 7] := rfl
  simpa [wrbEvents, hbits, successEvents_append, receiveAll_append, receive_cell, receive_ack] using takeBit_all b

theorem receive_bytes (a lt : Bool) (bs cur : List Byte) (fr : List (List Byte)) :
    ∃ v, receiveAll ⟨false, some lt, lt, true, 0, 0, cur, fr⟩ (successEvents a (bs.flatMap wrbEvents)) =
      some ⟨false, some v, v, true, 0, 0, cur ++ bs, fr⟩ := by
  induction bs generalizing lt cur with
  | nil => exact ⟨lt, by simp [successEvents, receiveAll]⟩
  | cons b bs ih =>
    obtain ⟨v, hv⟩ := ih true (cur ++ [b])
    refine ⟨v, ?_⟩
    rw [List.flatMap_cons, successEvents_append, receiveAll_append, receive_wrb, Option.bind_some, hv, List.append_assoc]
    rfl

/-- START, bytes and STOP on idle lines add one frame of exactly those bytes, and leave the lines idle. -/
theorem receive_frame (a : Bool) (n : Nat) (acc : Byte) (cur bs : List Byte) (fr : List (List Byte)) :
    ∃ n' acc' cur', receiveAll ⟨true, some true, true, false, n, acc, cur, fr⟩ (successEvents a (frameEvents bs)) =
      some ⟨true, some true, true, false, n', acc', cur', fr ++ [bs]⟩ := by
  obtain ⟨v, hbytes⟩ := receive_bytes a false bs [] fr
  obtain ⟨n', acc', cur', hstop⟩ := receive_stop a v ([] ++ bs) fr
  refine ⟨n', acc', cur', ?_⟩
  rw [frameEvents, successEvents_append, successEvents_append, receiveAll_append, receiveAll_append, receive_start, Option.bind_some,
    hbytes, Option.bind_some, hstop, List.nil_append]

theorem receive_frames (a : Bool) (n : Nat) (acc : Byte) (cur : List Byte) (fr bss : List (List Byte)) :
    (receiveAll ⟨true, some true, true, false, n, acc, cur, fr⟩ (successEvents a (bss.flatMap frameEvents))).map (·.frames) =
      some (fr ++ bss) := by
  induction bss generalizing n acc cur fr with
  | nil => simp [successEvents, receiveAll]
  | cons bs bss ih =>
    obtain ⟨n', acc', cur', hframe⟩ := receive_frame a n acc cur bs fr
    simp [successEvents_append, receiveAll_append, hframe, ih]

/-- What the receiver sees of frames sent one after another is those frames. -/
theorem framesOf_frames (a : Bool) (bss : List (List Byte)) : framesOf (successEvents a (bss.flatMap frameEvents)) = some bss :=
  receive_frames a 0 0 [] [] bss

/-! ### The frames of SETL -/

/-- The three frames of a SETL (30_encoding.md R76). -/
def setlFrames (c : Cfg) (b : BitVec 3) (l : Nat) : List (List Byte) :=
  [[c.dataCommand], [c.addressCommand, segAt c l], [ctrlByte c b]]

theorem setlEvents_eq_frames (c : Cfg) (b : BitVec 3) (l : Nat) :
    setlEvents c b l = (setlFrames c b l).flatMap frameEvents := by
  simp [setlEvents, txn1Events, txn2Events, txn3Events, setlFrames, frameEvents]

theorem operational_iff (s : State) : operational s = true ↔ cfgOk s.cfg = true ∧ s.constructed = true ∧ pinsLegal s = true := by
  simp [operational, and_assoc]

/-- SETL, no call failing, in a state that admits it. -/
theorem exec_setl_of_noFailure {l : Int} {s : State} (ho : operational s = true) (hv : levelInRange l = true) (hn : NoFailure s 144) :
    exec (.setl l) s = .next (complete (.setl l) (performAll (setlEvents s.cfg s.bright l.toNat) s)) := by
  obtain ⟨hcfg, hcon, hl⟩ := (operational_iff s).1 ho
  exact exec_of_noFailure (i := .setl l) (by simp [testsPass, operandsValid, isInit, hcfg, hcon, hv]) (pinsInSpace_of_legal hl)
    (by rwa [eventsOf, callsIn_setl]) rfl

/-- A SETL, no call failing, keeps the brightness and sends it in the last of its three frames. -/
theorem exec_setl_sends {l : Int} {s : State} (ho : operational s = true) (hv : levelInRange l = true) (hn : NoFailure s 144) :
    ∃ t new, exec (.setl l) s = .next t ∧ t.bright = s.bright ∧ eventsSeen t = eventsSeen s ++ new ∧
      framesOf new = some (setlFrames s.cfg s.bright l.toNat) := by
  refine ⟨_, _, exec_setl_of_noFailure ho hv hn, ?_, (complete_eventsSeen _ _).trans (performAll_events _ s), ?_⟩
  · rw [complete_bright, (performAll_engineKept _ s).bright]
  · rw [framesOf_expectedEvents (by rwa [callsIn_setl]), setlEvents_eq_frames, framesOf_frames]

/-- SETB in range, in a state that admits it. -/
theorem exec_setb_of_brightInRange {b : Int} {s : State} (ho : operational s = true) (hv : brightInRange b = true) :
    exec (.setb b) s = .next (complete (.setb b) s) := by
  obtain ⟨hcfg, hcon, -⟩ := (operational_iff s).1 ho
  exact exec_of_testsPass (i := .setb b) (by simp [testsPass, operandsValid, isInit, hcfg, hcon, hv])

/-- Settles O37: SETB stores the brightness and uses no answer, and SETL sends what is stored. -/
theorem setlSendsTheStoredBrightness : Obligations.SetlSendsTheStoredBrightness := by
  intro l b s ho hl0 hl7 hn
  have hsetb := exec_setb_of_brightInRange ho ((brightInRange_iff b.toNat).2 ⟨by omega, by omega⟩)
  generalize hu : complete (.setb b.toNat) s = u at hsetb
  have hbright : u.bright = b := by rw [← hu, complete_bright]; exact brightReg_ofNat b
  have hu' : operational u = true := hu ▸ ho
  have hnu : NoFailure u 144 := hu ▸ hn
  obtain ⟨t, new, hsetl, hb, hev, hframes⟩ := exec_setl_sends hu' ((levelInRange_iff l).2 ⟨hl0, hl7⟩) hnu
  refine ⟨t, new, by simp only [update, runInstrs, hsetb, hsetl], hb.trans hbright, ?_, ?_⟩
  · rw [hev, ← hu, complete_eventsSeen]
  · rw [hframes, hbright, ← hu]
    rfl

end Sys2Proof.Machine
end

section
/-! The decoder against the encoder: the decoder's equation for each opcode (30_encoding.md R73, R74), what a first byte that decodes is (R88),
and the control byte (R80). -/

namespace Sys2Proof.Machine

/-! ### The control byte -/

/-- A byte is its bits 7:3 and its bits 2:0. -/
theorem and_mask_or_low : ∀ b : Byte, b &&& displayControlMask ||| (b.extractLsb' 0 3).setWidth 8 = b := by decide +kernel

theorem mask_and_brightness : ∀ b : BitVec 3, displayControlMask &&& b.setWidth 8 = 0#8 := by decide

theorem displayControl_low {c : Cfg} (h : cfgOk c = true) : c.displayControl.extractLsb' 0 3 = 0#3 := by
  simp only [cfgOk, Bool.and_eq_true, beq_iff_eq] at h
  exact h.2

/-- In a well-formed configuration the constant has no bit outside the mask of its row. -/
theorem displayControl_and_mask {c : Cfg} (h : cfgOk c = true) : c.displayControl &&& displayControlMask = c.displayControl := by
  simpa [displayControl_low h] using and_mask_or_low c.displayControl

/-- The constant and the brightness have no bit in common. -/
theorem displayControl_and_brightness {c : Cfg} (h : cfgOk c = true) (b : BitVec 3) : c.displayControl &&& b.setWidth 8 = 0#8 := by
  rw [← displayControl_and_mask h, BitVec.and_assoc, mask_and_brightness, BitVec.and_zero]

theorem ctrlByte_low {c : Cfg} (h : cfgOk c = true) (b : BitVec 3) : (ctrlByte c b).extractLsb' 0 3 = b := by
  have hb : (b.setWidth 8).extractLsb' 0 3 = b := by revert b; decide
  rw [ctrlByte, BitVec.extractLsb'_or, displayControl_low h, hb, BitVec.zero_or]

theorem ctrlByte_high (c : Cfg) (b : BitVec 3) : (ctrlByte c b).extractLsb' 3 5 = c.displayControl.extractLsb' 3 5 := by
  have hb : (b.setWidth 8).extractLsb' 3 5 = 0#5 := by revert b; decide
  rw [ctrlByte, BitVec.extractLsb'_or, hb, BitVec.or_zero]

theorem ctrlByte_and_mask {c : Cfg} (h : cfgOk c = true) (b : BitVec 3) : ctrlByte c b &&& displayControlMask = c.displayControl := by
  rw [ctrlByte, BitVec.and_comm, BitVec.and_or_distrib_left, mask_and_brightness, BitVec.or_zero, BitVec.and_comm, displayControl_and_mask h]

/-- Settles O55: the constant has none of the bits 2:0, and the brightness no other. -/
theorem controlByteCarriesTheBrightness : Obligations.ControlByteCarriesTheBrightness := fun _ b h =>
  ⟨ctrlByte_low h b, ctrlByte_high _ b, (BitVec.add_eq_or_of_and_eq_zero _ _ (displayControl_and_brightness h b)).symm⟩

/-! ### Wire bytes -/

/-- What a first byte that decodes is (30_encoding.md R88). -/
theorem decodeWire_first_ok {c : Cfg} {b : Byte} {i : Instr} (h : decodeWire c .first b = .ok i) :
    (i = .wDataCommand ∧ b = c.dataCommand) ∨ (i = .wAddressCommand ∧ b = c.addressCommand) ∨
    (i = .wDisplayControl (b.extractLsb' 0 3) ∧ b &&& displayControlMask = c.displayControl) := by
  simp only [decodeWire] at h
  split_ifs at h with hdata haddress hcontrol <;> cases h
  · exact .inl ⟨rfl, hdata⟩
  · exact .inr (.inl ⟨rfl, haddress⟩)
  · exact .inr (.inr ⟨rfl, hcontrol⟩)

theorem decodeWire_first_total {c : Cfg} {b : Byte}
    (h : b = c.dataCommand ∨ b = c.addressCommand ∨ b &&& displayControlMask = c.displayControl) :
    ∃ i, decodeWire c .first b = .ok i := by
  simp only [decodeWire]
  split_ifs with hdata haddress hcontrol
  · exact ⟨_, rfl⟩
  · exact ⟨_, rfl⟩
  · exact ⟨_, rfl⟩
  · simp [hdata, haddress, hcontrol] at h

/-- A control byte that is neither of the two other commands decodes to its brightness. -/
theorem decodeWire_ctrlByte {c : Cfg} {b : BitVec 3} (h : cfgOk c = true) (hd : ctrlByte c b ≠ c.dataCommand)
    (ha : ctrlByte c b ≠ c.addressCommand) : decodeWire c .first (ctrlByte c b) = .ok (.wDisplayControl b) := by
  simp [decodeWire, hd, ha, ctrlByte_and_mask h, ctrlByte_low h]

/-- A byte with the constant's bits 7:3 is the control byte of its bits 2:0. -/
theorem ctrlByte_of_mask {c : Cfg} {b : Byte} (h : b &&& displayControlMask = c.displayControl) : ctrlByte c (b.extractLsb' 0 3) = b := by
  rw [ctrlByte, ← h, and_mask_or_low]

/-- Settles O5: a first byte that decodes matches one of the three commands, whose bits 7:6 differ in the default configuration (log 7). -/
theorem wireBytesAreClassifiedByPosition : Obligations.WireBytesAreClassifiedByPosition := by
  refine ⟨fun _ _ => rfl, fun b i h => ?_, fun b h => decodeWire_first_total h⟩
  obtain ⟨rfl, rfl⟩ | ⟨rfl, rfl⟩ | ⟨rfl, hb⟩ := decodeWire_first_ok h
  · exact .inl ⟨rfl, rfl, by decide⟩
  · exact .inr (.inl ⟨rfl, rfl, by decide⟩)
  · refine .inr (.inr ⟨rfl, hb, ?_⟩)
    rw [← ctrlByte_of_mask hb]
    generalize b.extractLsb' 0 3 = b3
    revert b3
    decide

/-! ### Command words, by opcode -/

theorem decodeCmd_init (b a : Byte) : decodeCmd (cmdWord 0x01 b a) = .ok (.init (sext8 a) (sext8 b)) := by
  simp [decodeCmd]

theorem decodeCmd_setb (b a : Byte) : decodeCmd (cmdWord 0x02 b a) = ifZero (b == 0) 0x02 (.setb (sext8 a)) := by
  simp [decodeCmd]

theorem decodeCmd_setl (b a : Byte) : decodeCmd (cmdWord 0x03 b a) = ifZero (b == 0) 0x03 (.setl (sext8 a)) := by
  simp [decodeCmd]

theorem decodeCmd_release (b a : Byte) : decodeCmd (cmdWord 0x04 b a) = ifZero (b == 0 && a == 0) 0x04 .release := by
  simp [decodeCmd]

theorem decodeCmd_start (b a : Byte) : decodeCmd (cmdWord 0x10 b a) = ifZero (b == 0 && a == 0) 0x10 .start := by
  simp [decodeCmd]

theorem decodeCmd_stop (b a : Byte) : decodeCmd (cmdWord 0x11 b a) = ifZero (b == 0 && a == 0) 0x11 .stop := by
  simp [decodeCmd]

theorem decodeCmd_wrb (b a : Byte) : decodeCmd (cmdWord 0x12 b a) = ifZero (b == 0) 0x12 (.wrb a) := by
  simp [decodeCmd, zext8]

/-- The opcode is none of R73. -/
def UnknownOpcode (op : Byte) : Prop :=
  op ≠ 0x01 ∧ op ≠ 0x02 ∧ op ≠ 0x03 ∧ op ≠ 0x04 ∧ op ≠ 0x10 ∧ op ≠ 0x11 ∧ op ≠ 0x12

theorem decodeCmd_unknown {op : Byte} (b a : Byte) (h : UnknownOpcode op) :
    decodeCmd (cmdWord op b a) = .error (.unknownOpcode op) := by
  obtain ⟨h1, h2, h3, h4, h10, h11, h12⟩ := h
  simp only [decodeCmd, opField_cmdWord, if_neg h1, if_neg h2, if_neg h3, if_neg h4, if_neg h10, if_neg h11, if_neg h12]

theorem opcode_cases (op : Byte) :
    op = 0x01 ∨ op = 0x02 ∨ op = 0x03 ∨ op = 0x04 ∨ op = 0x10 ∨ op = 0x11 ∨ op = 0x12 ∨ UnknownOpcode op := by
  unfold UnknownOpcode
  tauto

/-! ### Decoding after encoding, and back -/

/-- The host operations under every configuration: each operand is read back from its field. -/
theorem decode_encode_hostOp (c : Cfg) {i : Instr} (hw : i.wellFormed = true) (hh : i.isHostOp = true) : decode c (encode c i) = .ok i := by
  cases i with
  | init clk dio =>
    obtain ⟨hclk, hdio⟩ := Bool.and_eq_true_iff.1 hw
    rw [encode, decode, decodeCmd_init, sext8_operandField hclk, sext8_operandField hdio]
  | setb b => rw [encode, decode, decodeCmd_setb, sext8_operandField hw]; rfl
  | setl l => rw [encode, decode, decodeCmd_setl, sext8_operandField hw]; rfl
  | release => exact decodeCmd_release 0 0
  | start => exact decodeCmd_start 0 0
  | stop => exact decodeCmd_stop 0 0
  | wrb byte => exact decodeCmd_wrb 0 byte
  | _ => cases hh

/-- Settles O2: the wire bytes of the default configuration (log 7) are three different commands. -/
theorem decodeOfEncodeIsTheInstruction : Obligations.DecodeOfEncodeIsTheInstruction := by
  refine ⟨fun c i => decode_encode_hostOp c, fun i hw => ?_⟩
  cases i with
  | wDataCommand => decide
  | wAddressCommand => decide
  | wDisplayControl b => exact decodeWire_ctrlByte (by decide) (by revert b; decide) (by revert b; decide)
  | wSegmentData p => rfl
  | _ => exact decode_encode_hostOp _ hw rfl

theorem ifZero_field_ok {b op : Byte} {i j : Instr} (h : ifZero (b == 0) op i = .ok j) : b = 0 ∧ j = i := by
  obtain ⟨hz, hj⟩ := ifZero_ok h
  exact ⟨eq_of_beq hz, hj⟩

theorem ifZero_fields_ok {b a op : Byte} {i j : Instr} (h : ifZero (b == 0 && a == 0) op i = .ok j) : b = 0 ∧ a = 0 ∧ j = i := by
  obtain ⟨hz, hj⟩ := ifZero_ok h
  obtain ⟨hb, ha⟩ := Bool.and_eq_true_iff.1 hz
  exact ⟨eq_of_beq hb, eq_of_beq ha, hj⟩

/-- A command word that decodes, by its opcode: its operands are its fields, and the fields it does not use are 0. -/
theorem encode_of_decodeCmd (c : Cfg) {w : CmdWord} {i : Instr} (h : decodeCmd w = .ok i) : encode c i = .cmd w ∧ i.wellFormed = true := by
  rw [← cmdWord_fields w] at h ⊢
  generalize opField w = op at h ⊢
  generalize bField w = b at h ⊢
  generalize aField w = a at h ⊢
  obtain rfl | rfl | rfl | rfl | rfl | rfl | rfl | hop := opcode_cases op
  · obtain rfl := Except.ok.inj ((decodeCmd_init b a).symm.trans h)
    simp [encode, Instr.wellFormed, operandFits_sext8]
  · obtain ⟨rfl, rfl⟩ := ifZero_field_ok ((decodeCmd_setb b a).symm.trans h)
    exact ⟨by rw [encode, operandField_sext8], operandFits_sext8 a⟩
  · obtain ⟨rfl, rfl⟩ := ifZero_field_ok ((decodeCmd_setl b a).symm.trans h)
    exact ⟨by rw [encode, operandField_sext8], operandFits_sext8 a⟩
  · obtain ⟨rfl, rfl, rfl⟩ := ifZero_fields_ok ((decodeCmd_release b a).symm.trans h)
    exact ⟨rfl, rfl⟩
  · obtain ⟨rfl, rfl, rfl⟩ := ifZero_fields_ok ((decodeCmd_start b a).symm.trans h)
    exact ⟨rfl, rfl⟩
  · obtain ⟨rfl, rfl, rfl⟩ := ifZero_fields_ok ((decodeCmd_stop b a).symm.trans h)
    exact ⟨rfl, rfl⟩
  · obtain ⟨rfl, rfl⟩ := ifZero_field_ok ((decodeCmd_wrb b a).symm.trans h)
    exact ⟨rfl, rfl⟩
  · cases (decodeCmd_unknown b a hop).symm.trans h

/-- Settles O3: a command word is its fields; a first byte is the command it matches, a later one is data. -/
theorem encodeOfDecodeIsTheWord : Obligations.EncodeOfDecodeIsTheWord := by
  intro c k i h
  cases k with
  | cmd w => exact encode_of_decodeCmd c h
  | wire pos b =>
    cases pos with
    | later =>
      cases h
      exact ⟨rfl, rfl⟩
    | first =>
      obtain ⟨rfl, rfl⟩ | ⟨rfl, rfl⟩ | ⟨rfl, hb⟩ := decodeWire_first_ok h
      · exact ⟨rfl, rfl⟩
      · exact ⟨rfl, rfl⟩
      · exact ⟨by rw [encode, ctrlByte_of_mask hb], rfl⟩

/-! ### Invalid words -/

theorem ifZero_error_iff (z : Bool) (op : Byte) (i : Instr) : (∃ e, ifZero z op i = .error e) ↔ z = false := by
  cases z <;> simp [ifZero]

/-- A "must be 0" field of the row that `op` names is not 0 (30_encoding.md R74). -/
def FieldNotZero (op b a : Byte) : Prop :=
  ((op = 0x02 ∨ op = 0x03 ∨ op = 0x12) ∧ b ≠ 0) ∨ ((op = 0x04 ∨ op = 0x10 ∨ op = 0x11) ∧ (b ≠ 0 ∨ a ≠ 0))

theorem decodeCmd_error_iff (op b a : Byte) :
    (∃ e, decodeCmd (cmdWord op b a) = .error e) ↔ UnknownOpcode op ∨ FieldNotZero op b a := by
  obtain rfl | rfl | rfl | rfl | rfl | rfl | rfl | hop := opcode_cases op
  · simp only [decodeCmd_init]
    simp [UnknownOpcode, FieldNotZero]
  · simp only [decodeCmd_setb, ifZero_error_iff]
    simp [UnknownOpcode, FieldNotZero]
  · simp only [decodeCmd_setl, ifZero_error_iff]
    simp [UnknownOpcode, FieldNotZero]
  · simp only [decodeCmd_release, ifZero_error_iff]
    simp [UnknownOpcode, FieldNotZero, imp_iff_not_or]
  · simp only [decodeCmd_start, ifZero_error_iff]
    simp [UnknownOpcode, FieldNotZero, imp_iff_not_or]
  · simp only [decodeCmd_stop, ifZero_error_iff]
    simp [UnknownOpcode, FieldNotZero, imp_iff_not_or]
  · simp only [decodeCmd_wrb, ifZero_error_iff]
    simp [UnknownOpcode, FieldNotZero]
  · simp [decodeCmd_unknown b a hop, hop]

/-- Settles O4: opcode by opcode the words the decoder rejects are R74's, and an idle engine has no step for one. -/
theorem invalidWordsAreRefused : Obligations.InvalidWordsAreRefused := by
  intro c w
  refine ⟨?_, fun s rest e hc hs hi hd => step_invalid hs hi (hc ▸ hd)⟩
  have h := decodeCmd_error_iff (opField w) (bField w) (aField w)
  rwa [cmdWord_fields] at h

/-! ### Sample words -/

/-- Settles O1, by evaluating the decoder on each word. -/
theorem sampleWordsDecode : Obligations.SampleWordsDecode := by
  unfold Obligations.SampleWordsDecode
  decide

end Sys2Proof.Machine
end

section
/-! The instructions that only send: what they come to one by one and one after another, SETL as its three transactions (30_encoding.md R86),
and the wire bytes (R78 to R81; log 3). -/

namespace Sys2Proof.Machine

/-! ### Instructions that only send -/

/-- The instruction makes calls and writes no register before or after them: SETL, START, STOP, WRB and the wire bytes. -/
def onlySends (i : Instr) : Bool :=
  match i with
  | .init _ _ => false
  | .setb _ => false
  | .release => false
  | _ => true

/-- Such an instruction is its calls and the response. -/
theorem course_of_onlySends {i : Instr} (h : onlySends i = true) :
    isInit i = false ∧ runsEvents i = true ∧ ∀ s, complete i s = s.respond completedCode := by
  cases i with
  | init => cases h
  | setb => cases h
  | release => cases h
  | _ => exact ⟨rfl, rfl, fun _ => rfl⟩

/-- No call failing, an instruction that only sends performs its events and responds 0. -/
theorem exec_of_onlySends {i : Instr} {s : State} (ho : operational s = true) (hi : onlySends i = true) (hv : operandsValid i = true)
    (hn : NoFailure s (callsIn (eventsOf s.cfg s.bright i))) :
    exec i s = .next ((performAll (eventsOf s.cfg s.bright i) s).respond completedCode) := by
  obtain ⟨hcfg, hcon, hl⟩ := (operational_iff s).1 ho
  obtain ⟨hinit, hruns, hcomplete⟩ := course_of_onlySends hi
  have hload : loadOperands i s = s := loadOperands_eq_self hinit
  rw [exec_of_noFailure (by simp [testsPass, hinit, hcfg, hcon, hv]) (hload.symm ▸ pinsInSpace_of_legal hl) hn hruns, hload, hcomplete]

/-- What calls and then the response leave alone. -/
theorem EngineKept.respond {s u : State} (h : EngineKept s u) (c : BitVec 2) :
    Responded s (u.respond c) c ∧ FlagsKept s (u.respond c) ∧ OperandRegsKept s (u.respond c) ∧
      (u.respond c).constructed = s.constructed ∧ ConstantsKept s (u.respond c) :=
  ⟨⟨congrArg (· ++ [c]) h.responses, rfl, rfl⟩, ⟨h.errSeen, h.lastErr⟩, ⟨h.bright, h.clkPin, h.dioPin⟩, h.constructed,
    ⟨h.cfg, h.inbox⟩⟩

/-! ### One after another -/

/-- A call does not look at the responses. -/
theorem perform_respond (p : Prim) (s : State) (c : BitVec 2) : perform p (s.respond c) = (perform p s).respond c :=
  perform_comm (f := (·.respond c)) (fun _ _ => rfl) (fun _ => rfl) (fun _ => rfl) (fun p _ _ => by cases p <;> rfl)
    (fun p _ => by cases p <;> rfl) p s

theorem performAll_respond (ps : List Prim) (s : State) (c : BitVec 2) : performAll ps (s.respond c) = (performAll ps s).respond c := by
  induction ps generalizing s with
  | nil => rfl
  | cons p ps ih => rw [performAll_cons, perform_respond, ih, performAll_cons]

/-- A state that admits every operation but INIT still does after calls and a response. -/
theorem operational_after (ps : List Prim) (c : BitVec 2) {s : State} (ho : operational s = true) :
    operational ((performAll ps s).respond c) = true := by
  have hk := performAll_engineKept ps s
  obtain ⟨hcfg, hcon, hl⟩ := (operational_iff s).1 ho
  refine (operational_iff _).2 ⟨?_, ?_, ?_⟩
  · exact hk.cfg.symm ▸ hcfg
  · exact hk.constructed.trans hcon
  · exact (pinsLegal_of_kept hk).trans hl

/-- Response 0, `n` times. -/
def respondTimes (n : Nat) (s : State) : State := (fun t => t.respond completedCode)^[n] s

theorem respondTimes_succ (n : Nat) (s : State) :
    respondTimes (n + 1) s = { s.respond completedCode with responses := s.responses ++ List.replicate (n + 1) completedCode } := by
  induction n generalizing s with
  | zero => rfl
  | succ n ih =>
    rw [respondTimes, Function.iterate_succ_apply, ← respondTimes, ih]
    simp [State.respond, List.replicate_succ]

/-- Instructions that only send, one after another and no call failing: all their events, and a response 0 to each. -/
theorem runInstrs_of_onlySends {is : List Instr} {s : State} (ho : operational s = true)
    (hi : ∀ i ∈ is, onlySends i = true ∧ operandsValid i = true)
    (hn : NoFailure s (callsIn (is.flatMap (eventsOf s.cfg s.bright)))) :
    runInstrs is s = .next (respondTimes is.length (performAll (is.flatMap (eventsOf s.cfg s.bright)) s)) := by
  induction is generalizing s with
  | nil => rfl
  | cons i is ih =>
    obtain ⟨hsend, hvalid⟩ := hi i List.mem_cons_self
    rw [List.flatMap_cons, callsIn_append] at hn
    have hk := performAll_engineKept (eventsOf s.cfg s.bright i) s
    have hexec := exec_of_onlySends ho hsend hvalid (hn.mono (by omega))
    generalize hu : (performAll (eventsOf s.cfg s.bright i) s).respond completedCode = u at hexec
    have hcfg : u.cfg = s.cfg := hu ▸ hk.cfg
    have hbright : u.bright = s.bright := hu ▸ hk.bright
    have hrest := ih (s := u) (hu ▸ operational_after _ _ ho) (fun j hj => hi j (List.mem_cons_of_mem i hj))
      (by rw [hcfg, hbright]; exact hu ▸ hn.after _)
    rw [hcfg, hbright, ← hu, performAll_respond, ← performAll_append, hu] at hrest
    simp only [runInstrs, hexec, hrest]
    rfl

/-- `TXN1 ; TXN2 l ; TXN3 b` has the events of SETL (30_encoding.md R86). -/
theorem txns_events (c : Cfg) (b b' : BitVec 3) (l : Nat) : (txn1 c ++ txn2 c l ++ txn3 c b).flatMap (eventsOf c b') = setlEvents c b l := by
  simp [txn1, txn2, txn3, eventsOf, setlEvents, txn1Events, txn2Events, txn3Events]

/-- Settles O34: SETL and the ten raw operations only send, and they send the same events. -/
theorem setlEqualsItsTransactionsSpelledOut : Obligations.SetlEqualsItsTransactionsSpelledOut := by
  intro l s ho hl0 hl7 hn
  have hsetl := exec_of_onlySends (i := .setl l) ho rfl ((levelInRange_iff l).2 ⟨hl0, hl7⟩) (by rwa [eventsOf, callsIn_setl])
  have hraw := runInstrs_of_onlySends (is := txn1 s.cfg ++ txn2 s.cfg l.toNat ++ txn3 s.cfg s.bright) ho
    (by simp [txn1, txn2, txn3, onlySends, operandsValid]) (by rwa [txns_events, callsIn_setl])
  have hresponses := (performAll_engineKept (setlEvents s.cfg s.bright l.toNat) s).responses
  rw [eventsOf] at hsetl
  rw [txns_events, show (txn1 s.cfg ++ txn2 s.cfg l.toNat ++ txn3 s.cfg s.bright).length = 9 + 1 from rfl] at hraw
  generalize performAll (setlEvents s.cfg s.bright l.toNat) s = u at hsetl hraw hresponses
  exact ⟨_, hsetl, by rw [hraw, respondTimes_succ, hresponses]⟩

/-- Settles O33: SETL's events are three frames (30_encoding.md R76), and the receiver does not look at the acknowledgments. -/
theorem setlSendsExactlyThreeFrames : Obligations.SetlSendsExactlyThreeFrames := by
  intro l s ho hl0 hl7 hn
  obtain ⟨t, new, hexec, -, hev, hframes⟩ := exec_setl_sends ho ((levelInRange_iff l).2 ⟨hl0, hl7⟩) hn
  exact ⟨t, new, hexec, hev, hframes⟩

/-! ### One byte -/

/-- Without a read, events show nothing of the levels answered. -/
theorem eraseLevel_expectedEvents_of_noReads {ps : List Prim} (h : NoReads ps) (ans : Nat → Answer) (k : Nat) :
    (expectedEvents ans k ps).map eraseLevel = expectedEvents ans k ps := by
  induction ps generalizing k with
  | nil => rfl
  | cons p ps ih =>
    have hp : eraseLevel (eventOf p (ans k)) = eventOf p (ans k) := by
      have hread := h p List.mem_cons_self
      cases p with
      | rd => cases hread
      | dly => rfl
      | _ => cases hf : (ans k).fails <;> simp [eventOf, hf, eraseLevel]
    rw [expectedEvents, List.map_cons, hp, ih fun q hq => h q (List.mem_cons_of_mem p hq)]

theorem successEvents_of_noReads {ps : List Prim} (h : NoReads ps) (a a' : Bool) : successEvents a ps = successEvents a' ps := by
  refine List.map_congr_left fun p hp => ?_
  have hread := h p hp
  cases p with
  | rd => cases hread
  | _ => rfl

/-- Without failure and without a read, a sequence has the events of its calls. -/
theorem expectedEvents_of_noReads {ans : Nat → Answer} {k : Nat} {ps : List Prim} (hr : NoReads ps)
    (h : ∀ j < callsIn ps, (ans (k + j)).fails = false) (a : Bool) : expectedEvents ans k ps = successEvents a ps := by
  rw [← eraseLevel_expectedEvents_of_noReads hr, eraseLevel_expectedEvents h, successEvents_of_noReads hr]

theorem NoReads.append {ps qs : List Prim} (h : NoReads ps) (k : NoReads qs) : NoReads (ps ++ qs) :=
  List.forall_mem_append.2 ⟨h, k⟩

/-- Without failure and with one read, a sequence has the events of its calls, the answer to the read in it. -/
theorem expectedEvents_of_oneRead {ans : Nat → Answer} {pre post : List Prim} (hpre : NoReads pre) (hpost : NoReads post) (l : Line)
    (h : ∀ j < callsIn (pre ++ .rd l :: post), (ans j).fails = false) :
    expectedEvents ans 0 (pre ++ .rd l :: post) = successEvents (ans (callsIn pre)).level (pre ++ .rd l :: post) := by
  simp only [callsIn_append, callsIn_cons, isDelay] at h
  have hread : eventOf (.rd l) (ans (callsIn pre)) = .rd l (ans (callsIn pre)).level := by
    simp [eventOf, h (callsIn pre) (by simp)]
  have hbefore := expectedEvents_of_noReads (ans := ans) (k := 0) hpre (fun j hj => h _ (by simp; omega)) (ans (callsIn pre)).level
  have hafter := expectedEvents_of_noReads (ans := ans) (k := callsIn pre + 1) hpost (fun j hj => h _ (by simp; omega))
    (ans (callsIn pre)).level
  calc expectedEvents ans 0 (pre ++ .rd l :: post)
    _ = expectedEvents ans 0 pre ++ eventOf (.rd l) (ans (callsIn pre)) :: expectedEvents ans (callsIn pre + 1) post := by
      rw [expectedEvents_append, Nat.zero_add]
      rfl
    _ = successEvents (ans (callsIn pre)).level pre ++ .rd l (ans (callsIn pre)).level :: successEvents (ans (callsIn pre)).level post := by
      rw [hbefore, hread, hafter]
    _ = successEvents (ans (callsIn pre)).level (pre ++ .rd l :: post) := (successEvents_append _ pre (.rd l :: post)).symm

/-- What a byte has before its read and after it. -/
theorem wrbEvents_eq_oneRead (b : Byte) :
    wrbEvents b = ((wireBits b).flatMap bitCell ++ ackSlot.take 3) ++ .rd .dio :: ackSlot.drop 4 := by
  rw [wrbEvents, List.append_assoc]
  rfl

/-- Without failure a byte has the events of its calls, the answer to the 27th of them in its one read. -/
theorem expectedEvents_wrb {ans : Nat → Answer} (h : ∀ j < 30, (ans j).fails = false) (b : Byte) :
    expectedEvents ans 0 (wrbEvents b) = successEvents (ans 26).level (wrbEvents b) := by
  rw [← callsIn_wrb b] at h
  rw [wrbEvents_eq_oneRead] at h ⊢
  exact expectedEvents_of_oneRead ((noReads_cells _).append (by simp [NoReads, ackSlot, isRead])) (by simp [NoReads, ackSlot, isRead]) _ h

theorem course_of_byteSent {c : Cfg} {i : Instr} {byte : Byte} (b : BitVec 3) (h : byteSent c i = some byte) :
    onlySends i = true ∧ operandsValid i = true ∧ eventsOf c b i = wrbEvents byte := by
  cases i with
  | init => cases h
  | setb => cases h
  | setl => cases h
  | release => cases h
  | start => cases h
  | stop => cases h
  | _ => cases h; exact ⟨rfl, rfl, rfl⟩

/-- No call failing, every instruction that sends one byte comes to the same state as any other that sends it. -/
theorem exec_of_byteSent {i : Instr} {s : State} {byte : Byte} (ho : operational s = true) (h : byteSent s.cfg i = some byte)
    (hn : NoFailure s 30) : exec i s = .next ((performAll (wrbEvents byte) s).respond completedCode) := by
  obtain ⟨hsend, hvalid, hev⟩ := course_of_byteSent s.bright h
  rw [exec_of_onlySends ho hsend hvalid (by rwa [hev, callsIn_wrb]), hev]

/-- Settles O44: each wire byte is an instruction that sends one byte, as WRB is. -/
theorem wireBytesAreSentAsTheirBytes : Obligations.WireBytesAreSentAsTheirBytes := by
  intro s ho hn b3 pat i byte hi
  have hbyte : byteSent s.cfg i = some byte := by
    obtain ⟨rfl, rfl⟩ | ⟨rfl, rfl⟩ | ⟨rfl, rfl⟩ | ⟨rfl, rfl⟩ := hi <;> rfl
  obtain ⟨-, hcon, -⟩ := (operational_iff s).1 ho
  have hexec := exec_of_byteSent ho hbyte hn
  have hwrb := exec_of_byteSent (i := .wrb byte) ho rfl hn
  have hk := performAll_engineKept (wrbEvents byte) s
  have hev := performAll_events (wrbEvents byte) s
  rw [expectedEvents_wrb hn] at hev
  have hack := performAll_lastAck (ps := wrbEvents byte) (by rwa [callsIn_wrb])
  rw [ackAfter_wrb, Nat.zero_add] at hack
  have hother := performAll_otherPins (wrbEvents byte) s
  generalize performAll (wrbEvents byte) s = u at hexec hwrb hk hev hack hother
  obtain ⟨hresp, hflags, hregs, hcon', hconst⟩ := hk.respond completedCode
  exact ⟨_, hexec, hwrb, hev, hack, hresp, hflags, hregs, hcon'.trans hcon, hconst, hother⟩

end Sys2Proof.Machine
end

section
/-! The transport operations (40_transport.md): START, STOP and WRB, the line the acknowledgment is read from, whole frames of raw
operations, and the number of events of each kind. -/

namespace Sys2Proof.Machine

/-! ### START, STOP and WRB -/

/-- The state `t` is `s` after the calls `ps` of an operation, none failing, and its response 0 (40_transport.md R100). -/
structure Sent (s : State) (ps : List Prim) (t : State) : Prop where
  events : eventsSeen t = eventsSeen s ++ expectedEvents (answerAt s) 0 ps
  line (l : Line) : t.lineAt l = ps.foldl (lineEffect l) (s.lineAt l)
  lastAck : t.lastAck = ackAfter (answerAt s) 0 ps s.lastAck
  responded : Responded s t completedCode
  flags : FlagsKept s t
  operandRegs : OperandRegsKept s t
  constructed : t.constructed = s.constructed
  constants : ConstantsKept s t
  otherPins : OtherPinsKept s t

theorem sent_respond_performAll {s : State} {ps : List Prim} (hl : pinsLegal s = true) (hn : NoFailure s (callsIn ps)) :
    Sent s ps ((performAll ps s).respond completedCode) := by
  obtain ⟨hresp, hflags, hregs, hcon, hconst⟩ := (performAll_engineKept ps s).respond completedCode
  exact ⟨performAll_events ps s, performAll_lineAt hl hn, performAll_lastAck hn, hresp, hflags, hregs, hcon, hconst,
    performAll_otherPins ps s⟩

/-- No call failing, an instruction that only sends has a next state, and that is its events sent. -/
theorem exec_sent {i : Instr} {s : State} (ho : operational s = true) (hi : onlySends i = true) (hv : operandsValid i = true)
    (hn : NoFailure s (callsIn (eventsOf s.cfg s.bright i))) :
    ∃ t, exec i s = .next t ∧ Sent s (eventsOf s.cfg s.bright i) t ∧ t.constructed = true := by
  obtain ⟨-, hcon, hl⟩ := (operational_iff s).1 ho
  have hsent := sent_respond_performAll hl hn
  exact ⟨_, exec_of_onlySends ho hi hv hn, hsent, hsent.constructed.trans hcon⟩

theorem bothOut_iff (s : State) : bothOut s = true ↔ ∀ l, (s.lineAt l).dirn = some .out := by
  simp only [bothOut, Bool.and_eq_true, beq_iff_eq]
  exact ⟨fun h l => by cases l; exacts [h.1, h.2], fun h => ⟨h .clk, h .dio⟩⟩

theorem linesIdle_of_lineAt {s : State} (h : ∀ l, s.lineAt l = PinState.idle) : linesIdle s = true := by
  simp [linesIdle, h]

/-- Settles O41: START sends four writes and no read, and each line's last write is 0. -/
theorem startSendsTheStartCondition : Obligations.StartSendsTheStartCondition := by
  intro s ho hn
  obtain ⟨t, hexec, hsent, hcon⟩ := exec_sent (i := .start) ho rfl rfl hn
  have hev := expectedEvents_of_noReads (ans := answerAt s) (k := 0) noReads_start (by simpa [callsIn_start] using hn) false
  exact ⟨t, hexec, hsent.events.trans (congrArg _ hev), (hsent.line .clk).trans (start_line _ _), (hsent.line .dio).trans (start_line _ _),
    hsent.responded, hsent.flags, hsent.operandRegs, hcon, hsent.lastAck.trans (ackAfter_start _ _ _), hsent.constants,
    hsent.otherPins⟩

/-- Settles O42: STOP sends four writes and no read, and each line's last write is 1, which is idle on an output. -/
theorem stopSendsTheStopCondition : Obligations.StopSendsTheStopCondition := by
  intro s ho hn
  obtain ⟨t, hexec, hsent, hcon⟩ := exec_sent (i := .stop) ho rfl rfl hn
  have hev := expectedEvents_of_noReads (ans := answerAt s) (k := 0) noReads_stop (by simpa [callsIn_stop] using hn) false
  have hline : ∀ l, t.lineAt l = ⟨(s.lineAt l).dirn, some true⟩ := fun l => (hsent.line l).trans (stop_line l _)
  have hidle : bothOut s = true → linesIdle t = true := fun hb =>
    linesIdle_of_lineAt fun l => by rw [hline, (bothOut_iff s).1 hb]; rfl
  exact ⟨t, hexec, hsent.events.trans (congrArg _ hev), hline .clk, hline .dio, hidle, hsent.responded, hsent.flags, hsent.operandRegs,
    hcon, hsent.lastAck.trans (ackAfter_stop _ _ _), hsent.constants, hsent.otherPins⟩

/-- The bits of a byte spelled out, bit 0 first (20_memory.md R54). -/
theorem wrbEvents_eq_cells (b : Byte) : wrbEvents b =
    bitCell (b.getLsbD 0) ++ bitCell (b.getLsbD 1) ++ bitCell (b.getLsbD 2) ++ bitCell (b.getLsbD 3) ++ bitCell (b.getLsbD 4) ++
      bitCell (b.getLsbD 5) ++ bitCell (b.getLsbD 6) ++ bitCell (b.getLsbD 7) ++ ackSlot := rfl

/-- Settles O43: WRB sends the events of its byte, with the one answer that its one read shows and samples. -/
theorem wrbSendsTheByteAndSamplesTheAck : Obligations.WrbSendsTheByteAndSamplesTheAck := by
  intro byte s ho hn
  obtain ⟨t, hexec, hsent, hcon⟩ := exec_sent (i := .wrb byte) ho rfl rfl hn
  have hev : eventsSeen t = eventsSeen s ++ successEvents (answerAt s 26).level (wrbEvents byte) :=
    hsent.events.trans (congrArg _ (expectedEvents_wrb hn byte))
  rw [wrbEvents_eq_cells] at hev
  exact ⟨t, hexec, hev, hsent.lastAck.trans (ackAfter_wrb _ 0 byte _), (hsent.line .clk).trans (wrb_clk byte _),
    (hsent.line .dio).trans (wrb_dio byte _), hsent.responded, hsent.flags, hsent.operandRegs, hcon, hsent.constants, hsent.otherPins⟩

/-! ### The read of the acknowledgment -/

/-- What a byte has before its read: its eight bit cells, the data line released, the clock raised, and one delay. -/
theorem take_wrbEvents (b : Byte) :
    (wrbEvents b).take 43 = (wireBits b).flatMap bitCell ++ [.dir .dio .in, .wr .clk true, .dly] := rfl

/-- Just before the read the data line is an input. -/
theorem beforeRead_dio (b : Byte) (q : PinState) : (((wrbEvents b).take 43).foldl (lineEffect .dio) q).dirn = some .in := by
  rw [take_wrbEvents, List.foldl_append]
  rfl

/-- Just before the read the clock's latch is high, its direction as it was. -/
theorem beforeRead_clk (b : Byte) (q : PinState) : ((wrbEvents b).take 43).foldl (lineEffect .clk) q = ⟨q.dirn, some true⟩ := by
  rw [take_wrbEvents, List.foldl_append, ← cells_clk (wireBits b) q]
  rfl

/-- An input drives nothing (10_state.md R31). -/
theorem driven_of_in {s : State} {l : Line} (h : (s.lineAt l).dirn = some .in) : driven s l = .z := by
  simp only [driven, h]

/-- A byte has one read, in its ack slot: the bit cells have none. -/
theorem countP_isRead_wrb (b : Byte) : (wrbEvents b).countP isRead = 1 := by
  have hbefore : ((wireBits b).flatMap bitCell).countP isRead = 0 := (noReads_cells _).countP_eq_zero
  rw [wrbEvents, List.countP_append, hbefore]
  rfl

/-- Settles O49: the events before the read release the data line and raise the clock. -/
theorem ackIsReadFromTheReleasedLine : Obligations.AckIsReadFromTheReleasedLine := by
  intro b s hl hn
  have hline := performAll_lineAt (ps := (wrbEvents b).take 43) hl hn
  have hclk := (hline .clk).trans (beforeRead_clk b _)
  refine ⟨rfl, countP_isRead_wrb b, driven_of_in ?_, ?_⟩
  · rw [hline .dio, beforeRead_dio]
  · simp only [driven, hclk]
    obtain _ | _ | _ := (s.lineAt .clk).dirn <;> rfl

/-! ### Numbers of events -/

/-- How many events of a kind a frame has, from how many each byte has. -/
theorem countP_frameEvents {kind : Prim → Bool} {k : Nat} (h : ∀ b, (wrbEvents b).countP kind = k) (bs : List Byte) :
    (frameEvents bs).countP kind = startEvents.countP kind + stopEvents.countP kind + k * bs.length := by
  have hbytes : (bs.flatMap wrbEvents).countP kind = k * bs.length := by
    induction bs with
    | nil => rfl
    | cons b bs ih => rw [List.flatMap_cons, List.countP_append, h, ih, List.length_cons, Nat.mul_succ, Nat.add_comm]
  rw [frameEvents, List.countP_append, List.countP_append, hbytes, Nat.add_right_comm]

/-- How many events of a kind a SETL has: those of three frames with four bytes in all (30_encoding.md R76). -/
theorem countP_setlEvents {kind : Prim → Bool} {k : Nat} (h : ∀ b, (wrbEvents b).countP kind = k) (c : Cfg) (b : BitVec 3) (l : Nat) :
    (setlEvents c b l).countP kind = 3 * (startEvents.countP kind + stopEvents.countP kind) + 4 * k := by
  simp only [setlEvents_eq_frames, setlFrames, List.flatMap_cons, List.flatMap_nil, List.countP_append, countP_frameEvents h,
    List.countP_nil, List.length_cons, List.length_nil]
  omega

theorem length_wrb (b : Byte) : (wrbEvents b).length = 48 := by
  rw [wrbEvents, List.length_append, length_cells, length_wireBits]
  rfl

theorem countP_isWrite_wrb (b : Byte) : (wrbEvents b).countP isWrite = 27 := rfl
theorem countP_isDir_wrb (b : Byte) : (wrbEvents b).countP isDir = 2 := rfl
theorem countP_isDelay_wrb (b : Byte) : (wrbEvents b).countP isDelay = 18 := rfl

/-- The number of all events, as the number of a kind that takes in every event. -/
theorem countP_any_wrb (b : Byte) : (wrbEvents b).countP (fun _ => true) = 48 := by
  rw [List.countP_true, length_wrb]

theorem length_frameEvents (bs : List Byte) : (frameEvents bs).length = 8 + 48 * bs.length := by
  rw [← List.countP_true, countP_frameEvents countP_any_wrb]
  rfl

theorem length_setlEvents (c : Cfg) (b : BitVec 3) (l : Nat) : (setlEvents c b l).length = 216 := by
  rw [← List.countP_true, countP_setlEvents countP_any_wrb]
  rfl

/-- INIT and RELEASE have the events of `IDLE_SEQ` (41_driver.md R121, R127). -/
theorem eventsOf_eq_idleSeq {i : Instr} (c : Cfg) (b : BitVec 3) (h : isInit i = true ∨ i = .release) : eventsOf c b i = idleSeq := by
  obtain h | rfl := h
  · cases i with
    | init => rfl
    | _ => cases h
  · rfl

/-- Settles O50: the short sequences by inspection, a byte by its cells and its ack slot, a frame and SETL by their bytes. -/
theorem eventCounts : Obligations.EventCounts := by
  refine ⟨fun c b i hi => ?_, fun _ _ _ => rfl, fun _ _ => ⟨rfl, rfl, rfl, rfl⟩, fun _ _ _ => rfl, fun b => ?_, fun bs => ?_,
    fun c b l => ?_⟩
  · rw [eventsOf_eq_idleSeq c b hi]
    exact ⟨rfl, rfl, rfl, rfl, rfl⟩
  · exact ⟨length_wrb b, countP_isWrite_wrb b, countP_isDir_wrb b, countP_isRead_wrb b, countP_isDelay_wrb b⟩
  · exact ⟨length_frameEvents bs, (countP_frameEvents countP_isDelay_wrb bs).trans (Nat.zero_add _)⟩
  · exact ⟨length_setlEvents c b _, countP_setlEvents countP_isWrite_wrb c b _, countP_setlEvents countP_isDir_wrb c b _,
      countP_setlEvents countP_isRead_wrb c b _, countP_setlEvents countP_isDelay_wrb c b _⟩

/-! ### Frames of raw operations -/

/-- Settles O45: one frame is the case of one of frames sent one after another. -/
theorem framesCarryTheirBytes : Obligations.FramesCarryTheirBytes := by
  intro bs ack
  simpa using framesOf_frames ack [bs]

theorem frameOps_events (c : Cfg) (b : BitVec 3) (bs : List Byte) : (frameOps bs).flatMap (eventsOf c b) = frameEvents bs := by
  simp [frameOps, frameEvents, eventsOf, List.flatMap_map]

theorem frameOps_onlySend (bs : List Byte) : ∀ i ∈ frameOps bs, onlySends i = true ∧ operandsValid i = true := by
  simp only [frameOps, List.cons_append, List.mem_cons, List.mem_append, List.mem_map, List.not_mem_nil, or_false]
  rintro i (rfl | ⟨b, -, rfl⟩ | rfl) <;> exact ⟨rfl, rfl⟩

/-- Any number of bytes leaves an output an output: WRB turns the data line back before it ends (40_transport.md R104). -/
theorem bytes_dirn_out (bs : List Byte) (l : Line) {q : PinState} (h : q.dirn = some .out) :
    ((bs.flatMap wrbEvents).foldl (lineEffect l) q).dirn = some .out := by
  induction bs generalizing q with
  | nil => exact h
  | cons b bs ih =>
    rw [List.flatMap_cons, List.foldl_append]
    apply ih
    cases l
    · rw [wrb_clk]; exact h
    · rw [wrb_dio]

theorem frame_line_idle (bs : List Byte) (l : Line) {q : PinState} (h : q.dirn = some .out) :
    (frameEvents bs).foldl (lineEffect l) q = PinState.idle := by
  rw [frameEvents, List.foldl_append, List.foldl_append, stop_line, bytes_dirn_out bs l (by rwa [start_line])]
  rfl

theorem callsIn_frame (bs : List Byte) : callsIn (frameEvents bs) = 8 + 30 * bs.length := by
  rw [callsIn, countP_frameEvents callsIn_wrb]
  rfl

/-- Settles O46: a frame of raw operations only sends, its events are one frame, and it leaves outputs idle. -/
theorem rawFramesAreSentWhole : Obligations.RawFramesAreSentWhole := by
  intro bs s ho hb hn
  obtain ⟨-, -, hl⟩ := (operational_iff s).1 ho
  rw [← callsIn_frame] at hn
  have hrun := runInstrs_of_onlySends ho (frameOps_onlySend bs) (by rwa [frameOps_events])
  have hlen : (frameOps bs).length = bs.length + 1 + 1 := by simp [frameOps]
  rw [frameOps_events, hlen, respondTimes_succ] at hrun
  have hk := performAll_engineKept (frameEvents bs) s
  have hidle : ∀ l, (performAll (frameEvents bs) s).lineAt l = PinState.idle := fun l =>
    (performAll_lineAt hl hn l).trans (frame_line_idle bs l ((bothOut_iff s).1 hb l))
  have hframes : framesOf (expectedEvents (answerAt s) 0 (frameEvents bs)) = some [bs] :=
    (framesOf_expectedEvents hn).trans (framesCarryTheirBytes bs false)
  have hev := performAll_events (frameEvents bs) s
  generalize performAll (frameEvents bs) s = u at hrun hk hidle hev
  exact ⟨_, _, hrun, hev, hframes, linesIdle_of_lineAt hidle, ⟨hk.errSeen, hk.lastErr⟩, ⟨hk.bright, hk.clkPin, hk.dioPin⟩,
    congrArg (· ++ _) hk.responses⟩

end Sys2Proof.Machine
end

section
/-! The driver operations (41_driver.md): what `CONSTRUCTED` admits, INIT and RELEASE by their one event sequence, SETB, SETL, and which events
of a SETL depend on the level and which on the brightness. -/

namespace Sys2Proof.Machine

/-! ### What `CONSTRUCTED` admits -/

/-- Settles O13: every instruction is behind its gate; past it INIT runs on the legal pins of its own operands, any other on those of the
constructed driver. -/
theorem operationsAreGatedByConstructed : Obligations.OperationsAreGatedByConstructed := by
  intro s hc
  refine ⟨fun hn => ⟨fun clk dio => ?_, fun i hi => exec_of_notConstructed hc hi hn⟩,
    fun hn => ⟨fun clk dio => exec_of_alreadyConstructed hc rfl hn, fun hl i hi => ?_⟩⟩
  · have hneeds : s.constructed = !isInit (.init clk dio) := hn
    rw [exec_eq_gate, gate_of_pass hc hneeds]
    exact ungated_total fun hv => pinsInSpace_of_legal (loadInit_pinsLegal s hv)
  · exact exec_total hc (fun _ => hl) (by rw [hn, hi]; rfl)

/-! ### INIT and RELEASE -/

/-- INIT and RELEASE, no call failing: the four events of `IDLE_SEQ`, the lines idle, response 0 (41_driver.md R129). -/
theorem complete_idleSeq {i : Instr} {s t : State} (hl : pinsLegal (loadOperands i s) = true) (hn : NoFailure s 4)
    (ht : t = complete i (performAll idleSeq (loadOperands i s))) :
    eventsSeen t = eventsSeen s ++ [.dir .clk .out, .dir .dio .out, .wr .clk true, .wr .dio true] ∧ linesIdle t = true ∧
      Responded s t completedCode := by
  subst ht
  have hn' : NoFailure (loadOperands i s) (callsIn idleSeq) := fun k hk => (loadOperands_answerAt i s k).symm ▸ hn k hk
  have hev := expectedEvents_of_noReads (k := 0) noReads_idle (by simpa using hn') false
  refine ⟨?_, linesIdle_of_lineAt fun l => ?_, (complete_responded i _).of_kept (performed_kept i idleSeq s).1⟩
  · rw [complete_eventsSeen, performAll_events, hev, loadOperands_eventsSeen]
    rfl
  · rw [complete_lineAt, performAll_lineAt hl hn', idleSeq_line]

/-- Settles O30: INIT is its register writes, `IDLE_SEQ` and `CONSTRUCTED <- 1`. -/
theorem initConstructsTheDriver : Obligations.InitConstructsTheDriver := by
  intro clk dio s ho hc0 hc1 hd0 hd1 hne hn
  have hv := (initValid_iff clk dio).2 ⟨⟨hc0, hc1⟩, ⟨hd0, hd1⟩, hne⟩
  have hexec := exec_init_of_noFailure ho hv hn
  obtain ⟨hev, hidle, hresp⟩ := complete_idleSeq (i := .init clk dio) (loadInit_pinsLegal s hv) hn rfl
  obtain ⟨hb, hclk, hdio, hcon, hflags, hack⟩ := init_leaves (s := s) (clk := clk) (dio := dio) rfl
  obtain ⟨hconst, -⟩ := operationsLeaveTheRestAlone _ _ _ hexec
  exact ⟨_, hexec, by rw [hclk, pinReg_toNat hc0 hc1], by rw [hdio, pinReg_toNat hd0 hd1], hb, hcon, hev, hidle, hresp, hflags, hack,
    hconst⟩

/-- RELEASE discards the driver, whether its calls fail or not (41_driver.md R127, 60_exceptions.md R167). -/
theorem exec_release_constructed {s t : State} (h : exec .release s = .next t) : t.constructed = false := by
  obtain ⟨-, -, ⟨-, hcause⟩ | ⟨-, hrun⟩⟩ := exec_next h
  · simp at hcause
  · obtain ⟨-, u, -, ⟨-, rfl⟩ | ⟨-, rfl⟩⟩ := runOp_next hrun
    · simp [complete_constructed, isInit]
    · exact abandon_constructed .release (recover u)

/-- Settles O35: RELEASE is `IDLE_SEQ` and `CONSTRUCTED <- 0`, and writes no other register. -/
theorem releaseDiscardsTheDriver : Obligations.ReleaseDiscardsTheDriver := by
  intro s ho
  obtain ⟨hcfg, hcon, hl⟩ := (operational_iff s).1 ho
  refine ⟨fun hn => ?_, ?_⟩
  · have hexec := exec_release_of_noFailure ho hn
    obtain ⟨hev, hidle, hresp⟩ := complete_idleSeq (i := .release) hl hn rfl
    obtain ⟨-, -, hflags, hack, -⟩ := release_leaves (s := s) rfl
    obtain ⟨hconst, -, hpins, hbright, hregs, -⟩ := operationsLeaveTheRestAlone _ _ _ hexec
    obtain ⟨hclk, hdio⟩ := hregs rfl
    rw [hclk, hdio] at hpins
    exact ⟨_, hexec, exec_release_constructed hexec, hidle, hev, hresp, hflags, ⟨hbright rfl (by simp), hclk, hdio⟩, hack, hconst, hpins⟩
  · obtain ⟨t, ht⟩ := exec_total (i := .release) hcfg (fun _ => hl) hcon
    exact ⟨t, ht, exec_release_constructed ht⟩

/-! ### SETB -/

/-- Past the gate, operands out of range raise ConfigurationError (60_exceptions.md R161). -/
theorem exec_of_invalidOperands {i : Instr} {s : State} (hc : cfgOk s.cfg = true) (hn : s.constructed = !isInit i)
    (hv : operandsValid i = false) : exec i s = .next (configurationError s) := by
  rw [exec_eq_gate, gate_of_pass hc hn, ungated, if_neg (by simp [hv])]

/-- Settles O31: in range SETB is its one write and the response, out of range it is ConfigurationError. -/
theorem setbStoresTheBrightness : Obligations.SetbStoresTheBrightness := by
  refine fun b s hc hn => ⟨fun ⟨hb0, hb7⟩ => ⟨brightReg b, brightReg_toNat hb0 hb7, ?_⟩, fun hb => ?_⟩
  · have hv := (brightInRange_iff b).2 ⟨hb0, hb7⟩
    exact exec_of_testsPass (i := .setb b) (by simp [testsPass, operandsValid, isInit, hc, hn, hv])
  · exact exec_of_invalidOperands hc hn ((brightInRange_false_iff b).2 hb)

/-! ### SETL -/

/-- Settles O32: SETL only sends, and what it sends is the three transactions. -/
theorem setlPerformsTheThreeTransactions : Obligations.SetlPerformsTheThreeTransactions := by
  intro l s ho hl0 hl7 hn
  obtain ⟨t, hexec, hsent, hcon⟩ := exec_sent (i := .setl l) ho rfl ((levelInRange_iff l).2 ⟨hl0, hl7⟩) (by rwa [eventsOf, callsIn_setl])
  rw [eventsOf] at hsent
  have hidle : bothOut s = true → linesIdle t = true := fun hb => linesIdle_of_lineAt fun line => by
    rw [hsent.line]
    cases line
    · rw [setl_clk, (bothOut_iff s).1 hb]
      rfl
    · exact setl_dio _ _ _ _
  exact ⟨t, hexec, hsent.events, hsent.lastAck.trans (ackAfter_setl _ _ _ _ _), hidle, hsent.responded, hsent.flags, hsent.operandRegs,
    hcon, hsent.constants, hsent.otherPins⟩

theorem length_expectedEvents (ans : Nat → Answer) (k : Nat) (ps : List Prim) : (expectedEvents ans k ps).length = ps.length := by
  induction ps generalizing k with
  | nil => rfl
  | cons p ps ih => exact congrArg (· + 1) (ih _)

/-- What a SETL, no call failing, appends to the trace, and what it leaves for the operation after it. -/
theorem exec_setl_appends {l : Int} {s : State} {m : Nat} (ho : operational s = true) (hv : levelInRange l = true)
    (hn : NoFailure s (144 + m)) :
    ∃ t new, exec (.setl l) s = .next t ∧ eventsSeen t = eventsSeen s ++ new ∧ new.length = 216 ∧
      new.map eraseLevel = successEvents false (setlEvents s.cfg s.bright l.toNat) ∧
      operational t = true ∧ NoFailure t m ∧ t.cfg = s.cfg ∧ t.bright = s.bright := by
  have hcalls := callsIn_setl s.cfg s.bright l.toNat
  have hn144 : NoFailure s (callsIn (setlEvents s.cfg s.bright l.toNat)) := hcalls.symm ▸ hn.mono (Nat.le_add_right 144 m)
  have hexec := exec_of_onlySends (i := .setl l) ho rfl hv hn144
  have hk := performAll_engineKept (setlEvents s.cfg s.bright l.toNat) s
  have hev := performAll_events (setlEvents s.cfg s.bright l.toNat) s
  have hop := operational_after (setlEvents s.cfg s.bright l.toNat) completedCode ho
  have hafter : NoFailure (performAll (setlEvents s.cfg s.bright l.toNat) s) m := .after _ (hcalls.symm ▸ hn)
  rw [eventsOf] at hexec
  generalize performAll (setlEvents s.cfg s.bright l.toNat) s = u at hexec hk hev hop hafter
  exact ⟨_, _, hexec, hev, (length_expectedEvents _ _ _).trans (length_setlEvents _ _ _),
    eraseLevel_expectedEvents (by simpa using hn144), hop, hafter, hk.cfg, hk.bright⟩

/-- Settles O38: the second SETL finds the configuration and the brightness the first one found, and events are fixed by these but for the
levels of reads. -/
theorem repeatedSetlSendsIdenticalEvents : Obligations.RepeatedSetlSendsIdenticalEvents := by
  intro l s ho hl0 hl7 hn
  have hv := (levelInRange_iff l).2 ⟨hl0, hl7⟩
  obtain ⟨t, e₁, hexec₁, hev₁, hlen, he₁, hot, hnt, hcfg, hbright⟩ := exec_setl_appends (m := 144) ho hv hn
  obtain ⟨u, e₂, hexec₂, hev₂, -, he₂, -⟩ := exec_setl_appends (m := 0) hot hv hnt
  exact ⟨t, u, e₁, e₂, hexec₁, hexec₂, hev₁, hev₂, hlen, by rw [he₁, he₂, hcfg, hbright]⟩

/-! ### Level and brightness -/

/-- Bit cells differ only in their first events, and there only where their bits differ. -/
theorem getElem?_cells_congr {bs bs' : List Bool} {k : Nat} (hlen : bs.length = bs'.length) (h : ∀ j, k = 5 * j → bs[j]? = bs'[j]?) :
    (bs.flatMap bitCell)[k]? = (bs'.flatMap bitCell)[k]? := by
  induction bs generalizing bs' k with
  | nil => rw [List.length_eq_zero_iff.1 hlen.symm]
  | cons v bs ih =>
    cases bs' with
    | nil => cases hlen
    | cons v' bs' =>
      match k with
      | 0 => simpa [bitCell] using h 0 rfl
      | 1 | 2 | 3 | 4 => rfl
      | k + 5 => exact ih (Nat.succ.inj hlen) fun j hj => h (j + 1) (by omega)

/-- Two bytes in the same place agree at every event but the first of each cell whose bits differ. -/
theorem getElem?_byte_congr (pre post : List Prim) {b b' : Byte} {k : Nat}
    (h : ∀ j < 8, k = pre.length + 5 * j → b.getLsbD j = b'.getLsbD j) :
    (pre ++ wrbEvents b ++ post)[k]? = (pre ++ wrbEvents b' ++ post)[k]? := by
  have hcells : ∀ i, (∀ j < 8, i = 5 * j → b.getLsbD j = b'.getLsbD j) →
      ((wireBits b).flatMap bitCell)[i]? = ((wireBits b').flatMap bitCell)[i]? := by
    refine fun i hi => getElem?_cells_congr (by rw [length_wireBits, length_wireBits]) fun j hj => ?_
    by_cases hj8 : j < 8
    · rw [getElem?_wireBits b hj8, getElem?_wireBits b' hj8, hi j hj8 hj]
    · rw [List.getElem?_eq_none (by rw [length_wireBits]; omega), List.getElem?_eq_none (by rw [length_wireBits]; omega)]
  simp only [wrbEvents, List.getElem?_append, List.length_append, length_cells, length_wireBits]
  split
  · split
    · rfl
    · rw [hcells _ fun j hj hk => h j hj (by omega)]
  · rfl

/-- The first event of bit cell `j` of a byte, after the events before it. -/
theorem getElem?_byte_bit (pre post : List Prim) (b : Byte) {j : Nat} (hj : j < 8) :
    (pre ++ wrbEvents b ++ post)[pre.length + 5 * j]? = some (.wr .dio (bitOf b j)) := by
  rw [List.append_assoc, List.getElem?_append_right (Nat.le_add_right _ _), Nat.add_sub_cancel_left,
    List.getElem?_append_left (by rw [length_wrb]; omega)]
  exact (bitsGoOutLeastSignificantFirst b j hj).1

/-- The events of a SETL before its third byte, the segment data. -/
def beforeSegments (c : Cfg) : List Prim := txn1Events c ++ (startEvents ++ wrbEvents c.addressCommand)

/-- The events of a SETL before its fourth byte, the control byte. -/
def beforeControl (c : Cfg) (l : Nat) : List Prim := txn1Events c ++ txn2Events c l ++ startEvents

theorem length_beforeSegments (c : Cfg) : (beforeSegments c).length = 108 := by
  simp [beforeSegments, txn1Events, length_wrb, startEvents, stopEvents]

theorem length_beforeControl (c : Cfg) (l : Nat) : (beforeControl c l).length = 164 := by
  simp [beforeControl, txn1Events, txn2Events, length_wrb, startEvents, stopEvents]

theorem setlEvents_eq_segments (c : Cfg) (b : BitVec 3) (l : Nat) :
    setlEvents c b l = beforeSegments c ++ wrbEvents (segAt c l) ++ (stopEvents ++ txn3Events c b) := by
  simp [setlEvents, beforeSegments, txn2Events]

theorem setlEvents_eq_control (c : Cfg) (b : BitVec 3) (l : Nat) :
    setlEvents c b l = beforeControl c l ++ wrbEvents (ctrlByte c b) ++ stopEvents := by
  simp [setlEvents, beforeControl, txn3Events]

/-- The brightness is in bits 0 to 2 of the control byte alone (30_encoding.md R80). -/
theorem ctrlByte_getLsbD (c : Cfg) (b b' : BitVec 3) {j : Nat} (hj : 3 ≤ j) : (ctrlByte c b).getLsbD j = (ctrlByte c b').getLsbD j := by
  simp [ctrlByte, BitVec.getLsbD_of_ge _ j hj]

/-- Settles O39: the level is in the third byte alone, the brightness in bits 0 to 2 of the fourth, and each bit is in the first event of its
cell. -/
theorem levelAndBrightnessAreIndependent : Obligations.LevelAndBrightnessAreIndependent := by
  intro c b b' l l' k
  refine ⟨fun hk => ?_, fun hk => ?_, fun j hj => ?_, fun j hj => ?_⟩
  · rw [setlEvents_eq_segments, setlEvents_eq_segments]
    refine getElem?_byte_congr _ _ fun j hj he => ?_
    rw [length_beforeSegments] at he
    exact absurd he (hk j hj)
  · rw [setlEvents_eq_control, setlEvents_eq_control]
    refine getElem?_byte_congr _ _ fun j _ he => ?_
    rw [length_beforeControl] at he
    exact ctrlByte_getLsbD c b b' (Nat.le_of_not_lt fun hj => hk j hj he)
  · rw [setlEvents_eq_segments, ← length_beforeSegments c, getElem?_byte_bit _ _ _ hj]
  · rw [setlEvents_eq_control, ← length_beforeControl c l, getElem?_byte_bit _ _ _ hj]

end Sys2Proof.Machine
end

section
/-! The level a percentage gives (42_level_source.md R152, R153): where LVLP reaches a level, and its integer form. -/

namespace Sys2Proof.Machine

/-- A clamp from 0 on of what is not negative cuts from above only. -/
theorem clampInt_of_nonneg {x : Int} (hx : 0 ≤ x) (hi : Int) : clampInt x 0 hi = min hi x := by
  unfold clampInt
  split
  · omega
  · split <;> omega

/-- From 0 on, LVLP is the number of whole buckets below `p`, cut at 7 (42_level_source.md R152). -/
theorem lvlp_of_nonneg {p : ℚ} (hp : 0 ≤ p) : lvlp p = min 7 ⌊p / (25 / 2)⌋ :=
  clampInt_of_nonneg (x := ⌊p / (25 / 2)⌋) (Int.floor_nonneg.2 (by positivity)) 7

/-- LVLP reaches the level `k` where the bucket of `k` begins: both clauses of the buckets come from this. -/
theorem le_lvlp_iff {p : ℚ} (hp : 0 ≤ p) {k : Nat} (hk : k ≤ 7) : (k : Int) ≤ lvlp p ↔ 25 / 2 * (k : ℚ) ≤ p := by
  have hk7 : (k : Int) ≤ 7 := by exact_mod_cast hk
  rw [lvlp_of_nonneg hp, le_min_iff, and_iff_right hk7, Int.le_floor, le_div_iff₀' (by norm_num), Int.cast_natCast]

theorem lvlp_le_seven {p : ℚ} (hp : 0 ≤ p) : lvlp p ≤ 7 := lvlp_of_nonneg hp ▸ min_le_left ..

/-- Settles O56: `p` is in the bucket of `k` when LVLP reaches `k` and not `k + 1`, and in the last one when it reaches 7. -/
theorem levelBucketsAreOfEqualWidth : Obligations.LevelBucketsAreOfEqualWidth := by
  intro p hp _
  constructor
  · intro k hk
    have hnext : (k : Int) + 1 ≤ lvlp p ↔ 25 / 2 * ((k : ℚ) + 1) ≤ p := by
      exact_mod_cast le_lvlp_iff hp (k := k + 1) (by omega)
    rw [← le_lvlp_iff hp (by omega), ← not_le, ← hnext]
    omega
  · have hlast : 7 ≤ lvlp p ↔ 175 / 2 ≤ p := by
      have hstart : (25 / 2 * (7 : ℕ) : ℚ) = 175 / 2 := by norm_num
      exact hstart ▸ le_lvlp_iff hp le_rfl
    rw [← hlast]
    exact ⟨ge_of_eq, (lvlp_le_seven hp).antisymm⟩

/-- Settles O57: `n / d` counted in buckets of 12.5 is `2n / 25d`, whose floor is the quotient of the natural numbers. -/
theorem levelHasAnIntegerForm : Obligations.LevelHasAnIntegerForm := by
  intro n d _
  have hbuckets : (n : ℚ) / d / (25 / 2) = ((2 * n : ℕ) : ℚ) / ((25 * d : ℕ) : ℚ) := by
    push_cast
    ring
  rw [lvlp_of_nonneg (by positivity), hbuckets, Rat.floor_natCast_div_natCast]
  simp [lvlpRatio]

end Sys2Proof.Machine
end

section
/-! The errors (60_exceptions.md): ConfigurationError by its causes, what a failed call and HardwareAccessError leave, recovery call by call, and
that no step answers with the command line's error. -/

namespace Sys2Proof.Machine

/-! ### ConfigurationError -/

/-- The operands that validation rejects (60_exceptions.md R161). -/
theorem operandsValid_eq_false_iff (i : Instr) : operandsValid i = false ↔
    (∃ clk dio, i = .init clk dio ∧ (clk < 0 ∨ 27 < clk ∨ dio < 0 ∨ 27 < dio ∨ clk = dio)) ∨
    (∃ b, i = .setb b ∧ (b < 0 ∨ 7 < b)) ∨ (∃ l, i = .setl l ∧ (l < 0 ∨ 7 < l)) := by
  cases i with
  | init clk dio => simp [operandsValid, initValid_false_iff]
  | setb b => simp [operandsValid, brightInRange_false_iff]
  | setl l => simp [operandsValid, levelInRange_false_iff]
  | _ => simp [operandsValid]

/-- With valid operands an operation performs its events, and its response is that of its completion or of HardwareAccessError. -/
theorem exec_responded_of_valid {i : Instr} {s t : State} (h : exec i s = .next t) (hv : operandsValid i = true) :
    Responded s t completedCode ∨ Responded s t (errorCode .hardwareAccess) := by
  obtain ⟨hc, hn, -⟩ := exec_next h
  obtain ⟨-, -, -, hresp, -⟩ := loadOperands_kept i s
  rw [exec_eq_gate, gate_of_pass hc hn, ungated, if_pos hv] at h
  split at h
  · obtain ⟨-, u, rfl, ⟨-, rfl⟩ | ⟨-, rfl⟩⟩ := runOp_next h
    · exact .inl ((complete_responded i _).of_kept ((runEvents_engineKept _ _).responses.trans hresp))
    · exact .inr ((hardwareAccessError_responded i _).of_kept ((runEvents_engineKept _ _).responses.trans hresp))
  · injection h with h
    exact .inl (h ▸ (complete_responded i _).of_kept hresp)

/-- ConfigurationError is answered exactly to operands out of range. -/
theorem responded_configuration_iff {i : Instr} {s t : State} (h : exec i s = .next t) :
    Responded s t (errorCode .configuration) ↔ operandsValid i = false := by
  obtain ⟨hc, hn, -⟩ := exec_next h
  refine ⟨fun hr => ?_, fun hv => ?_⟩
  · by_contra hv
    obtain hr' | hr' := exec_responded_of_valid h (by simpa using hv) <;> exact absurd (hr.code_unique hr') (by decide)
  · rw [exec_of_invalidOperands hc hn hv] at h
    injection h with h
    exact h ▸ ⟨rfl, rfl, rfl⟩

/-- Settles O20: the response is 1 exactly where validation rejects the operands, and ConfigurationError appends no event. -/
theorem configurationErrorHasTheseCauses : Obligations.ConfigurationErrorHasTheseCauses := by
  intro i s t h
  refine ⟨(responded_configuration_iff h).trans (operandsValid_eq_false_iff i), fun hr => ?_⟩
  rw [exec_eq_configurationError h hr]
  rfl

/-- Settles O21: operands out of range are rejected past the gate, before any call is made. -/
theorem configurationErrorWritesOnlyTheFlags : Obligations.ConfigurationErrorWritesOnlyTheFlags := fun i s hc hn hi =>
  (exec_of_invalidOperands hc hn ((operandsValid_eq_false_iff i).2 hi)).trans (congrArg _ (configurationError_eq s))

/-! ### No response 3 -/

/-- The responses after a step: none after hardware reset, else as they were or one more, which is a code the engine has (60_exceptions.md
R160). -/
theorem step_responses {s t : State} (h : step s = .next t) :
    t.responses = [] ∨ t.responses = s.responses ∨ ∃ c, t.responses = s.responses ++ [c] ∧ c ≠ errorCode .argument := by
  obtain ⟨rest, -, rfl⟩ | ⟨hs, -, -, rfl⟩ | ⟨-, -, rfl⟩ | ⟨-, c, rest, i, -, -, ht⟩ := step_next h
  · exact .inl rfl
  · obtain ⟨p, q, -, he⟩ | ⟨i, he | he⟩ := seqStep_call_or_end (s := s.setInbox (afterSteps 1 s.inbox)) hs <;> rw [he]
    · exact .inr (.inl (perform_engineKept p (s.setInbox _)).responses)
    · exact .inr (.inr ⟨_, (complete_responded i _).1, by decide⟩)
    · exact .inr (.inr ⟨_, (abandon_responded i _).1, by decide⟩)
  · exact .inr (.inl rfl)
  · obtain ⟨u, -, ⟨-, rfl⟩ | ⟨-, rfl, rfl⟩⟩ := takeStep_next ht
    · obtain ⟨-, -, -, hresp, -⟩ := loadOperands_kept i (s.setInbox rest)
      exact .inr (.inl hresp)
    · exact .inr (.inr ⟨errorCode .configuration, rfl, by decide⟩)

/-- Settles O19: no step adds a response 3, and an invalid word has no step. -/
theorem argumentErrorIsNeverAnswered : Obligations.ArgumentErrorIsNeverAnswered := by
  refine ⟨fun s t hs h r hr => ?_, fun s w rest e hs hi hd => step_invalid hs hi hd⟩
  obtain he | he | ⟨c, he, hc⟩ := step_responses h <;> rw [he] at hr
  · cases hr
  · exact hs r hr
  · obtain hr | hr := List.mem_append.1 hr
    · exact hs r hr
    · exact List.mem_singleton.1 hr ▸ hc

/-! ### One call, failed or not -/

/-- Whether a call fails is the environment's next answer, unless it is `Delay()` (60_exceptions.md R162). -/
theorem failsNow_of_call {p : Prim} (h : isDelay p = false) (s : State) : failsNow p s = (nextAnswer s).fails := by
  simp [failsNow, h]

theorem fails_of_failsNow {p : Prim} {s : State} (h : failsNow p s = true) : (nextAnswer s).fails = true := by
  simp only [failsNow, Bool.and_eq_true] at h
  exact h.2

/-- A failed call moves no pin (60_exceptions.md R168). -/
theorem perform_pins_of_fails {p : Prim} {s : State} (h : failsNow p s = true) : (perform p s).pins = s.pins := by
  rw [perform_pins]
  cases p <;> simp [eventOf, fails_of_failsNow h, replayEntry]

/-- A failed read returns no bit (R168). -/
theorem perform_lastAck_of_fails {p : Prim} {s : State} (h : failsNow p s = true) : (perform p s).lastAck = s.lastAck := by
  rw [perform_lastAck]
  cases p <;> simp [fails_of_failsNow h]

/-- A call that is no `PinDir` and no `PinWrite` moves no pin (10_state.md R31). -/
theorem perform_pins_of_not_write {p : Prim} (hd : isDir p = false) (hw : isWrite p = false) (s : State) :
    (perform p s).pins = s.pins := by
  rw [perform_pins]
  cases p with
  | dir => cases hd
  | wr => cases hw
  | rd => cases h : (nextAnswer s).fails <;> simp [eventOf, h, replayEntry]
  | dly => rfl

theorem pinOf_lt_of_pinsInSpace {s : State} (h : pinsInSpace s = true) (l : Line) : (s.pinOf l).toNat < pinCount := by
  simp only [pinsInSpace, Bool.and_eq_true, decide_eq_true_eq] at h
  cases l
  · exact h.1
  · exact h.2

/-- Setting the pin of a line sets the line. -/
theorem lineAt_of_pins_set {s t : State} {l : Line} {q : PinState} (hk : EngineKept s t) (hp : pinsInSpace s = true)
    (h : t.pins = s.pins.setIfInBounds (s.pinOf l).toNat q) : t.lineAt l = q := by
  rw [State.lineAt, pinOf_congr hk, State.pinAt, h]
  simp [pinOf_lt_of_pinsInSpace hp]

/-- A `PinDir` that succeeds sets the direction (10_state.md R31). -/
theorem perform_dir_lineAt {s : State} {l : Line} {d : Dir} (hp : pinsInSpace s = true) (hf : failsNow (.dir l d) s = false) :
    (perform (.dir l d) s).lineAt l = ⟨some d, (s.lineAt l).latch⟩ := by
  refine lineAt_of_pins_set (perform_engineKept _ s) hp ?_
  rw [failsNow_of_call rfl] at hf
  rw [perform_pins]
  simp [eventOf, hf, requestPin, replayEntry, State.lineAt, State.pinAt]

/-- A `PinWrite` that succeeds sets the latch, whatever the direction (R31). -/
theorem perform_wr_lineAt {s : State} {l : Line} {v : Bool} (hp : pinsInSpace s = true) (hf : failsNow (.wr l v) s = false) :
    (perform (.wr l v) s).lineAt l = ⟨(s.lineAt l).dirn, some v⟩ := by
  refine lineAt_of_pins_set (perform_engineKept _ s) hp ?_
  rw [failsNow_of_call rfl] at hf
  rw [perform_pins]
  simp [eventOf, hf, requestPin, replayEntry, State.lineAt, State.pinAt]

/-- Settles O23, call by call. -/
theorem callsMovePinsAsTheirEventsSay : Obligations.CallsMovePinsAsTheirEventsSay := by
  intro s l hp
  refine ⟨fun p hf => ⟨perform_pins_of_fails hf, perform_lastAck_of_fails hf⟩, fun hf => ?_, fun d hf => perform_dir_lineAt hp hf,
    fun v hf => perform_wr_lineAt hp hf, perform_pins_of_not_write rfl rfl s, perform_pins_of_not_write rfl rfl s, fun hf => ?_⟩
  · rw [perform_trace]
    simp [requestPin, eventOf, fails_of_failsNow hf]
  · rw [failsNow_of_call rfl] at hf
    simp [perform_lastAck, hf, ← nextAnswer_eq]

/-! ### HardwareAccessError -/

/-- HardwareAccessError is recovery after the calls made so far, and the end. -/
theorem hardwareAccessError_performAll (i : Instr) (ps : List Prim) (s : State) :
    hardwareAccessError i (performAll ps s) = abandon i (performAll (ps ++ idleSeq) s) := by
  rw [performAll_append]
  rfl

/-- `CONSTRUCTED` after HardwareAccessError: INIT has not set it, RELEASE has cleared it (60_exceptions.md R167). -/
theorem abandoned_constructed {i : Instr} {s : State} (hn : s.constructed = !isInit i) (ps : List Prim) :
    (abandon i (performAll ps (loadOperands i s))).constructed = (!isInit i && !(i == .release)) := by
  obtain ⟨-, -, -, -, -, -, hcon, -⟩ := loadOperands_kept i s
  rw [abandon_constructed, (performAll_engineKept ps _).constructed, hcon, hn]
  cases i == .release <;> simp

/-- Neither the calls nor the end of HardwareAccessError write an operand register. -/
theorem abandoned_operandRegs (i : Instr) (ps : List Prim) (s : State) : OperandRegsKept s (abandon i (performAll ps s)) := by
  have hk := performAll_engineKept ps s
  obtain ⟨-, hbright, hclk, hdio, -⟩ := abandon_kept i (performAll ps s)
  exact ⟨hbright.trans hk.bright, hclk.trans hk.clkPin, hdio.trans hk.dioPin⟩

/-- `LAST_ACK` after HardwareAccessError is that of the calls before recovery, which reads nothing (R179). -/
theorem abandoned_lastAck (i : Instr) (ps : List Prim) (s : State) :
    (abandon i (performAll (ps ++ idleSeq) s)).lastAck = (performAll ps s).lastAck := by
  obtain ⟨-, -, -, -, hack, -⟩ := abandon_kept i (performAll (ps ++ idleSeq) s)
  rw [hack, performAll_append, performAll_lastAck_of_noReads noReads_idle]

/-- An operation whose call after `pre` is the first that fails: nothing after that call, recovery, the end. -/
theorem exec_of_failure {i : Instr} {s : State} {pre post : List Prim} {p : Prim} (hp : testsPass i s = true)
    (hl : pinsInSpace (loadOperands i s) = true) (he : eventsOf s.cfg s.bright i = pre ++ p :: post) (hd : isDelay p = false)
    (hn : NoFailure s (callsIn pre)) (hf : (answerAt s (callsIn pre)).fails = true) :
    exec i s = .next (abandon i (performAll (pre ++ [p] ++ idleSeq) (loadOperands i s))) := by
  have hr : runsEvents i = true := by
    cases i with
    | setb b => simp [eventsOf] at he
    | _ => rfl
  have hrun := runEvents_of_failure (s := loadOperands i s) (post := post) (fun k hk => (loadOperands_answerAt i s k).symm ▸ hn k hk) hd
    (by rw [loadOperands_answerAt, hf])
  rw [exec_of_testsPass hp, if_pos hr, runOp, if_pos hl, loadOperands_events, he, hrun, ← hardwareAccessError_performAll]
  rfl

/-- Settles O22: the events before the failed call, that call, and recovery are performed one after another, and then the operation ends. -/
theorem failedCallEndsTheOperationInRecovery : Obligations.FailedCallEndsTheOperationInRecovery := by
  intro i s pre post p hp hl he hd hn hf
  have hexec := exec_of_failure hp (pinsInSpace_of_legal hl) he hd hn hf
  obtain ⟨-, hcon, -⟩ := exec_next hexec
  obtain ⟨-, -, -, -, -, -, -, -, hack⟩ := loadOperands_kept i s
  obtain ⟨-, -, -, -, -, htrace, -⟩ := abandon_kept i (performAll (pre ++ [p] ++ idleSeq) (loadOperands i s))
  have hans := funext (loadOperands_answerAt i s)
  have hcalls : callsIn (pre ++ [p]) = callsIn pre + 1 := by simp [callsIn, hd]
  have hn' : NoFailure (loadOperands i s) (callsIn pre) := by rwa [NoFailure, hans]
  refine ⟨_, hexec, ?_, abandon_flagged i _, (abandon_responded i _).of_kept (performed_kept i _ s).1, abandoned_constructed hcon _, ?_,
    fun hrec => linesIdle_of_lineAt fun l => ?_⟩
  · rw [eventsSeen, htrace, ← eventsSeen, performAll_events, loadOperands_eventsSeen, hans, expectedEvents_append, hcalls,
      Nat.zero_add, List.append_assoc]
  · have hfail : failsNow p (performAll pre (loadOperands i s)) = true := by
      simp [failsNow, hd, nextAnswer_eq, performAll_answerAt, hans, hf]
    rw [abandoned_lastAck, performAll_append, performAll_cons, performAll_nil, perform_lastAck_of_fails hfail, performAll_lastAck hn', hans,
      hack]
  · have hk := performAll_engineKept (pre ++ [p]) (loadOperands i s)
    rw [abandon_lineAt, performAll_append, performAll_lineAt (pinsLegal_of_kept hk ▸ hl), idleSeq_line]
    intro k hk
    rw [performAll_answerAt, hans, hcalls]
    exact hrec k hk

/-- Response 2 is HardwareAccessError's alone: operands loaded, the first of its events, recovery, the end. -/
theorem exec_eq_abandon {i : Instr} {s t : State} (h : exec i s = .next t) (hr : Responded s t (errorCode .hardwareAccess)) :
    operandsValid i = true ∧ s.constructed = (!isInit i) ∧
      ∃ k, t = abandon i (performAll ((eventsOf s.cfg s.bright i).take k ++ idleSeq) (loadOperands i s)) := by
  obtain ⟨rfl, -⟩ | ⟨hp, -, hcon, k, rfl | rfl⟩ := exec_shape h
  · exact absurd (hr.code_unique ⟨rfl, rfl, rfl⟩ : errorCode .hardwareAccess = errorCode .configuration) (by decide)
  · have he := hr.code_unique ((complete_responded i _).of_kept (performed_kept i _ s).1)
    exact absurd he (by decide)
  · simp only [testsPass, Bool.and_eq_true] at hp
    exact ⟨hp.2, hcon, k, hardwareAccessError_performAll i _ _⟩

/-- Settles O24: the registers are those the operands were loaded into, and only reads write `LAST_ACK`. -/
theorem registersAfterHardwareAccessError : Obligations.RegistersAfterHardwareAccessError := by
  intro i s t h hr
  obtain ⟨hv, hn, k, ht⟩ := exec_eq_abandon h hr
  have hflags : Flagged t .hardwareAccess := ht ▸ abandon_flagged i _
  have hcon : t.constructed = (!isInit i && !(i == .release)) := ht ▸ abandoned_constructed hn _
  have hregs : OperandRegsKept (loadOperands i s) t := ht ▸ abandoned_operandRegs i _ _
  have hack (hl : ∀ l, i ≠ .setl l) (hb : byteSent s.cfg i = none) : t.lastAck = s.lastAck := by
    obtain ⟨-, -, -, -, -, -, -, -, hload⟩ := loadOperands_kept i s
    rw [ht, abandoned_lastAck, performAll_lastAck_of_noReads ((noReads_of_no_byte s.bright hl hb).take k), hload]
  refine ⟨hflags, fun clk dio hi => ?_, fun hi => ?_, fun hi => ?_⟩
  · subst hi
    obtain ⟨hbright, hclk, hdio⟩ := hregs
    obtain ⟨⟨hc0, hc1⟩, ⟨hd0, hd1⟩, -⟩ := (initValid_iff clk dio).1 hv
    exact ⟨hbright, hclk ▸ pinReg_toNat hc0 hc1, hdio ▸ pinReg_toNat hd0 hd1, hcon, hack (by simp) rfl⟩
  · rw [loadOperands_eq_self hi] at hregs
    exact ⟨hregs, by rw [hcon, hi]; rfl⟩
  · obtain rfl | rfl | rfl := hi <;> exact hack (by simp) rfl

/-- Settles O58: the call or the end that position `k` of recovery gives, with the answer the environment gives next. -/
theorem recoveryPerformsOneCallAStep : Obligations.RecoveryPerformsOneCallAStep := by
  intro s i k hs hp hi
  have hstep := step_running (by simp [hs]) (.inl (pinsInSpace_of_legal hp)) hi
  rw [hstep, seqStep_setInbox]
  refine ⟨fun p he => ?_, fun hk => ?_⟩
  · rw [seqStep_recovery hs he]
    have hkept := perform_engineKept p s
    refine ⟨_, rfl, ?_, hkept.responses, ⟨hkept.errSeen, hkept.lastErr⟩, hkept.constructed, rfl⟩
    rw [← nextAnswer_eq]
    exact perform_trace p s
  · rw [seqStep_abandon hs (List.getElem?_eq_none hk)]
    obtain ⟨-, hbright, hclk, hdio, -, htrace, hpins, -⟩ := abandon_kept i s
    refine ⟨_, rfl, htrace, hpins, abandon_responded i s, abandon_flagged i s, ⟨hbright, hclk, hdio⟩, ?_⟩
    rw [setInbox_constructed, abandon_constructed]
    cases i == .release <;> simp

end Sys2Proof.Machine
end

section
/-! The levels that reads are answered with (40_transport.md R105, 60_exceptions.md R170): two states that differ in them only, through every
operation. -/

namespace Sys2Proof.Machine

/-- `s` with other levels: in `LAST_ACK`, in the events seen, and in the answers still to come. -/
def State.relevel (s : State) (ack : Bool) (trace : List Entry) (answers : List Answer) : State :=
  { s with lastAck := ack, trace := trace, answers := answers }

/-- `u` is `s` but for the levels that reads returned and will return. -/
structure SameButLevels (s u : State) : Prop where
  engine : EngineKept s u
  pins : u.pins = s.pins
  events : (eventsSeen u).map eraseLevel = (eventsSeen s).map eraseLevel
  fails : u.answers.map Answer.fails = s.answers.map Answer.fails
  draws : u.draws = s.draws

theorem sameButLevels_relevel {s : State} (ack : Bool) {trace : List Entry} {answers : List Answer}
    (ht : (trace.map Entry.event).map eraseLevel = (eventsSeen s).map eraseLevel)
    (ha : answers.map Answer.fails = s.answers.map Answer.fails) : SameButLevels s (s.relevel ack trace answers) :=
  ⟨⟨rfl, rfl, rfl, rfl, rfl, rfl, rfl, rfl, rfl, rfl, rfl⟩, rfl, ht, ha, rfl⟩

theorem SameButLevels.eq_relevel {s u : State} (h : SameButLevels s u) : u = s.relevel u.lastAck u.trace u.answers := by
  obtain ⟨hk, hp, -, -, hd⟩ := h
  cases s
  cases u
  cases hk
  simp_all [State.relevel]

/-- An update that looks at no level keeps the two states the same but for the levels. -/
theorem SameButLevels.update {f : State → State} {s u : State} (h : SameButLevels s u)
    (hf : ∀ s ack trace answers, f (State.relevel s ack trace answers) = (f s).relevel ack trace answers) :
    SameButLevels (f s) (f u) := by
  have hs : f s = (f s).relevel s.lastAck s.trace s.answers := hf s s.lastAck s.trace s.answers
  rw [h.eq_relevel, hf]
  refine sameButLevels_relevel _ ?_ ?_
  · rw [hs]
    exact h.events
  · rw [hs]
    exact h.fails

/-! ### One call -/

theorem EngineKept.symm {s t : State} (h : EngineKept s t) : EngineKept t s :=
  ⟨h.cfg.symm, h.bright.symm, h.clkPin.symm, h.dioPin.symm, h.constructed.symm, h.errSeen.symm, h.lastErr.symm, h.seq.symm,
    h.responses.symm, h.rspValid.symm, h.inbox.symm⟩

theorem perform_answers (p : Prim) (s : State) : (perform p s).answers = if isDelay p then s.answers else s.answers.tail := by
  unfold perform
  split
  · rfl
  · dsimp only
    split <;> simp [effect_answers]

theorem perform_draws (p : Prim) (s : State) :
    (perform p s).draws = if isDelay p then s.draws else if s.answers.isEmpty then s.draws + 1 else s.draws := by
  unfold perform
  split
  · rfl
  · dsimp only
    split <;> simp [effect_answers, effect_draws]

theorem eraseLevel_eventOf_congr {a b : Answer} (h : a.fails = b.fails) (p : Prim) :
    eraseLevel (eventOf p a) = eraseLevel (eventOf p b) := by
  cases p with
  | dly => rfl
  | _ => cases hb : b.fails <;> simp [eventOf, h, hb, eraseLevel]

/-- No pin depends on the level of a read (10_state.md R31). -/
theorem replayEntry_eraseLevel (pins : Vector PinState pinCount) (e : Event) (n : Option (BitVec 5)) :
    replayEntry pins ⟨eraseLevel e, n⟩ = replayEntry pins ⟨e, n⟩ := by
  cases e <;> rfl

/-- Fixed or free, the next call fails in both or in neither. -/
theorem SameButLevels.nextAnswer_fails {s u : State} (h : SameButLevels s u) : (nextAnswer u).fails = (nextAnswer s).fails := by
  have ha := h.fails
  unfold nextAnswer
  cases hu : u.answers <;> cases hs : s.answers <;> simp_all [h.draws]

theorem SameButLevels.isEmpty_answers {s u : State} (h : SameButLevels s u) : u.answers.isEmpty = s.answers.isEmpty := by
  rw [← List.isEmpty_map (f := Answer.fails), h.fails, List.isEmpty_map]

theorem SameButLevels.failsNow {s u : State} (h : SameButLevels s u) (p : Prim) : failsNow p u = failsNow p s := by
  rw [Machine.failsNow, Machine.failsNow, h.nextAnswer_fails]

/-- One call has the same effect in both but for the level it returns, if it is a read. -/
theorem SameButLevels.perform {s u : State} (h : SameButLevels s u) (p : Prim) : SameButLevels (perform p s) (perform p u) where
  engine := (perform_engineKept p s).symm.trans (h.engine.trans (perform_engineKept p u))
  pins := by
    rw [perform_pins, perform_pins, ← replayEntry_eraseLevel, eraseLevel_eventOf_congr h.nextAnswer_fails, replayEntry_eraseLevel,
      requestPin_congr h.engine.clkPin h.engine.dioPin, h.pins]
  events := by
    have hev := h.events
    simp only [eventsSeen, perform_trace, List.map_append] at hev ⊢
    rw [hev]
    simp [eraseLevel_eventOf_congr h.nextAnswer_fails]
  fails := by
    rw [perform_answers, perform_answers]
    cases isDelay p <;> simp [List.map_tail, h.fails]
  draws := by rw [perform_draws, perform_draws, h.isEmpty_answers, h.draws]

/-! ### A whole operation -/

theorem SameButLevels.performAll {s u : State} (h : SameButLevels s u) (ps : List Prim) :
    SameButLevels (performAll ps s) (performAll ps u) := by
  induction ps generalizing s u with
  | nil => exact h
  | cons p ps ih => exact ih (h.perform p)

theorem SameButLevels.runEvents {s u : State} (h : SameButLevels s u) (ps : List Prim) :
    (runEvents ps u).1 = (runEvents ps s).1 ∧ SameButLevels (runEvents ps s).2 (runEvents ps u).2 := by
  induction ps generalizing s u with
  | nil => exact ⟨rfl, h⟩
  | cons p ps ih =>
    simp only [Machine.runEvents, h.failsNow p]
    split
    · exact ⟨rfl, h.perform p⟩
    · exact ih (h.perform p)

theorem SameButLevels.complete {s u : State} (h : SameButLevels s u) (i : Instr) : SameButLevels (complete i s) (complete i u) :=
  h.update fun _ _ _ _ => by cases i <;> rfl

theorem SameButLevels.abandon {s u : State} (h : SameButLevels s u) (i : Instr) : SameButLevels (abandon i s) (abandon i u) :=
  h.update fun _ _ _ _ => by cases i <;> rfl

theorem SameButLevels.loadOperands {s u : State} (h : SameButLevels s u) (i : Instr) :
    SameButLevels (loadOperands i s) (loadOperands i u) :=
  h.update fun _ _ _ _ => by cases i <;> rfl

theorem SameButLevels.runOp {s u t : State} (h : SameButLevels s u) {i : Instr} (ht : runOp i s = .next t) :
    ∃ v, runOp i u = .next v ∧ SameButLevels t v := by
  obtain ⟨hp, w, rfl, hend⟩ := runOp_next ht
  obtain ⟨hr, hs⟩ := h.runEvents (eventsOf s.cfg s.bright i)
  have hk := h.engine
  rw [Machine.runOp, if_pos ((pinsInSpace_congr hk.clkPin hk.dioPin).trans hp), hk.cfg, hk.bright]
  refine ⟨_, rfl, ?_⟩
  obtain ⟨he, rfl⟩ | ⟨he, rfl⟩ := hend
  · rw [if_pos (hr.trans he)]
    exact hs.complete i
  · rw [if_neg (by simp [hr, he])]
    exact (hs.performAll idleSeq).abandon i

theorem SameButLevels.ungated {s u t : State} (h : SameButLevels s u) {i : Instr} (ht : ungated i s = .next t) :
    ∃ v, ungated i u = .next v ∧ SameButLevels t v := by
  unfold Machine.ungated at ht ⊢
  by_cases hv : operandsValid i = true
  · rw [if_pos hv] at ht ⊢
    by_cases hr : runsEvents i = true
    · rw [if_pos hr] at ht ⊢
      exact (h.loadOperands i).runOp ht
    · rw [if_neg hr] at ht ⊢
      injection ht with ht
      exact ⟨_, rfl, ht ▸ (h.loadOperands i).complete i⟩
  · rw [if_neg hv] at ht ⊢
    injection ht with ht
    exact ⟨_, rfl, ht ▸ h.update fun _ _ _ _ => rfl⟩

/-- No test before or in an operation looks at a level: where one state has a next state, the other has one. -/
theorem SameButLevels.exec {s u t : State} (h : SameButLevels s u) {i : Instr} (ht : exec i s = .next t) :
    ∃ v, exec i u = .next v ∧ SameButLevels t v := by
  obtain ⟨hc, hn, -⟩ := exec_next ht
  rw [exec_eq_gate, gate_of_pass hc hn] at ht
  rw [exec_eq_gate, gate_of_pass (h.engine.cfg ▸ hc) (h.engine.constructed.trans hn)]
  exact h.ungated ht

theorem sameButLevels_withLevels {s : State} {l : List Bool} (hl : l.length = s.answers.length) : SameButLevels s (withLevels s l) := by
  refine sameButLevels_relevel s.lastAck (trace := s.trace) rfl (List.ext_getElem ?_ fun k _ _ => ?_)
  · simp [hl]
  · simp

/-- Settles O29: through the whole operation the two states differ in levels only. -/
theorem acknowledgmentLevelsAreIgnored : Obligations.AcknowledgmentLevelsAreIgnored := by
  intro i s t l hl h
  obtain ⟨u, hu, hs⟩ := (sameButLevels_withLevels hl).exec h
  obtain ⟨hk, hpins, hevents, hfails, hdraws⟩ := hs
  exact ⟨u, hu, hevents, hpins, hk.responses, ⟨hk.bright, hk.clkPin, hk.dioPin⟩, hk.constructed, ⟨hk.errSeen, hk.lastErr⟩,
    by simpa using congrArg List.length hfails, hdraws⟩

end Sys2Proof.Machine
end

section
/-! Hardware reset and waiting (70_reset_and_hazards.md section 1), and one whole process run of the source (section 2; 30_encoding.md R86). -/

namespace Sys2Proof.Machine

/-! ### Hardware reset and waiting -/

theorem waitStep_of_idle {s : State} (hs : s.seq = .idle) : waitStep s = { s with rspValid := false } := by
  rw [waitStep, State.goto, ← hs]

/-- Settles O7: waiting writes `SEQ <- idle`, which it is, and lowers the port `rsp_valid`. -/
theorem engineWaitsForACommand : Obligations.EngineWaitsForACommand := by
  refine fun s hs => ⟨fun hi => ?_, fun rest hi => ?_⟩
  · rw [step_idle_nil hs hi, waitStep_of_idle (s := s.setInbox []) hs, State.setInbox, ← hi]
  · rw [step_idle_quiet hs hi, waitStep_of_idle (s := s.setInbox rest) hs, State.setInbox]

/-- Settles O8: the reset values field by field, and no pin is known. -/
theorem resetLeavesTheSpecifiedValues : Obligations.ResetLeavesTheSpecifiedValues :=
  ⟨rfl, fun c => ⟨rfl, rfl, rfl, rfl, rfl, rfl, rfl, pinAt_hardReset (resetUnder c)⟩⟩

/-- Settles O9: the step that finds reset presented is hardware reset whatever `SEQ` is, and what it installs is the reset state under the
old configuration, inputs and answers. -/
theorem hardwareResetArrivesAtAnyTime : Obligations.HardwareResetArrivesAtAnyTime :=
  fun _ _ hi => ⟨_, step_rst hi, rfl, rfl, rfl, rfl, rfl, rfl, pinAt_hardReset _, rfl, rfl, rfl, rfl, rfl⟩

/-- Settles O16: `State.reset` is the state after reset in the default configuration, which is well-formed (log 7). -/
theorem invariantHoldsAtReset : Obligations.InvariantHoldsAtReset := by
  obtain ⟨hdefault, -⟩ := segmentTableGrows
  exact ⟨runInv_resetUnder hdefault, fun _ => runInv_resetUnder⟩

/-! ### Operations that complete, one after another -/

/-- What the operation `i` comes to when it is admitted and none of its calls fails (40_transport.md R100). -/
def completed (i : Instr) (s : State) : State := complete i (performAll (eventsOf s.cfg s.bright i) (loadOperands i s))

theorem exec_eq_completed {i : Instr} {s : State} (hp : testsPass i s = true) (hl : pinsLegal (loadOperands i s) = true)
    (hn : NoFailure s (callsIn (eventsOf s.cfg s.bright i))) : exec i s = .next (completed i s) := by
  cases hr : runsEvents i with
  | true => exact exec_of_noFailure hp (pinsInSpace_of_legal hl) hn hr
  | false =>
    rw [exec_of_testsPass hp, if_neg (by simp [hr])]
    cases i with
    | setb b => rfl
    | _ => cases hr

/-- After any operation but RELEASE the driver is constructed, on the pins the operation ran on. -/
theorem operational_completed {i : Instr} {s : State} (hp : testsPass i s = true) (hl : pinsLegal (loadOperands i s) = true)
    (hr : i ≠ .release) : operational (completed i s) = true := by
  have hk := performAll_engineKept (eventsOf s.cfg s.bright i) (loadOperands i s)
  obtain ⟨hcfg, -, -, -, -, -, hcon, -⟩ := loadOperands_kept i s
  obtain ⟨hcfg', hclk, hdio, -⟩ := complete_kept i (performAll (eventsOf s.cfg s.bright i) (loadOperands i s))
  simp only [testsPass, Bool.and_eq_true, beq_iff_eq] at hp
  obtain ⟨⟨hok, hneeds⟩, -⟩ := hp
  refine (operational_iff _).2 ⟨?_, ?_, ?_⟩
  · rw [completed, hcfg', hk.cfg, hcfg, hok]
  · rw [completed, complete_constructed, hk.constructed, hcon, hneeds]
    simp [hr]
  · rw [completed, pinsLegal_congr hclk hdio, pinsLegal_of_kept hk, hl]

/-- The operations `is` take `s` to `t`, each with response 0, by the calls `ps`, none of which fails. -/
structure RunCompletes (is : List Instr) (ps : List Prim) (s t : State) : Prop where
  run : runInstrs is s = .next t
  responses : t.responses = s.responses ++ List.replicate is.length completedCode
  flags : FlagsKept s t
  cfg : t.cfg = s.cfg
  events : ∃ new, eventsSeen t = eventsSeen s ++ new ∧ new.map eraseLevel = successEvents false ps
  noFailure {m : Nat} : NoFailure s (callsIn ps + m) → NoFailure t m

/-- An operation that is admitted on legal pins, none of its calls failing. -/
theorem runCompletes_completed {i : Instr} {s : State} (hp : testsPass i s = true) (hl : pinsLegal (loadOperands i s) = true)
    (hn : NoFailure s (callsIn (eventsOf s.cfg s.bright i))) : RunCompletes [i] (eventsOf s.cfg s.bright i) s (completed i s) := by
  have hk := performAll_engineKept (eventsOf s.cfg s.bright i) (loadOperands i s)
  have hev := performAll_events (eventsOf s.cfg s.bright i) (loadOperands i s)
  rw [loadOperands_eventsSeen, funext (loadOperands_answerAt i s)] at hev
  have hans := performAll_answerAt (eventsOf s.cfg s.bright i) (loadOperands i s)
  obtain ⟨hresp, hseen, hlast⟩ := performed_kept i (eventsOf s.cfg s.bright i) s
  obtain ⟨hcfg, -⟩ := loadOperands_kept i s
  have hexec := exec_eq_completed hp hl hn
  unfold completed at hexec ⊢
  generalize performAll (eventsOf s.cfg s.bright i) (loadOperands i s) = u at *
  obtain ⟨hcfg', -, -, -, -, -, -, hanswers, hdraws⟩ := complete_kept i u
  obtain ⟨hseen', hlast'⟩ := complete_flagsKept i u
  obtain ⟨hresp', -⟩ := (complete_responded i u).of_kept hresp
  refine ⟨by simp only [runInstrs, hexec], hresp', ⟨hseen'.trans hseen, hlast'.trans hlast⟩, hcfg'.trans (hk.cfg.trans hcfg),
    ⟨_, (complete_eventsSeen i u).trans hev, eraseLevel_expectedEvents (by simpa using hn)⟩, fun hm k hlt => ?_⟩
  rw [answerAt_congr hanswers hdraws, hans, loadOperands_answerAt]
  exact hm _ (by omega)

theorem runInstrs_append {is js : List Instr} {s t : State} (h : runInstrs is s = .next t) :
    runInstrs (is ++ js) s = runInstrs js t := by
  induction is generalizing s with
  | nil => cases h; rfl
  | cons i is ih =>
    simp only [List.cons_append, runInstrs] at h ⊢
    split at h
    · exact ih h
    · cases h
    · cases h

theorem RunCompletes.append {is js : List Instr} {ps qs : List Prim} {s t u : State} (h : RunCompletes is ps s t)
    (k : RunCompletes js qs t u) : RunCompletes (is ++ js) (ps ++ qs) s u := by
  obtain ⟨new, hev, herase⟩ := h.events
  obtain ⟨new', hev', herase'⟩ := k.events
  obtain ⟨hseen, hlast⟩ := h.flags
  obtain ⟨hseen', hlast'⟩ := k.flags
  refine ⟨(runInstrs_append h.run).trans k.run, ?_, ⟨hseen'.trans hseen, hlast'.trans hlast⟩, k.cfg.trans h.cfg,
    ⟨new ++ new', ?_, ?_⟩, fun hn => k.noFailure (h.noFailure ?_)⟩
  · rw [k.responses, h.responses, List.append_assoc, List.length_append, List.replicate_add]
  · rw [hev', hev, List.append_assoc]
  · rw [List.map_append, herase, herase', successEvents_append]
  · rwa [callsIn_append, Nat.add_assoc] at hn

theorem runCompletes_init {clk dio : Int} {s : State} (ho : constructible s = true) (hv : initValid clk dio = true)
    (hn : NoFailure s 4) :
    RunCompletes [.init clk dio] idleSeq s (completed (.init clk dio) s) ∧ operational (completed (.init clk dio) s) = true := by
  simp only [constructible, Bool.and_eq_true, Bool.not_eq_true'] at ho
  obtain ⟨hcfg, hcon⟩ := ho
  have hp : testsPass (.init clk dio) s = true := by simp [testsPass, operandsValid, isInit, hcfg, hcon, hv]
  have hl := loadInit_pinsLegal s hv
  exact ⟨runCompletes_completed hp hl hn, operational_completed hp hl (by simp)⟩

/-- An operation of a constructed driver, none of its calls failing; all but RELEASE leave it constructed. -/
theorem runCompletes_of_operational {i : Instr} {s : State} (ho : operational s = true) (hi : isInit i = false)
    (hv : operandsValid i = true) (hn : NoFailure s (callsIn (eventsOf s.cfg s.bright i))) :
    RunCompletes [i] (eventsOf s.cfg s.bright i) s (completed i s) ∧ (i ≠ .release → operational (completed i s) = true) := by
  obtain ⟨hcfg, hcon, hl⟩ := (operational_iff s).1 ho
  have hp : testsPass i s = true := by simp [testsPass, hcfg, hcon, hi, hv]
  rw [← loadOperands_eq_self (s := s) hi] at hl
  exact ⟨runCompletes_completed hp hl hn, operational_completed hp hl⟩

/-! ### A whole process run -/

/-- Frames sent one after another leave the receiver at idle lines, outside a frame. -/
theorem receive_frames_idle (a : Bool) (n : Nat) (acc : Byte) (cur : List Byte) (fr bss : List (List Byte)) :
    ∃ n' acc' cur', receiveAll ⟨true, some true, true, false, n, acc, cur, fr⟩ (successEvents a (bss.flatMap frameEvents)) =
      some ⟨true, some true, true, false, n', acc', cur', fr ++ bss⟩ := by
  induction bss generalizing n acc cur fr with
  | nil => exact ⟨n, acc, cur, by simp [successEvents, receiveAll]⟩
  | cons bs bss ih =>
    obtain ⟨n₁, acc₁, cur₁, hframe⟩ := receive_frame a n acc cur bs fr
    obtain ⟨n₂, acc₂, cur₂, hframes⟩ := ih n₁ acc₁ cur₁ (fr ++ [bs])
    exact ⟨n₂, acc₂, cur₂, by simp [successEvents_append, receiveAll_append, hframe, hframes]⟩

/-- `IDLE_SEQ` before and after frames sent one after another is nothing to the receiver. -/
theorem framesOf_idle_frames_idle (a : Bool) (bss : List (List Byte)) :
    framesOf (successEvents a (idleSeq ++ bss.flatMap frameEvents ++ idleSeq)) = some bss := by
  obtain ⟨n, acc, cur, hframes⟩ := receive_frames_idle a 0 0 [] [] bss
  have hbefore := receive_idle a 0 0 [] []
  have hafter := receive_idle a n acc cur bss
  rw [List.nil_append] at hframes
  simp only [framesOf, Receiver.start, successEvents_append, receiveAll_append, hbefore, hframes, hafter, Option.bind_some,
    Option.map_some]

/-- Settles O47: the four operations complete one after another; the receiver sees the frames of the SETL between two `IDLE_SEQ`, and the
RELEASE leaves the lines idle. -/
theorem processRunEndsClean : Obligations.ProcessRunEndsClean := by
  intro c d b l s ho he hc0 hc27 hd0 hd27 hne hl0 hl7 hn
  have hv := (initValid_iff c d).2 ⟨⟨hc0, hc27⟩, ⟨hd0, hd27⟩, hne⟩
  obtain ⟨hinit, ho₁⟩ := runCompletes_init ho hv (hn.mono (by simp))
  have hn₁ : NoFailure (completed (.init c d) s) 148 := hinit.noFailure hn
  generalize completed (.init c d) s = t₁ at hinit ho₁ hn₁
  obtain ⟨hsetb, ho₂⟩ := runCompletes_of_operational (i := .setb b.toNat) ho₁ rfl ((brightInRange_iff b.toNat).2 ⟨by omega, by omega⟩)
    (hn₁.mono (by simp [eventsOf, callsIn]))
  specialize ho₂ (by simp)
  have hbright : (completed (.setb b.toNat) t₁).bright = b := brightReg_ofNat b
  have hn₂ : NoFailure (completed (.setb b.toNat) t₁) (144 + 4) := hsetb.noFailure (by simpa [eventsOf, callsIn] using hn₁)
  generalize completed (.setb b.toNat) t₁ = t₂ at hsetb ho₂ hbright hn₂
  obtain ⟨hsetl, ho₃⟩ := runCompletes_of_operational (i := .setl l) ho₂ rfl ((levelInRange_iff l).2 ⟨hl0, hl7⟩)
    (hn₂.mono (by simp [eventsOf, callsIn_setl]))
  specialize ho₃ (by simp)
  have hn₃ : NoFailure (completed (.setl l) t₂) 4 := hsetl.noFailure (by rwa [eventsOf, callsIn_setl])
  generalize completed (.setl l) t₂ = t₃ at hsetl ho₃ hn₃
  obtain ⟨hrelease, -⟩ := runCompletes_of_operational (i := .release) ho₃ rfl rfl hn₃
  obtain ⟨-, -, hl₃⟩ := (operational_iff t₃).1 ho₃
  obtain ⟨-, hidle, -, -, hseq⟩ := complete_idleSeq (i := .release) (t := completed .release t₃) hl₃ hn₃ rfl
  have hrun := hinit.append (hsetb.append (hsetl.append hrelease))
  obtain ⟨new, hev, herase⟩ := hrun.events
  obtain ⟨hseen, -⟩ := hrun.flags
  refine ⟨_, new, hrun.run, ?_, rfl, hrun.responses, hev, ?_⟩
  · simp [cleanEnd, hseen, he, hidle, busy, hseq]
  · have hframes := framesOf_idle_frames_idle false (setlFrames s.cfg b l.toNat)
    rw [← setlEvents_eq_frames] at hframes
    rw [← framesOf_eraseLevel, herase, hbright, hsetb.cfg, hinit.cfg]
    simpa [eventsOf, setlFrames, ctrlByte] using hframes

end Sys2Proof.Machine
end
